-- ==== Sys2Proof/Word.lean ====
section
/-! DEFINITION. The types of data the core moves: bytes, 32-bit register words, 4-byte groups and 16-byte blocks. -/

namespace Sys2Proof

/-- A byte: 8 bits, unsigned (R9). -/
abbrev Byte := BitVec 8

/-- A register or command word: 32 bits, unsigned (R8, R9). -/
abbrev Word := BitVec 32

/-- A 4-byte group: one round-key word `W[i]` (byte `bj` is `W[i][j]`, R24, R120) or one column of the State
(byte `br` is the one of row `r`, R27). The bytes are never assembled into a wider integer (R54). -/
structure Quad where
  b0 : Byte
  b1 : Byte
  b2 : Byte
  b3 : Byte
  deriving DecidableEq, Repr

/-- Sixteen bytes in block order, as four columns: byte `i` of the block is byte `i mod 4` of column `i div 4`,
which is the State byte of row `i mod 4` and column `i div 4` (R54(a), R140, R141; DEDUCED, log entry 9). -/
structure Block where
  c0 : Quad
  c1 : Quad
  c2 : Quad
  c3 : Quad
  deriving DecidableEq, Repr

/-- Four zero bytes. -/
def Quad.zero : Quad := ⟨0, 0, 0, 0⟩

/-- Sixteen zero bytes. -/
def Block.zero : Block := ⟨.zero, .zero, .zero, .zero⟩

end Sys2Proof
end

