-- ==== Sys2Proof/Config.lean ====
section
/-! DEFINITION. What one build of the core fixes: the fixed sizes of the cipher and of the hardware, the range of the
open parameter NBLK_MAX, and the value of it that `State.reset` is built with. -/

namespace Sys2Proof.Config

/-- The block size in 4-byte words (R6): always 4. -/
def nb : Nat := 4

/-- The host address width in bits (R8). -/
def addressBits : Nat := 22

/-- The least value of the open parameter `NBLK_MAX` (R7). -/
def nblkMaxLeast : Nat := 1

/-- The greatest value of the open parameter `NBLK_MAX` (R7). -/
def nblkMaxGreatest : Nat := 49152

/-- The `NBLK_MAX` of `State.reset`. DESIGN CHOICE (log entry 1): the spec leaves the parameter open (R7). 8 is the
value the spec's own vectors use (95_test_vectors.md, Conventions). Every statement about a state holds for whatever
`nblkMax` that state has. -/
def resetNblkMax : Nat := 8

end Sys2Proof.Config
end

