-- ==== Sys2Proof/Syntax.lean ====
section
/-! DEFINITION. The 21 commands of the core, one constructor per row of the opcode table (R82). -/

namespace Sys2Proof

/-- A command of the core, the hardware's analogue of an instruction (R12, R82). An operand is the unsigned byte of
field A or B of the command word (R80, R83); every other input is the core's own state. -/
inductive Instr where
  /-- GFMUL a, b (R101). -/
  | gfmul (a b : Byte)
  /-- KEYEXP (R121). -/
  | keyexp
  /-- LDSTATE (R142). -/
  | ldstate
  /-- STSTATE (R143). -/
  | ststate
  /-- SUBBYTES (R144). -/
  | subbytes
  /-- SHIFTROWS (R145). -/
  | shiftrows
  /-- MIXCOLUMNS (R146). -/
  | mixcolumns
  /-- ADDROUNDKEY r (R147). -/
  | addroundkey (r : Byte)
  /-- INVSUBBYTES (R148). -/
  | invsubbytes
  /-- INVSHIFTROWS (R149). -/
  | invshiftrows
  /-- INVMIXCOLUMNS (R150). -/
  | invmixcolumns
  /-- ENCBLK (R153). -/
  | encblk
  /-- DECBLK (R154). -/
  | decblk
  /-- PAD (R186). -/
  | pad
  /-- UNPAD (R188). -/
  | unpad
  /-- ECBENC (R190). -/
  | ecbenc
  /-- ECBDEC (R191). -/
  | ecbdec
  /-- B64ENC (R196). -/
  | b64enc
  /-- B64DEC (R198). -/
  | b64dec
  /-- ENCRYPT (R200). -/
  | encrypt
  /-- DECRYPT (R201). -/
  | decrypt
  deriving DecidableEq, Repr

/-- Which operand fields of the command word a command uses (R82, column "fields"; R81 step 2). -/
inductive OperandShape where
  /-- Neither field: 19 of the 21 commands. -/
  | neither
  /-- Field A only: ADDROUNDKEY. -/
  | fieldA
  /-- Fields A and B: GFMUL. -/
  | fieldsAB
  deriving DecidableEq, Repr

/-- The four fields of a command word of format CW (R80). -/
structure CommandFields where
  /-- Bits [7:0], OPC, the opcode. -/
  opc : Byte
  /-- Bits [15:8], A, the first operand. -/
  a : Byte
  /-- Bits [23:16], B, the second operand. -/
  b : Byte
  /-- Bits [31:24], Z, reserved. -/
  z : Byte
  deriving DecidableEq, Repr

end Sys2Proof
end

