-- ==== Sys2Proof/WellFormed.lean ====
section
/-! DEFINITION. When the fields of a command word are well formed for a command's operand shape (R80, R81 step 2). An
`Instr` is well formed by its type: its operands are bytes, which is all that R83 asks of them. -/

namespace Sys2Proof

/-- The reserved field Z is zero (R80). -/
def CommandFields.reservedClear (f : CommandFields) : Bool := f.z == 0

/-- Field B is zero unless the command takes a B operand (R80, R81 step 2). -/
def CommandFields.unusedBClear (f : CommandFields) : OperandShape → Bool
  | .neither => f.b == 0
  | .fieldA => f.b == 0
  | .fieldsAB => true

/-- Field A is zero unless the command takes an A operand (R80, R81 step 2). -/
def CommandFields.unusedAClear (f : CommandFields) : OperandShape → Bool
  | .neither => f.a == 0
  | .fieldA => true
  | .fieldsAB => true

/-- Every reserved or unused field is zero: R81 step 2 raises nothing. -/
def CommandFields.wellFormed (f : CommandFields) (shape : OperandShape) : Bool :=
  f.reservedClear && f.unusedBClear shape && f.unusedAClear shape

/-- The operand fields a command uses (R82). -/
def Instr.shape : Instr → OperandShape
  | .gfmul _ _ => .fieldsAB
  | .addroundkey _ => .fieldA
  | .keyexp => .neither
  | .ldstate => .neither
  | .ststate => .neither
  | .subbytes => .neither
  | .shiftrows => .neither
  | .mixcolumns => .neither
  | .invsubbytes => .neither
  | .invshiftrows => .neither
  | .invmixcolumns => .neither
  | .encblk => .neither
  | .decblk => .neither
  | .pad => .neither
  | .unpad => .neither
  | .ecbenc => .neither
  | .ecbdec => .neither
  | .b64enc => .neither
  | .b64dec => .neither
  | .encrypt => .neither
  | .decrypt => .neither

end Sys2Proof
end

