-- ==== Sys2Proof/Decode.lean ====
section
/-! DEFINITION. Decoding a command word (R80 to R84) and encoding a command (R82, R87). -/

namespace Sys2Proof

/-- Why a command word is illegal (R81, R84). -/
inductive DecodeError where
  /-- OPC is not one of the 21 assigned values: CommandError cause 1 (R81 step 1). -/
  | unassignedOpcode
  /-- A reserved or unused field is not zero: CommandError cause 2 (R81 step 2). -/
  | fieldNotZero
  deriving DecidableEq, Repr

/-- The fields of a command word (R80). -/
def fieldsOf (c : Word) : CommandFields where
  opc := c.extractLsb' 0 8
  a := c.extractLsb' 8 8
  b := c.extractLsb' 16 8
  z := c.extractLsb' 24 8

/-- The command a word's opcode selects, with the operands in its fields A and B (R82, R83). -/
def commandOf (f : CommandFields) : Option Instr :=
  match f.opc.toNat with
  | 0x01 => some (.gfmul f.a f.b)
  | 0x10 => some .keyexp
  | 0x20 => some .ldstate
  | 0x21 => some .ststate
  | 0x22 => some .subbytes
  | 0x23 => some .shiftrows
  | 0x24 => some .mixcolumns
  | 0x25 => some (.addroundkey f.a)
  | 0x26 => some .invsubbytes
  | 0x27 => some .invshiftrows
  | 0x28 => some .invmixcolumns
  | 0x30 => some .encblk
  | 0x31 => some .decblk
  | 0x40 => some .pad
  | 0x41 => some .unpad
  | 0x42 => some .ecbenc
  | 0x43 => some .ecbdec
  | 0x44 => some .b64enc
  | 0x45 => some .b64dec
  | 0x50 => some .encrypt
  | 0x51 => some .decrypt
  | _ => none

/-- Decoding in the order of R81: the opcode first, then the reserved and unused fields. -/
def decode (c : Word) : Except DecodeError Instr :=
  match commandOf (fieldsOf c) with
  | none => .error .unassignedOpcode
  | some i => if (fieldsOf c).wellFormed i.shape then .ok i else .error .fieldNotZero

/-- The instruction the decoder reads from a word of the opcode table, numbered as the table numbers its bits
(bit 0 least significant, R9, R80). The format has one word of 32 bits, so every bit at or above `nbits` is 0. -/
def decodeTableWord (nbits w : Nat) : Option Instr :=
  match decode (BitVec.ofNat 32 (w % 2 ^ nbits)) with
  | .ok i => some i
  | .error _ => none

/-- The fields of a command's word: its opcode, its operands, and zero in every field it does not use (R80, R82, R83). -/
def Instr.fields : Instr → CommandFields
  | .gfmul a b => ⟨0x01, a, b, 0⟩
  | .keyexp => ⟨0x10, 0, 0, 0⟩
  | .ldstate => ⟨0x20, 0, 0, 0⟩
  | .ststate => ⟨0x21, 0, 0, 0⟩
  | .subbytes => ⟨0x22, 0, 0, 0⟩
  | .shiftrows => ⟨0x23, 0, 0, 0⟩
  | .mixcolumns => ⟨0x24, 0, 0, 0⟩
  | .addroundkey r => ⟨0x25, r, 0, 0⟩
  | .invsubbytes => ⟨0x26, 0, 0, 0⟩
  | .invshiftrows => ⟨0x27, 0, 0, 0⟩
  | .invmixcolumns => ⟨0x28, 0, 0, 0⟩
  | .encblk => ⟨0x30, 0, 0, 0⟩
  | .decblk => ⟨0x31, 0, 0, 0⟩
  | .pad => ⟨0x40, 0, 0, 0⟩
  | .unpad => ⟨0x41, 0, 0, 0⟩
  | .ecbenc => ⟨0x42, 0, 0, 0⟩
  | .ecbdec => ⟨0x43, 0, 0, 0⟩
  | .b64enc => ⟨0x44, 0, 0, 0⟩
  | .b64dec => ⟨0x45, 0, 0, 0⟩
  | .encrypt => ⟨0x50, 0, 0, 0⟩
  | .decrypt => ⟨0x51, 0, 0, 0⟩

/-- The command's own fields are well formed for its shape; the family `WellFormedFields` of Laws/PerInstr.lean shows
that this holds of every command. -/
def Instr.wellFormed (i : Instr) : Bool := i.fields.wellFormed i.shape

/-- The command word of a command (R87). -/
def encode (i : Instr) : Word :=
  i.fields.opc.setWidth 32 + (i.fields.a.setWidth 32 <<< 8) + (i.fields.b.setWidth 32 <<< 16)
    + (i.fields.z.setWidth 32 <<< 24)

end Sys2Proof
end

