-- ==== Sys2Proof/Machine/State.lean ====
section
/-! DEFINITION. Everything the spec gives the core to hold (R20 to R42), the host's side of the bus, what a step can
end in, and the state after reset (R41, R250). -/

namespace Sys2Proof.Machine

/-- What the host does to the core: a bus transaction (R56, R57) or the reset event (R250). An address is the
platform's; the core decodes its low 22 bits (R51; DEDUCED, log entry 4). Only 1-byte and 4-byte transactions exist
(R58; DEDUCED, log entry 5). -/
inductive HostEvent where
  /-- `MemRead(addr, 1)` (R56). -/
  | memRead8 (addr : Nat)
  /-- `MemRead(addr, 4)` (R56). -/
  | memRead32 (addr : Nat)
  /-- `MemWrite(addr, 1, v)` (R57). -/
  | memWrite8 (addr : Nat) (v : Byte)
  /-- `MemWrite(addr, 4, v)` (R57). -/
  | memWrite32 (addr : Nat) (v : Word)
  /-- The reset event (R250). -/
  | reset
  deriving DecidableEq, Repr

/-- What the bus answered to the last transaction (R56, R57, R225). -/
inductive Response where
  /-- No transaction since reset. -/
  | noTransaction
  /-- OK to a read of one byte, with the byte (R56). -/
  | okByte (v : Byte)
  /-- OK to a read of a register, with its value (R56). -/
  | okWord (v : Word)
  /-- OK to a write (R57). -/
  | okWrite
  /-- The bus error response, which carries no data (R53, R225). -/
  | busError
  deriving DecidableEq, Repr

/-- The errors a command can raise, one for each error and cause of R221 to R224. They are no faults of the machine:
a command that raises one ends in a next state (R226). -/
inductive CommandFailure where
  /-- KeyLengthError: KEYLEN is not 16, 24 or 32 (R221). -/
  | keyLength
  /-- EncodingError 1: the frame's length is not a multiple of 4 (R222). -/
  | frameLength
  /-- EncodingError 2: a character outside the alphabet, or a misplaced padding character (R222). -/
  | frameCharacter
  /-- EncodingError 3: non-zero discarded bits before the padding (R222). -/
  | frameDiscardedBits
  /-- EncodingError 4: the decoded length is not a multiple of 16 (R222). -/
  | framePartialBlock
  /-- PaddingError 1: there is no last byte (R223). -/
  | paddingEmpty
  /-- PaddingError 2: the last byte is 0 or greater than 16 (R223). -/
  | paddingRange
  /-- PaddingError 3: the last bytes are not all equal (R223). -/
  | paddingBytes
  /-- PaddingError 4: the last byte exceeds the data length (R223). -/
  | paddingUnderflow
  /-- CommandError 1: OPC is not assigned (R224). -/
  | unassignedOpcode
  /-- CommandError 2: a reserved or unused field is not zero (R224). -/
  | fieldNotZero
  /-- CommandError 3: the round number exceeds NR (R224). -/
  | roundNumber
  /-- CommandError 4: KVALID is 0 (R224). -/
  | noRoundKeys
  /-- CommandError 5: a source buffer's length register exceeds its capacity (R224). -/
  | sourceLength
  /-- CommandError 6: the result does not fit the destination buffer (R224). -/
  | resultTooLong
  /-- CommandError 7: RAWLEN is not a multiple of 16 (R224). -/
  | rawPartialBlock
  deriving DecidableEq, Repr

/-- The contents of a byte buffer: the cells that do not hold the value every cell has after reset, which is 0x00
(R41), in rising order of their index (DEDUCED, log entry 13). `Memory.wf` (Machine/Ops.lean) says that the list has
this form. -/
abbrev Memory := List Host.Cell

/-- The reasons a step of the core can stop. There is none: every transaction and every command has exactly one
defined outcome, and every command terminates (93_implementation_defined.md part A, R262). An error of a command is a
next state (R226) and a bus error is a response (R225). DEDUCED (log entry 8). -/
inductive Fault where
  deriving DecidableEq, Repr

/-- The reasons for which the model has no meaning for an instruction. -/
inductive Refusal where
  /-- Raised by an arm of `exec` whose instruction has no meaning yet. No arm raises it: every command is modelled.
  Safe: a refused step proves nothing about the core. -/
  | notModelled (mnemonic : String)
  deriving DecidableEq, Repr

/-- The state of the core, one field for each item of R22 to R36, and the host's side of the bus.
`nblkMax` is a parameter of the build, which no step changes (R7, R36, R39). `pending` and `response` are the model's
own: the transactions the host will issue, in its order, and the bus response to the last one (DESIGN CHOICE, log entries
2 and 3). -/
structure State where
  /-- KEY, 32 bytes (R22). -/
  key : Vector Byte 32
  /-- KEYLEN, the key length in bytes (R23). -/
  keyLen : Word
  /-- W, the round-key memory, 60 words of 4 bytes (R24). -/
  w : Vector Quad 60
  /-- NK (R25). -/
  nk : Word
  /-- NR (R25). -/
  nr : Word
  /-- KVALID, read at `STATUS[8]` (R26). -/
  kvalid : Bool
  /-- S, the 4×4 State, as its four columns (R27). -/
  cipherState : Block
  /-- BLK, the block buffer (R28). -/
  blk : Block
  /-- RESULT (R29). -/
  result : Word
  /-- MSG, the message buffer (R30). -/
  msg : Memory
  /-- MSGLEN (R30, R40). -/
  msgLen : Word
  /-- RAW, the buffer of padded plaintext or unencoded ciphertext (R31). -/
  raw : Memory
  /-- RAWLEN (R31, R40). -/
  rawLen : Word
  /-- FRAME, the Base64 frame buffer (R32). -/
  frame : Memory
  /-- FRAMELEN (R32, R40). -/
  frameLen : Word
  /-- `STATUS.ERRCODE`, bits [3:0] (R34). -/
  errCode : BitVec 4
  /-- `STATUS.ERRINFO`, bits [7:4] (R34). -/
  errInfo : BitVec 4
  /-- `CTRL.PADCHK`, bit [0] (R35). -/
  padchk : Bool
  /-- The parameter `NBLK_MAX`, which register NBLKMAX reads as (R7, R36). -/
  nblkMax : Nat
  /-- What the host will issue, the next event first. -/
  pending : List HostEvent
  /-- The bus response to the last transaction. -/
  response : Response
  deriving DecidableEq, Repr

/-- The state after reset of a core built with `NBLK_MAX = nblkMax` (R41, R250). The spec states every value; only
`pending` and `response` are the model's own (DESIGN CHOICE, log entries 2 and 3). -/
def State.resetWith (nblkMax : Nat) : State where
  key := Vector.replicate 32 0
  keyLen := 0
  w := Vector.replicate 60 Quad.zero
  nk := 0
  nr := 0
  kvalid := false
  cipherState := Block.zero
  blk := Block.zero
  result := 0
  msg := []
  msgLen := 0
  raw := []
  rawLen := 0
  frame := []
  frameLen := 0
  errCode := 0
  errInfo := 0
  padchk := true
  nblkMax := nblkMax
  pending := []
  response := .noTransaction

/-- The state after reset, for the `NBLK_MAX` of log entry 1. -/
def State.reset : State := State.resetWith Config.resetNblkMax

end Sys2Proof.Machine
end

