-- ==== Sys2Proof/Machine/Flags.lean ====
section
/-! DEFINITION. The flags: STATUS, the only condition codes of the core (R34), CTRL (R35), and the code and cause
number of every error (R221 to R224). -/

namespace Sys2Proof.Machine

/-- ERRCODE of an error (R221 to R224, R226). -/
def CommandFailure.code : CommandFailure → BitVec 4
  | .keyLength => 1
  | .frameLength => 2
  | .frameCharacter => 2
  | .frameDiscardedBits => 2
  | .framePartialBlock => 2
  | .paddingEmpty => 3
  | .paddingRange => 3
  | .paddingBytes => 3
  | .paddingUnderflow => 3
  | .unassignedOpcode => 4
  | .fieldNotZero => 4
  | .roundNumber => 4
  | .noRoundKeys => 4
  | .sourceLength => 4
  | .resultTooLong => 4
  | .rawPartialBlock => 4

/-- ERRINFO of an error: the cause number within its ERRCODE (R221 to R224). -/
def CommandFailure.info : CommandFailure → BitVec 4
  | .keyLength => 0
  | .frameLength => 1
  | .frameCharacter => 2
  | .frameDiscardedBits => 3
  | .framePartialBlock => 4
  | .paddingEmpty => 1
  | .paddingRange => 2
  | .paddingBytes => 3
  | .paddingUnderflow => 4
  | .unassignedOpcode => 1
  | .fieldNotZero => 2
  | .roundNumber => 3
  | .noRoundKeys => 4
  | .sourceLength => 5
  | .resultTooLong => 6
  | .rawPartialBlock => 7

/-- Both STATUS fields a command overwrites (R34). -/
def State.withStatus (s : State) (code info : BitVec 4) : State :=
  { s with errCode := code, errInfo := info }

/-- A Bool as one bit. -/
def bitOf (b : Bool) : BitVec 1 := BitVec.ofBool b

/-- STATUS as a read returns it: ERRCODE in [3:0], ERRINFO in [7:4], KVALID in [8], zeros above (R34). -/
def State.statusWord (s : State) : Word :=
  s.errCode.setWidth 32 ||| (s.errInfo.setWidth 32 <<< 4) ||| ((bitOf s.kvalid).setWidth 32 <<< 8)

/-- CTRL as a read returns it: PADCHK in [0], zeros above (R35). -/
def State.ctrlWord (s : State) : Word := (bitOf s.padchk).setWidth 32

/-- A write of CTRL: `PADCHK <- v[0]`; the other bits of `v` are ignored (R35). -/
def State.writeCtrl (s : State) (v : Word) : State := { s with padchk := v.getLsbD 0 }

end Sys2Proof.Machine
end

