-- ==== Sys2Proof/Machine/Operands.lean ====
section
/-! DEFINITION. The forms of the data a command takes from the state: bytes of a 4-byte group, the State and the
block and their byte order (R54, R140, R141), round keys (R126), and the three capacities (R7). -/

namespace Sys2Proof

/-- Byte `j` of a 4-byte group: `W[i][j]` of a round-key word, or row `j` of a column (R24, R27). -/
def Quad.get (q : Quad) : Fin 4 → Byte
  | 0 => q.b0
  | 1 => q.b1
  | 2 => q.b2
  | 3 => q.b3

/-- The group whose byte `j` is `f j`. -/
def Quad.ofFn (f : Fin 4 → Byte) : Quad := ⟨f 0, f 1, f 2, f 3⟩

/-- The bytes of a group, byte 0 first. -/
def Quad.toList (q : Quad) : List Byte := [q.b0, q.b1, q.b2, q.b3]

/-- Each byte of a group put through `f`. -/
def Quad.map (f : Byte → Byte) (q : Quad) : Quad := ⟨f q.b0, f q.b1, f q.b2, f q.b3⟩

/-- The XOR of two groups, bytewise (R120). -/
def Quad.xor (p q : Quad) : Quad := ⟨p.b0 ^^^ q.b0, p.b1 ^^^ q.b1, p.b2 ^^^ q.b2, p.b3 ^^^ q.b3⟩

/-- Column `c` of a State (R141). -/
def Block.col (x : Block) : Fin 4 → Quad
  | 0 => x.c0
  | 1 => x.c1
  | 2 => x.c2
  | 3 => x.c3

/-- `S[r][c]`: the State byte of row `r` and column `c` (R10, R27). -/
def Block.at (x : Block) (r c : Fin 4) : Byte := (x.col c).get r

/-- The State whose byte of row `r` and column `c` is `f r c`. -/
def Block.ofRowCol (f : Fin 4 → Fin 4 → Byte) : Block :=
  ⟨Quad.ofFn (f · 0), Quad.ofFn (f · 1), Quad.ofFn (f · 2), Quad.ofFn (f · 3)⟩

/-- The row of byte `i` of a block: `i mod 4` (R141). -/
def rowOf (i : Fin 16) : Fin 4 := ⟨i.val % 4, Nat.mod_lt _ (by decide)⟩

/-- The column of byte `i` of a block: `i div 4` (R141). -/
def colOf (i : Fin 16) : Fin 4 := ⟨i.val / 4, by omega⟩

/-- Byte `i` of a block, which is `S[i mod 4][i div 4]` of the State it fills (R54(a), R141). -/
def Block.get (x : Block) (i : Fin 16) : Byte := x.at (rowOf i) (colOf i)

/-- The block with byte `i` replaced by `v`. -/
def Block.set (x : Block) (i : Fin 16) (v : Byte) : Block :=
  Block.ofRowCol fun r c => if r = rowOf i ∧ c = colOf i then v else x.at r c

/-- The 16 bytes of a block, byte 0 first: `store(S)` of R141. -/
def Block.toList (x : Block) : List Byte :=
  x.c0.toList ++ x.c1.toList ++ x.c2.toList ++ x.c3.toList

/-- The block of the first 16 bytes of a sequence: `load(b)` of R141. -/
def Block.ofList (bs : List Byte) : Block :=
  Block.ofRowCol fun r c => bs.getD (4 * c.val + r.val) 0

/-- Each byte of a State put through `f`. -/
def Block.map (f : Byte → Byte) (x : Block) : Block :=
  ⟨x.c0.map f, x.c1.map f, x.c2.map f, x.c3.map f⟩

/-- Each column of a State put through `f`. -/
def Block.mapCols (f : Quad → Quad) (x : Block) : Block := ⟨f x.c0, f x.c1, f x.c2, f x.c3⟩

end Sys2Proof

namespace Sys2Proof.Machine

/-- Round key `r`: the four words `W[4r]` to `W[4r+3]`, word `4r + c` being column `c` (R24, R126, R147).
Beyond the words given it is zero, which no command reaches (DEDUCED, log entry 15). -/
def roundKey (w : List Quad) (r : Nat) : Block :=
  ⟨w.getD (4 * r) .zero, w.getD (4 * r + 1) .zero, w.getD (4 * r + 2) .zero, w.getD (4 * r + 3) .zero⟩

/-- KEYLEN holds one of the three legal lengths (R23, R121, R221). -/
def legalKeyLength (n : Nat) : Bool := n == 16 || n == 24 || n == 32

/-- `RAW_CAP = 16 * NBLK_MAX` (R7). -/
def rawCap (nblkMax : Nat) : Nat := 16 * nblkMax

/-- `MSG_CAP = RAW_CAP` (R7). -/
def msgCap (nblkMax : Nat) : Nat := rawCap nblkMax

/-- `FRAME_CAP = 4 * ((RAW_CAP + 2) div 3)` (R7). -/
def frameCap (nblkMax : Nat) : Nat := 4 * ((rawCap nblkMax + 2) / 3)

end Sys2Proof.Machine
end

