-- ==== Sys2Proof/Machine/Ops.lean ====
section
/-! DEFINITION. The named operations over the byte buffers and the state: reading and writing a buffer (R30 to R32),
ending a command (R89), and raising an error, which is all the exception entry this core has (R226). There is no
return from an error: no handler runs, no state is saved, and the next command overwrites STATUS (R228). -/

namespace Sys2Proof.Machine

/-- What a cell that the list does not name holds: the reset contents, 0x00 (R41). -/
def Memory.unlisted : Byte := 0

/-- The byte at index `i` of a buffer. -/
def Memory.read (m : Memory) (i : Nat) : Byte :=
  match m with
  | [] => Memory.unlisted
  | (k, v) :: rest => if k = i then v else Memory.read rest i

/-- The buffer with the byte at index `i` replaced by `v`, in canonical form. -/
def Memory.write (m : Memory) (i : Nat) (v : Byte) : Memory :=
  match m with
  | [] => if v = Memory.unlisted then [] else [(i, v)]
  | (k, u) :: rest =>
    if i < k then (if v = Memory.unlisted then (k, u) :: rest else (i, v) :: (k, u) :: rest)
    else if i = k then (if v = Memory.unlisted then rest else (i, v) :: rest)
    else (k, u) :: Memory.write rest i v

/-- The indices rise strictly from above `low`, and no cell holds what an unlisted cell holds. -/
def Memory.wfFrom (low : Nat) : Memory → Bool
  | [] => true
  | (k, v) :: rest => decide (low ≤ k) && v != Memory.unlisted && Memory.wfFrom (k + 1) rest

/-- The canonical form: strictly rising indices and no cell that holds the unlisted value. -/
def Memory.wf (m : Memory) : Bool := Memory.wfFrom 0 m

/-- Every listed cell lies below the capacity. -/
def Memory.below (cap : Nat) (m : Memory) : Bool := m.all fun cell => decide (cell.1 < cap)

/-- `B[0..n)`: the first `n` bytes of a buffer (R9). -/
def Memory.take (m : Memory) (n : Nat) : List Byte := (List.range n).map (Memory.read m)

/-- The buffer after `B[i..i + len) <- bs`; every other byte is unchanged. -/
def Memory.store (m : Memory) (i : Nat) : List Byte → Memory
  | [] => m
  | b :: bs => Memory.store (Memory.write m i b) (i + 1) bs

/-- `KEY[0..n)` (R22). -/
def State.keyBytes (s : State) (n : Nat) : List Byte := s.key.toList.take n

/-- `MSG[0..MSGLEN)` (R30). -/
def State.message (s : State) : List Byte := s.msg.take s.msgLen.toNat

/-- `RAW[0..RAWLEN)` (R31). -/
def State.rawBytes (s : State) : List Byte := s.raw.take s.rawLen.toNat

/-- `FRAME[0..FRAMELEN)` (R32). -/
def State.frameText (s : State) : List Byte := s.frame.take s.frameLen.toNat

/-- `MSG[0..n) <- x ; MSGLEN <- n`, with `n = len(x)` (R30). -/
def State.setMessage (s : State) (x : List Byte) : State :=
  { s with msg := s.msg.store 0 x, msgLen := BitVec.ofNat 32 x.length }

/-- `RAW[0..n) <- x ; RAWLEN <- n`, with `n = len(x)` (R31). -/
def State.setRaw (s : State) (x : List Byte) : State :=
  { s with raw := s.raw.store 0 x, rawLen := BitVec.ofNat 32 x.length }

/-- `FRAME[0..n) <- x ; FRAMELEN <- n`, with `n = len(x)` (R32). -/
def State.setFrame (s : State) (x : List Byte) : State :=
  { s with frame := s.frame.store 0 x, frameLen := BitVec.ofNat 32 x.length }

/-- `S <- all bytes 0x00`, which every composite command does when it succeeds (R27). -/
def State.zeroiseState (s : State) : State := { s with cipherState := Block.zero }

/-- Raising an error: the command's changes are discarded, and only ERRCODE and ERRINFO are written (R226). -/
def State.raise (s : State) (e : CommandFailure) : State := s.withStatus e.code e.info

/-- The execution wrapper (R11, R89, R226): a command's writes commit together and STATUS reports success, or it raises
its one error. `s` is the state before the command. -/
def State.complete (s : State) (r : Except CommandFailure State) : Host.Outcome State Fault Refusal :=
  match r with
  | .ok t => .next (t.withStatus 0 0)
  | .error e => .next (s.raise e)

end Sys2Proof.Machine
end

