-- ==== Sys2Proof/Machine/Base64.lean ====
section
/-! DEFINITION. The Base64 frame buffer and the commands B64ENC and B64DEC (44_padding_mode_wrapper.md section 4). -/

namespace Sys2Proof.Machine

/-- The padding character `=` (R193). -/
def b64Pad : Byte := 0x3d

/-- `ENC[v]`: the character code of a 6-bit value (R193). -/
def b64Char (v : BitVec 6) : Byte :=
  if v.toNat ≤ 25 then BitVec.ofNat 8 (0x41 + v.toNat)
  else if v.toNat ≤ 51 then BitVec.ofNat 8 (0x61 + (v.toNat - 26))
  else if v.toNat ≤ 61 then BitVec.ofNat 8 (0x30 + (v.toNat - 52))
  else if v.toNat = 62 then 0x2b
  else 0x2f

/-- `DEC[c]`: the value whose character is `c`, for a character of the alphabet (R193). -/
def b64Value (c : Byte) : Option (BitVec 6) :=
  if 0x41 ≤ c.toNat ∧ c.toNat ≤ 0x5a then some (BitVec.ofNat 6 (c.toNat - 0x41))
  else if 0x61 ≤ c.toNat ∧ c.toNat ≤ 0x7a then some (BitVec.ofNat 6 (c.toNat - 0x61 + 26))
  else if 0x30 ≤ c.toNat ∧ c.toNat ≤ 0x39 then some (BitVec.ofNat 6 (c.toNat - 0x30 + 52))
  else if c.toNat = 0x2b then some 62
  else if c.toNat = 0x2f then some 63
  else none

/-- The character is in the alphabet; `=` is not (R193). -/
def inAlphabet (c : Byte) : Bool := (b64Value c).isSome

/-- `d_j`: `DEC[c]`, taken as 0 where `c` is `=` (R197). -/
def b64Digit (c : Byte) : BitVec 6 := (b64Value c).getD 0

/-- The four characters of a 24-bit value (R195). -/
def b64Group (v : BitVec 24) : List Byte :=
  [b64Char (v.extractLsb' 18 6), b64Char (v.extractLsb' 12 6), b64Char (v.extractLsb' 6 6), b64Char (v.extractLsb' 0 6)]

/-- `b64enc(x)` (R195): three bytes into 24 bits, first byte most significant, and the last one or two bytes with
zero bits below them. -/
def b64enc : List Byte → List Byte
  | x0 :: x1 :: x2 :: rest => b64Group (x0 ++ x1 ++ x2) ++ b64enc rest
  | [x0, x1] => (b64Group (x0 ++ x1 ++ (0 : Byte))).take 3 ++ [b64Pad]
  | [x0] => (b64Group (x0 ++ (0 : Byte) ++ (0 : Byte))).take 2 ++ [b64Pad, b64Pad]
  | [] => []

/-- `npad` when the shape of a non-empty frame is legal (R197): all characters but the last two are in the alphabet,
and the last two are two of the alphabet, one and `=`, or `=` twice. -/
def framePadding (f : List Byte) : Option Nat :=
  if (f.take (f.length - 2)).all inAlphabet then
    match f.drop (f.length - 2) with
    | [y, z] =>
      if inAlphabet y && inAlphabet z then some 0
      else if inAlphabet y && z == b64Pad then some 1
      else if y == b64Pad && z == b64Pad then some 2
      else none
    | _ => none
  else none

/-- The bits that the padding discards are zero (R197): the low two of `DEC[f[L-2]]` for one padding character, the
low four of `DEC[f[L-3]]` for two. -/
def discardedBitsZero (f : List Byte) (npad : Nat) : Bool :=
  match npad with
  | 1 => (b64Digit (f.getD (f.length - 2) 0)).extractLsb' 0 2 == 0
  | 2 => (b64Digit (f.getD (f.length - 3) 0)).extractLsb' 0 4 == 0
  | _ => true

/-- The three bytes of a 24-bit value (R197). -/
def bytesOfGroup (v : BitVec 24) : List Byte := [v.extractLsb' 16 8, v.extractLsb' 8 8, v.extractLsb' 0 8]

/-- Each group of four characters as three bytes (R197). -/
def decodeGroups : List Byte → List Byte
  | f0 :: f1 :: f2 :: f3 :: rest =>
    bytesOfGroup (b64Digit f0 ++ b64Digit f1 ++ b64Digit f2 ++ b64Digit f3) ++ decodeGroups rest
  | _ => []

/-- `b64dec(f)`: EncodingError causes 1, 2 and 3 in that order, or the decoded bytes (R197). -/
def b64dec (f : List Byte) : Except CommandFailure (List Byte) :=
  if f.length % 4 ≠ 0 then .error .frameLength
  else if f.length = 0 then .ok []
  else match framePadding f with
    | none => .error .frameCharacter
    | some npad =>
      if discardedBitsZero f npad then .ok ((decodeGroups f).take (3 * (f.length / 4) - npad))
      else .error .frameDiscardedBits

/-- B64ENC (R196). -/
def execB64enc (s : State) : Host.Outcome State Fault Refusal :=
  s.complete <|
    if rawCap s.nblkMax < s.rawLen.toNat then .error .sourceLength
    else .ok (s.setFrame (b64enc s.rawBytes))

/-- B64DEC (R198). -/
def execB64dec (s : State) : Host.Outcome State Fault Refusal :=
  s.complete <|
    if frameCap s.nblkMax < s.frameLen.toNat then .error .sourceLength
    else match b64dec s.frameText with
      | .error e => .error e
      | .ok x => if rawCap s.nblkMax < x.length then .error .resultTooLong else .ok (s.setRaw x)

end Sys2Proof.Machine
end

