-- ==== Sys2Proof/Machine/GaloisField.lean ====
section
/-! DEFINITION. The GF(2^8) multiplier and GFMUL (40_gf_arithmetic.md). -/

namespace Sys2Proof.Machine

/-- The reduction polynomial `x^8+x^4+x^3+x+1` (R100). -/
def reductionPolynomial : BitVec 9 := 0x11b

/-- The running `a` shifted left once and reduced when the shift overflows into bit 8 (R100). -/
def gmulShift (aa : BitVec 9) : BitVec 9 :=
  if (aa <<< 1).getLsbD 8 then (aa <<< 1) ^^^ reductionPolynomial else aa <<< 1

/-- `n` iterations of the loop of R100, with product `p`, running `aa` and remaining multiplier bits `bb`. -/
def gmulLoop : Nat → Byte → BitVec 9 → Byte → Byte
  | 0, p, _, _ => p
  | n + 1, p, aa, bb =>
    gmulLoop n (if bb.getLsbD 0 then p ^^^ aa.setWidth 8 else p) (gmulShift aa) (bb >>> 1)

/-- `gmul(a, b)`: the product in GF(2^8), by exactly 8 iterations, least significant bit of `b` first (R100). -/
def gmul (a b : Byte) : Byte := gmulLoop 8 0 (a.setWidth 9) b

/-- GFMUL a, b: `RESULT <- zext_32(gmul(a, b))` (R101). -/
def execGfmul (a b : Byte) (s : State) : Host.Outcome State Fault Refusal :=
  s.complete (.ok { s with result := (gmul a b).setWidth 32 })

end Sys2Proof.Machine
end

