-- ==== Sys2Proof/Machine/KeySchedule.lean ====
section
/-! DEFINITION. The key-schedule expander and KEYEXP (42_key_schedule.md). -/

namespace Sys2Proof.Machine

/-- `RotWord(t)`: the word rotated left by one byte (R120). -/
def rotWord (t : Quad) : Quad := ⟨t.b1, t.b2, t.b3, t.b0⟩

/-- `SubWord(t)`: each byte through the S-box (R120). -/
def subWord (t : Quad) : Quad := t.map sbox

/-- What `w[i-1]` becomes before it is XORed with `w[i-Nk]` (R122). -/
def scheduleTerm (nk i : Nat) (t : Quad) : Quad :=
  if i % nk = 0 then (subWord (rotWord t)).xor ⟨rcon (i / nk - 1), 0, 0, 0⟩
  else if 6 < nk ∧ i % nk = 4 then subWord t
  else t

/-- `w[i]` from the words before it (R122). -/
def scheduleWord (nk i : Nat) (w : List Quad) : Quad :=
  (scheduleTerm nk i (w.getD (i - 1) .zero)).xor (w.getD (i - nk) .zero)

/-- `w[0]` to `w[Nk-1]`: the key itself, sliced in 4-byte groups (R122). -/
def keyWords (k : List Byte) (nk : Nat) : List Quad :=
  (List.range nk).map fun i => ⟨k.getD (4 * i) 0, k.getD (4 * i + 1) 0, k.getD (4 * i + 2) 0, k.getD (4 * i + 3) 0⟩

/-- The next `n` words appended in order to the words `w[0]` to `w[i-1]`, where `i = len(w)` (R122). -/
def extendSchedule (nk : Nat) : Nat → List Quad → List Quad
  | 0, w => w
  | n + 1, w => extendSchedule nk n (w ++ [scheduleWord nk w.length w])

/-- What key expansion returns: `Nk`, `Nr` and the round-key words (R122). -/
structure KeySchedule where
  nk : Nat
  nr : Nat
  words : List Quad
  deriving DecidableEq, Repr

/-- `expandKey(k, n)` for a key `k` of `n` bytes, `n` one of 16, 24, 32 (R122): `Nk = n div 4`, `Nr = Nk + 6` and
`4*(Nr+1)` words, of which the first `Nk` are the key. -/
def expandKey (k : List Byte) (n : Nat) : KeySchedule where
  nk := n / 4
  nr := n / 4 + 6
  words := extendSchedule (n / 4) (4 * (n / 4 + 7) - n / 4) (keyWords k (n / 4))

/-- The 60 words of W from the words of a schedule, every unused word zero (R24, R121). -/
def roundKeyMemory (words : List Quad) : Vector Quad 60 :=
  ⟨(List.ofFn fun i : Fin 60 => words.getD i.val .zero).toArray, by simp⟩

/-- The schedule of the current key, `expandKey(KEY[0..KEYLEN), KEYLEN)` (R121). -/
def State.schedule (s : State) : KeySchedule := expandKey (s.keyBytes s.keyLen.toNat) s.keyLen.toNat

/-- `W`, `NK`, `NR` and `KVALID` as key expansion commits them (R121). -/
def State.commitSchedule (s : State) (ks : KeySchedule) : State :=
  { s with w := roundKeyMemory ks.words, nk := BitVec.ofNat 32 ks.nk, nr := BitVec.ofNat 32 ks.nr, kvalid := true }

/-- KEYEXP (R121). -/
def execKeyexp (s : State) : Host.Outcome State Fault Refusal :=
  s.complete <|
    if legalKeyLength s.keyLen.toNat then .ok (s.commitSchedule s.schedule)
    else .error .keyLength

end Sys2Proof.Machine
end

