-- ==== Sys2Proof/Machine/BlockTransform.lean ====
section
/-! DEFINITION. The round primitives, the single-block transforms and their commands (43_block_transform.md). -/

namespace Sys2Proof.Machine

/-- SubBytes (R144). -/
def subBytes (x : Block) : Block := x.map sbox

/-- InvSubBytes (R148). -/
def invSubBytes (x : Block) : Block := x.map invSbox

/-- ShiftRows: row `r` rotated left by `r` positions (R145). `Fin 4` addition is modulo 4. -/
def shiftRows (x : Block) : Block := Block.ofRowCol fun r c => x.at r (c + r)

/-- InvShiftRows: row `r` rotated right by `r` positions (R149). `Fin 4` subtraction is modulo 4. -/
def invShiftRows (x : Block) : Block := Block.ofRowCol fun r c => x.at r (c - r)

/-- One column of MixColumns (R146). -/
def mixColumn (a : Quad) : Quad where
  b0 := gmul 2 a.b0 ^^^ gmul 3 a.b1 ^^^ a.b2 ^^^ a.b3
  b1 := a.b0 ^^^ gmul 2 a.b1 ^^^ gmul 3 a.b2 ^^^ a.b3
  b2 := a.b0 ^^^ a.b1 ^^^ gmul 2 a.b2 ^^^ gmul 3 a.b3
  b3 := gmul 3 a.b0 ^^^ a.b1 ^^^ a.b2 ^^^ gmul 2 a.b3

/-- One column of InvMixColumns: the matrix `IM` of R150 times the column. -/
def invMixColumn (a : Quad) : Quad where
  b0 := gmul 14 a.b0 ^^^ gmul 11 a.b1 ^^^ gmul 13 a.b2 ^^^ gmul 9 a.b3
  b1 := gmul 9 a.b0 ^^^ gmul 14 a.b1 ^^^ gmul 11 a.b2 ^^^ gmul 13 a.b3
  b2 := gmul 13 a.b0 ^^^ gmul 9 a.b1 ^^^ gmul 14 a.b2 ^^^ gmul 11 a.b3
  b3 := gmul 11 a.b0 ^^^ gmul 13 a.b1 ^^^ gmul 9 a.b2 ^^^ gmul 14 a.b3

/-- MixColumns (R146). -/
def mixColumns (x : Block) : Block := x.mapCols mixColumn

/-- InvMixColumns (R150). -/
def invMixColumns (x : Block) : Block := x.mapCols invMixColumn

/-- AddRoundKey with round key `k`: word `c` of the key into column `c`, bytewise (R147). -/
def addRoundKey (k x : Block) : Block := ⟨x.c0.xor k.c0, x.c1.xor k.c1, x.c2.xor k.c2, x.c3.xor k.c3⟩

/-- One middle round of encryption, with round key `r` (R151). -/
def encryptRound (w : List Quad) (r : Nat) (x : Block) : Block :=
  addRoundKey (roundKey w r) (mixColumns (shiftRows (subBytes x)))

/-- The middle rounds 1 to `n` of encryption, in rising order (R151). -/
def encryptRounds (w : List Quad) : Nat → Block → Block
  | 0, x => x
  | n + 1, x => encryptRound w (n + 1) (encryptRounds w n x)

/-- `encryptBlock(b, W, Nr)` (R151): round 0, rounds 1 to `Nr - 1`, and the final round without MixColumns. -/
def encryptBlock (w : List Quad) (nr : Nat) (b : Block) : Block :=
  addRoundKey (roundKey w nr) (shiftRows (subBytes (encryptRounds w (nr - 1) (addRoundKey (roundKey w 0) b))))

/-- One middle round of decryption, with round key `r` (R152). -/
def decryptRound (w : List Quad) (r : Nat) (x : Block) : Block :=
  invMixColumns (addRoundKey (roundKey w r) (invSubBytes (invShiftRows x)))

/-- The middle rounds `n` down to 1 of decryption (R152). -/
def decryptRounds (w : List Quad) : Nat → Block → Block
  | 0, x => x
  | n + 1, x => decryptRounds w n (decryptRound w (n + 1) x)

/-- `decryptBlock(b, W, Nr)` (R152): round `Nr`'s key, rounds `Nr - 1` down to 1, and round 0. -/
def decryptBlock (w : List Quad) (nr : Nat) (b : Block) : Block :=
  addRoundKey (roundKey w 0) (invSubBytes (invShiftRows (decryptRounds w (nr - 1) (addRoundKey (roundKey w nr) b))))

/-- LDSTATE: `S <- load(BLK)` (R142). -/
def execLdstate (s : State) : Host.Outcome State Fault Refusal :=
  s.complete (.ok { s with cipherState := s.blk })

/-- STSTATE: `BLK <- store(S)` (R143). -/
def execStstate (s : State) : Host.Outcome State Fault Refusal :=
  s.complete (.ok { s with blk := s.cipherState })

/-- A primitive that puts the State through `f` and cannot fail (R144 to R146, R148 to R150). -/
def State.transform (s : State) (f : Block → Block) : Host.Outcome State Fault Refusal :=
  s.complete (.ok { s with cipherState := f s.cipherState })

/-- SUBBYTES (R144). -/
def execSubbytes (s : State) : Host.Outcome State Fault Refusal := s.transform subBytes

/-- SHIFTROWS (R145). -/
def execShiftrows (s : State) : Host.Outcome State Fault Refusal := s.transform shiftRows

/-- MIXCOLUMNS (R146). -/
def execMixcolumns (s : State) : Host.Outcome State Fault Refusal := s.transform mixColumns

/-- INVSUBBYTES (R148). -/
def execInvsubbytes (s : State) : Host.Outcome State Fault Refusal := s.transform invSubBytes

/-- INVSHIFTROWS (R149). -/
def execInvshiftrows (s : State) : Host.Outcome State Fault Refusal := s.transform invShiftRows

/-- INVMIXCOLUMNS (R150). -/
def execInvmixcolumns (s : State) : Host.Outcome State Fault Refusal := s.transform invMixColumns

/-- ADDROUNDKEY r: CommandError 4 before CommandError 3 (R147). -/
def execAddroundkey (r : Byte) (s : State) : Host.Outcome State Fault Refusal :=
  s.complete <|
    if s.kvalid = false then .error .noRoundKeys
    else if s.nr.toNat < r.toNat then .error .roundNumber
    else .ok { s with cipherState := addRoundKey (roundKey s.w.toList r.toNat) s.cipherState }

/-- A command that puts BLK through a single-block transform and zeroises S (R153, R154). -/
def State.blockCommand (s : State) (f : List Quad → Nat → Block → Block) : Host.Outcome State Fault Refusal :=
  s.complete <|
    if s.kvalid = false then .error .noRoundKeys
    else .ok ({ s with blk := f s.w.toList s.nr.toNat s.blk } : State).zeroiseState

/-- ENCBLK (R153). -/
def execEncblk (s : State) : Host.Outcome State Fault Refusal := s.blockCommand encryptBlock

/-- DECBLK (R154). -/
def execDecblk (s : State) : Host.Outcome State Fault Refusal := s.blockCommand decryptBlock

end Sys2Proof.Machine
end

