-- ==== Sys2Proof/Machine/Ecb.lean ====
section
/-! DEFINITION. The ECB block sequencer and the commands ECBENC and ECBDEC (44_padding_mode_wrapper.md section 3). -/

namespace Sys2Proof.Machine

/-- Each consecutive 16-byte block of a sequence put through `f`, in index order, and the results concatenated: block
`k` of the output is `f` of `x[16k..16k+16)` (R189, R192). -/
def ecbMap (f : Block → Block) (x : List Byte) : List Byte :=
  (List.range (x.length / 16)).flatMap fun k => (f (Block.ofList ((x.drop (16 * k)).take 16))).toList

/-- `ecbEncrypt(x, W, Nr)` (R189). -/
def ecbEncrypt (w : List Quad) (nr : Nat) (x : List Byte) : List Byte := ecbMap (encryptBlock w nr) x

/-- `ecbDecrypt(x, W, Nr)` (R189). -/
def ecbDecrypt (w : List Quad) (nr : Nat) (x : List Byte) : List Byte := ecbMap (decryptBlock w nr) x

/-- A command that puts RAW through an ECB sequence in place, leaves RAWLEN, and zeroises S: CommandError 4, then 5, then
7 (R190, R191). -/
def State.ecbCommand (s : State) (f : List Quad → Nat → List Byte → List Byte) : Host.Outcome State Fault Refusal :=
  s.complete <|
    if s.kvalid = false then .error .noRoundKeys
    else if rawCap s.nblkMax < s.rawLen.toNat then .error .sourceLength
    else if s.rawLen.toNat % 16 ≠ 0 then .error .rawPartialBlock
    else .ok ({ s with raw := s.raw.store 0 (f s.w.toList s.nr.toNat s.rawBytes) } : State).zeroiseState

/-- ECBENC (R190). -/
def execEcbenc (s : State) : Host.Outcome State Fault Refusal := s.ecbCommand ecbEncrypt

/-- ECBDEC (R191). -/
def execEcbdec (s : State) : Host.Outcome State Fault Refusal := s.ecbCommand ecbDecrypt

end Sys2Proof.Machine
end

