-- ==== Sys2Proof/Machine/Padding.lean ====
section
/-! DEFINITION. PKCS#7 padding and the commands PAD and UNPAD (44_padding_mode_wrapper.md section 2). -/

namespace Sys2Proof.Machine

/-- `padLength` of a message of `len` bytes: `16 - (len mod 16)` (R181). -/
def padLength (len : Nat) : Nat := 16 - len % 16

/-- `pad(m)`: `m` followed by `p` bytes each of value `p` (R181). -/
def pad (m : List Byte) : List Byte :=
  m ++ List.replicate (padLength m.length) (BitVec.ofNat 8 (padLength m.length))

/-- The length of a padded message of `len` bytes, `16 * (len div 16 + 1)` (R182, R186). -/
def paddedLength (len : Nat) : Nat := 16 * (len / 16 + 1)

/-- `unpad(x, strict)` (R187). -/
def unpad (x : List Byte) (strict : Bool) : Except CommandFailure (List Byte) :=
  match x.getLast? with
  | none => .error .paddingEmpty
  | some p =>
    if strict && (p.toNat == 0 || decide (16 < p.toNat)) then .error .paddingRange
    else if x.length < p.toNat then .error .paddingUnderflow
    else if strict && (x.drop (x.length - p.toNat)).any (· != p) then .error .paddingBytes
    else .ok (x.take (x.length - p.toNat))

/-- PAD (R186). -/
def execPad (s : State) : Host.Outcome State Fault Refusal :=
  s.complete <|
    if msgCap s.nblkMax < s.msgLen.toNat then .error .sourceLength
    else if rawCap s.nblkMax < paddedLength s.msgLen.toNat then .error .resultTooLong
    else .ok (s.setRaw (pad s.message))

/-- UNPAD (R188). -/
def execUnpad (s : State) : Host.Outcome State Fault Refusal :=
  s.complete <|
    if rawCap s.nblkMax < s.rawLen.toNat then .error .sourceLength
    else match unpad s.rawBytes s.padchk with
      | .error e => .error e
      | .ok m => .ok (s.setMessage m)

end Sys2Proof.Machine
end

