-- ==== Sys2Proof/Machine/Message.lean ====
section
/-! DEFINITION. The whole-message commands ENCRYPT and DECRYPT (44_padding_mode_wrapper.md section 5). -/

namespace Sys2Proof.Machine

/-- ENCRYPT: the key length first, then CommandError 5 and 6; the key is expanded once, and every result commits
together (R125, R200). -/
def execEncrypt (s : State) : Host.Outcome State Fault Refusal :=
  s.complete <|
    if !legalKeyLength s.keyLen.toNat then .error .keyLength
    else if msgCap s.nblkMax < s.msgLen.toNat then .error .sourceLength
    else if rawCap s.nblkMax < paddedLength s.msgLen.toNat then .error .resultTooLong
    else
      let ks := s.schedule
      let y := ecbEncrypt ks.words ks.nr (pad s.message)
      .ok (((s.commitSchedule ks).setRaw y).setFrame (b64enc y)).zeroiseState

/-- DECRYPT: the key length, CommandError 5, EncodingError 1 to 4, then the decryption and PaddingError 1, 2, 4, 3;
every result commits together (R125, R201). The check against RAW_CAP stands where R201 has it, and cannot fire. -/
def execDecrypt (s : State) : Host.Outcome State Fault Refusal :=
  s.complete <|
    if !legalKeyLength s.keyLen.toNat then .error .keyLength
    else if frameCap s.nblkMax < s.frameLen.toNat then .error .sourceLength
    else match b64dec s.frameText with
      | .error e => .error e
      | .ok y =>
        if y.length % 16 ≠ 0 then .error .framePartialBlock
        else if rawCap s.nblkMax < y.length then .error .resultTooLong
        else
          let ks := s.schedule
          let x := ecbDecrypt ks.words ks.nr y
          match unpad x s.padchk with
          | .error e => .error e
          | .ok m => .ok (((s.commitSchedule ks).setRaw x).setMessage m).zeroiseState

end Sys2Proof.Machine
end

