-- ==== Sys2Proof/Machine/Bus.lean ====
section
/-! DEFINITION. The host bus: the address map (R42, R52), reads and writes (R56, R57), bus errors (R53, R225), the
command a write of CMD executes (R33, R81), and the reset event (R250). -/

namespace Sys2Proof.Machine

/-- The offset an address of the platform decodes to: its low 22 bits (R51; DEDUCED, log entry 4). -/
def offsetOf (addr : Nat) : Nat := addr % 2 ^ Config.addressBits

/-- The eleven registers (R42). -/
inductive Register where
  | cmd
  | status
  | ctrl
  | keyLen
  | nk
  | nr
  | result
  | msgLen
  | rawLen
  | frameLen
  | nblkMax
  deriving DecidableEq, Repr

/-- The register at an offset (R42). An offset that is not a multiple of 4 is no register's (R53, R58). -/
def registerAt (offset : Nat) : Option Register :=
  match offset with
  | 0x00 => some .cmd
  | 0x04 => some .status
  | 0x08 => some .ctrl
  | 0x0c => some .keyLen
  | 0x10 => some .nk
  | 0x14 => some .nr
  | 0x18 => some .result
  | 0x1c => some .msgLen
  | 0x20 => some .rawLen
  | 0x24 => some .frameLen
  | 0x28 => some .nblkMax
  | _ => none

/-- The value a 32-bit read of a register returns; CMD reads as 0 (R33 to R36, R42, R56). -/
def State.readRegister (s : State) : Register → Word
  | .cmd => 0
  | .status => s.statusWord
  | .ctrl => s.ctrlWord
  | .keyLen => s.keyLen
  | .nk => s.nk
  | .nr => s.nr
  | .result => s.result
  | .msgLen => s.msgLen
  | .rawLen => s.rawLen
  | .frameLen => s.frameLen
  | .nblkMax => BitVec.ofNat 32 s.nblkMax

/-- A byte of the address map (R52). -/
inductive ByteCell where
  /-- `KEY[i]`. -/
  | key (i : Fin 32)
  /-- `BLK[i]`. -/
  | blk (i : Fin 16)
  /-- `S[i mod 4][i div 4]`. -/
  | cipherState (i : Fin 16)
  /-- `W[i][j]`. -/
  | roundKey (i : Fin 60) (j : Fin 4)
  /-- `SBOX[x]`. -/
  | sbox (x : Byte)
  /-- `INV_SBOX[x]`. -/
  | invSbox (x : Byte)
  /-- `RCON[j]`. -/
  | rcon (j : Fin 10)
  /-- `MSG[i]`. -/
  | msg (i : Nat)
  /-- `RAW[i]`. -/
  | raw (i : Nat)
  /-- `FRAME[i]`. -/
  | frame (i : Nat)
  deriving DecidableEq, Repr

/-- The byte at an offset, for an offset in one of the byte ranges of R52. -/
def byteCellAt (nblkMax o : Nat) : Option ByteCell :=
  if h : 0x100 ≤ o ∧ o < 0x120 then some (.key ⟨o - 0x100, by omega⟩)
  else if h : 0x120 ≤ o ∧ o < 0x130 then some (.blk ⟨o - 0x120, by omega⟩)
  else if h : 0x130 ≤ o ∧ o < 0x140 then some (.cipherState ⟨o - 0x130, by omega⟩)
  else if h : 0x200 ≤ o ∧ o < 0x2f0 then
    some (.roundKey ⟨(o - 0x200) / 4, by omega⟩ ⟨(o - 0x200) % 4, by omega⟩)
  else if 0x400 ≤ o ∧ o < 0x500 then some (.sbox (BitVec.ofNat 8 (o - 0x400)))
  else if 0x500 ≤ o ∧ o < 0x600 then some (.invSbox (BitVec.ofNat 8 (o - 0x500)))
  else if h : 0x600 ≤ o ∧ o < 0x60a then some (.rcon ⟨o - 0x600, by omega⟩)
  else if 0x100000 ≤ o ∧ o < 0x100000 + msgCap nblkMax then some (.msg (o - 0x100000))
  else if 0x200000 ≤ o ∧ o < 0x200000 + rawCap nblkMax then some (.raw (o - 0x200000))
  else if 0x300000 ≤ o ∧ o < 0x300000 + frameCap nblkMax then some (.frame (o - 0x300000))
  else none

/-- The byte stored in a cell (R52, R56). -/
def State.readCell (s : State) : ByteCell → Byte
  | .key i => s.key[i]
  | .blk i => s.blk.get i
  | .cipherState i => s.cipherState.get i
  | .roundKey i j => s.w[i].get j
  | .sbox x => sbox x
  | .invSbox x => invSbox x
  | .rcon j => rcon j
  | .msg i => s.msg.read i
  | .raw i => s.raw.read i
  | .frame i => s.frame.read i

/-- A host write of a byte cell, for a writable range; a write of KEY clears KVALID (R26, R57). `none` for W and the
ROMs, which are read-only (R53). -/
def State.writeCell (s : State) (c : ByteCell) (v : Byte) : Option State :=
  match c with
  | .key i => some { s with key := s.key.set i v, kvalid := false }
  | .blk i => some { s with blk := s.blk.set i v }
  | .cipherState i => some { s with cipherState := s.cipherState.set i v }
  | .roundKey _ _ => none
  | .sbox _ => none
  | .invSbox _ => none
  | .rcon _ => none
  | .msg i => some { s with msg := s.msg.write i v }
  | .raw i => some { s with raw := s.raw.write i v }
  | .frame i => some { s with frame := s.frame.write i v }

/-- A host write of a register other than CMD; a write of KEYLEN clears KVALID (R23, R26, R57). `none` for the
read-only registers (R53). -/
def State.writeRegister (s : State) (r : Register) (v : Word) : Option State :=
  match r with
  | .cmd => none
  | .status => none
  | .ctrl => some (s.writeCtrl v)
  | .keyLen => some { s with keyLen := v, kvalid := false }
  | .nk => none
  | .nr => none
  | .result => none
  | .msgLen => some { s with msgLen := v }
  | .rawLen => some { s with rawLen := v }
  | .frameLen => some { s with frameLen := v }
  | .nblkMax => none

/-- The CommandError an illegal command word raises (R81). -/
def failureOf : DecodeError → CommandFailure
  | .unassignedOpcode => .unassignedOpcode
  | .fieldNotZero => .fieldNotZero

/-- Executing a command word to completion (R33, R81): the command it decodes to, or the error it raises. -/
def runCommand (c : Word) (s : State) : Host.Outcome State Fault Refusal :=
  match decode c with
  | .ok i => exec i s
  | .error e => s.complete (.error (failureOf e))

/-- The bus response to a transaction; no other state changes with it. -/
def State.respond (s : State) (r : Response) : State := { s with response := r }

/-- A write the bus accepts answers OK; one it rejects answers a bus error and changes nothing (R53, R57). -/
def State.answerWrite (s : State) : Option State → State
  | some t => t.respond .okWrite
  | none => s.respond .busError

/-- The response OK once a command has finished, whatever its outcome (R57, R60, R89). -/
def answerCommand : Host.Outcome State Fault Refusal → Host.Outcome State Fault Refusal
  | .next t => .next (t.respond .okWrite)
  | .fault r => .fault r
  | .refused r => .refused r

/-- `MemRead(addr, 1)` (R56). -/
def State.memRead8 (s : State) (addr : Nat) : State :=
  match byteCellAt s.nblkMax (offsetOf addr) with
  | some c => s.respond (.okByte (s.readCell c))
  | none => s.respond .busError

/-- `MemRead(addr, 4)` (R56). -/
def State.memRead32 (s : State) (addr : Nat) : State :=
  match registerAt (offsetOf addr) with
  | some r => s.respond (.okWord (s.readRegister r))
  | none => s.respond .busError

/-- `MemWrite(addr, 1, v)` (R57). -/
def State.memWrite8 (s : State) (addr : Nat) (v : Byte) : State :=
  match byteCellAt s.nblkMax (offsetOf addr) with
  | some c => s.answerWrite (s.writeCell c v)
  | none => s.respond .busError

/-- `MemWrite(addr, 4, v)` (R57): a write of CMD executes the command word `v`. -/
def State.memWrite32 (s : State) (addr : Nat) (v : Word) : Host.Outcome State Fault Refusal :=
  match registerAt (offsetOf addr) with
  | some .cmd => answerCommand (runCommand v s)
  | some r => .next (s.answerWrite (s.writeRegister r v))
  | none => .next (s.respond .busError)

/-- The reset event: every piece of state at its reset value (R41, R250). The parameter NBLK_MAX and what the host will
issue next are not the core's to reset (DEDUCED, log entries 7 and 12). -/
def State.resetEvent (s : State) : State := { State.resetWith s.nblkMax with pending := s.pending }

/-- One event of the host, taken whole before the next (R59 to R61). -/
def transact (e : HostEvent) (s : State) : Host.Outcome State Fault Refusal :=
  match e with
  | .memRead8 addr => .next (s.memRead8 addr)
  | .memRead32 addr => .next (s.memRead32 addr)
  | .memWrite8 addr v => .next (s.memWrite8 addr v)
  | .memWrite32 addr v => s.memWrite32 addr v
  | .reset => .next s.resetEvent

/-- The core takes the host's next event; with none it waits, and does nothing on its own (R20, R250; the queue is a
DESIGN CHOICE, log entry 2). -/
def takeEvent (s : State) : Host.Outcome State Fault Refusal :=
  match s.pending with
  | [] => .next s
  | e :: rest => transact e { s with pending := rest }

/-- The state in which the host's very next event is the write of command word `c` to CMD (R33, R57). -/
def State.withCommand (s : State) (c : Word) : State := { s with pending := .memWrite32 0x000000 c :: s.pending }

end Sys2Proof.Machine
end

