-- ==== Sys2Proof/Machine/Step.lean ====
section
/-! DEFINITION. One step of the core: the host's next bus transaction or reset, taken whole (R20, R60, R61). -/

namespace Sys2Proof.Machine

/-- One step: the next event of the host, or waiting when there is none (R20, R60, R61, R250). -/
def step (s : State) : Host.Outcome State Fault Refusal := takeEvent s

/-- `s` with the command word whose table bits are `w` as the host's next write of CMD. The core fetches nothing: a
command word is consumed at the moment it is written to CMD (R64), so this is where step takes its next command
(DESIGN CHOICE, log entry 2). -/
def State.withFetchWord (s : State) (nbits w : Nat) : State := s.withCommand (BitVec.ofNat 32 (w % 2 ^ nbits))

end Sys2Proof.Machine
end

