-- ==== Sys2Proof/Safety.lean ====
section
/-! DEFINITION. What counts as a sound state of the core, in the terms the claims use: the invariant that reset
establishes and every step keeps. -/

namespace Sys2Proof.Machine

/-- The pairs of ERRCODE and ERRINFO that STATUS can hold (R34, R221 to R224). -/
def legalStatus (code info : Nat) : Prop :=
  (code = 0 ∧ info = 0) ∨ (code = 1 ∧ info = 0) ∨ ((code = 2 ∨ code = 3) ∧ 1 ≤ info ∧ info ≤ 4)
    ∨ (code = 4 ∧ 1 ≤ info ∧ info ≤ 7)

/-- NK, NR and the part of W above the schedule: all zero before the first key expansion, and after one a legal size
with every unused word zero (R24, R25). -/
def legalRoundKeys (nk nr : Nat) (w : List Quad) : Prop :=
  (nk = 0 ∧ nr = 0 ∧ ∀ i, w.getD i .zero = .zero)
    ∨ ((nk = 4 ∨ nk = 6 ∨ nk = 8) ∧ nr = nk + 6 ∧ ∀ i, 4 * (nr + 1) ≤ i → w.getD i .zero = .zero)

/-- The invariant of the core: what the rules cited below say of it, collected (DEDUCED, log entry 6). -/
structure State.Inv (s : State) : Prop where
  /-- `NBLK_MAX` is in its range (R7). -/
  nblkMax_range : Config.nblkMaxLeast ≤ s.nblkMax ∧ s.nblkMax ≤ Config.nblkMaxGreatest
  /-- Each buffer's list of cells has the canonical form. -/
  msg_wf : s.msg.wf = true
  raw_wf : s.raw.wf = true
  frame_wf : s.frame.wf = true
  /-- No byte is stored at or above a buffer's capacity (R30 to R32). -/
  msg_below : s.msg.below (msgCap s.nblkMax) = true
  raw_below : s.raw.below (rawCap s.nblkMax) = true
  frame_below : s.frame.below (frameCap s.nblkMax) = true
  /-- Bits [31:8] of RESULT read as 0 (R29). -/
  result_byte : s.result.toNat < 256
  /-- STATUS holds one of the outcomes of R34. -/
  status_legal : legalStatus s.errCode.toNat s.errInfo.toNat
  /-- NK, NR and the unused words of W (R24, R25). -/
  round_keys_legal : legalRoundKeys s.nk.toNat s.nr.toNat s.w.toList
  /-- `KVALID = 1` means that W, NK and NR hold the expansion of the current `KEY[0..KEYLEN)` (R26). -/
  round_keys_current : s.kvalid = true →
    legalKeyLength s.keyLen.toNat = true ∧ s.w = roundKeyMemory s.schedule.words
      ∧ s.nk.toNat = s.schedule.nk ∧ s.nr.toNat = s.schedule.nr

end Sys2Proof.Machine
end

