-- ==== Sys2Proof/Certificates/Slice0/Obligations.lean ====
section
/-! DEFINITION. The statements for the provers. The helpers above them, in Sys2Proof.Claims, are written from the spec
apart from the model's own definitions where a statement compares the two. -/

namespace Sys2Proof.Claims

open Sys2Proof.Machine

/-- The commands of a list executed one after another; `none` if one does not answer a next state. -/
def runCommands : List Instr → State → Option State
  | [], s => some s
  | i :: rest, s =>
    match exec i s with
    | .next t => runCommands rest t
    | _ => none

/-- The carry-less product of two polynomials over GF(2), each a number whose bit `i` is the coefficient of `x^i`; the
second factor has degree below 9. -/
def polyMul (a b : Nat) : Nat :=
  (List.range 9).foldl (fun acc i => if b.testBit i then acc ^^^ (a <<< i) else acc) 0

/-- Word `i` of the round-key memory (R24). -/
def wordAt (s : State) (i : Nat) : Quad := s.w.toList.getD i Quad.zero

/-- Byte `i` of the key register file (R22). -/
def keyAt (s : State) (i : Nat) : Byte := s.key.toList.getD i 0

/-- The round-key word that R122 gives for index `i` from the words `w`, byte by byte. -/
def scheduleWordRule (nk i : Nat) (w : Nat → Quad) : Quad :=
  let t := w (i - 1)
  let o := w (i - nk)
  if i % nk = 0 then
    ⟨sbox t.b1 ^^^ rcon (i / nk - 1) ^^^ o.b0, sbox t.b2 ^^^ o.b1, sbox t.b3 ^^^ o.b2, sbox t.b0 ^^^ o.b3⟩
  else if nk > 6 ∧ i % nk = 4 then
    ⟨sbox t.b0 ^^^ o.b0, sbox t.b1 ^^^ o.b1, sbox t.b2 ^^^ o.b2, sbox t.b3 ^^^ o.b3⟩
  else ⟨t.b0 ^^^ o.b0, t.b1 ^^^ o.b1, t.b2 ^^^ o.b2, t.b3 ^^^ o.b3⟩

/-- The matrix `M` of R146. -/
def mixMatrix : List (List Byte) := [[2, 3, 1, 1], [1, 2, 3, 1], [1, 1, 2, 3], [3, 1, 1, 2]]

/-- The matrix `IM` of R150. -/
def invMixMatrix : List (List Byte) := [[14, 11, 13, 9], [9, 14, 11, 13], [13, 9, 14, 11], [11, 13, 9, 14]]

/-- Row `r` of a matrix times column `c` of a State, under `gmul` and XOR. -/
def matrixTimes (m : List (List Byte)) (x : Block) (r c : Fin 4) : Byte :=
  gmul ((m.getD r []).getD 0 0) (x.at 0 c) ^^^ gmul ((m.getD r []).getD 1 0) (x.at 1 c)
    ^^^ gmul ((m.getD r []).getD 2 0) (x.at 2 c) ^^^ gmul ((m.getD r []).getD 3 0) (x.at 3 c)

/-- The primitive commands of the encryption rounds 1 to `n` (R156). -/
def encryptRoundCommands (n : Nat) : List Instr :=
  (List.range n).flatMap fun k => [.subbytes, .shiftrows, .mixcolumns, .addroundkey (BitVec.ofNat 8 (k + 1))]

/-- The primitive commands that R156 says equal ENCBLK, for `nr` rounds. -/
def encryptCommands (nr : Nat) : List Instr :=
  [.ldstate, .addroundkey 0] ++ encryptRoundCommands (nr - 1)
    ++ [.subbytes, .shiftrows, .addroundkey (BitVec.ofNat 8 nr), .ststate]

/-- The primitive commands of the decryption rounds `n` down to 1 (R156). -/
def decryptRoundCommands (n : Nat) : List Instr :=
  (List.range n).reverse.flatMap fun k =>
    [.invshiftrows, .invsubbytes, .addroundkey (BitVec.ofNat 8 (k + 1)), .invmixcolumns]

/-- The primitive commands that R156 says equal DECBLK, for `nr` rounds. -/
def decryptCommands (nr : Nat) : List Instr :=
  [.ldstate, .addroundkey (BitVec.ofNat 8 nr)] ++ decryptRoundCommands (nr - 1)
    ++ [.invshiftrows, .invsubbytes, .addroundkey 0, .ststate]

/-- The bytes `B[16k..16k+16)` of a buffer as a block: byte `i` in row `i mod 4`, column `i div 4` (R141, R189). -/
def blockAt (m : Memory) (k : Nat) : Block :=
  Block.ofRowCol fun r c => m.read (16 * k + (4 * c.val + r.val))

/-- The Base64 alphabet in the order of its values (R193). -/
def alphabet : List Byte :=
  ("ABCDEFGHIJKLMNOPQRSTUVWXYZ".toList ++ "abcdefghijklmnopqrstuvwxyz".toList ++ "0123456789+/".toList).map
    fun c => BitVec.ofNat 8 c.toNat

/-- The character of a 6-bit value (R193). -/
def charOf (v : Nat) : Byte := alphabet.getD v 0

/-- The first `L - npad` characters of a text are in the alphabet and the last `npad` are `=` (R197). -/
def textShape (f : List Byte) (npad : Nat) : Prop :=
  npad ≤ 2 ∧ npad ≤ f.length ∧ (∀ i, i < f.length - npad → f.getD i 0 ∈ alphabet)
    ∧ ∀ i, f.length - npad ≤ i → i < f.length → f.getD i 0 = 0x3d

/-- The bits that the padding discards are zero (R197). -/
def discardedZero (f : List Byte) (npad : Nat) : Prop :=
  (npad = 1 → alphabet.idxOf (f.getD (f.length - 2) 0) % 4 = 0)
    ∧ (npad = 2 → alphabet.idxOf (f.getD (f.length - 3) 0) % 16 = 0)

/-- The opcode table: mask and match of each row (R82). -/
def opcodeTable : List (Word × Word) :=
  [(0xff0000ff, 0x00000001), (0xffff00ff, 0x00000025)]
    ++ ([0x10, 0x20, 0x21, 0x22, 0x23, 0x24, 0x26, 0x27, 0x28, 0x30].map fun m => (0xffffffff, m))
    ++ ([0x31, 0x40, 0x41, 0x42, 0x43, 0x44, 0x45, 0x50, 0x51].map fun m => (0xffffffff, m))

/-- The command word of each command, as R82 and R87 write it. -/
def tableWord : Instr → Word
  | .gfmul a b => 0x00000001 + (a.setWidth 32 <<< 8) + (b.setWidth 32 <<< 16)
  | .keyexp => 0x00000010
  | .ldstate => 0x00000020
  | .ststate => 0x00000021
  | .subbytes => 0x00000022
  | .shiftrows => 0x00000023
  | .mixcolumns => 0x00000024
  | .addroundkey r => 0x00000025 + (r.setWidth 32 <<< 8)
  | .invsubbytes => 0x00000026
  | .invshiftrows => 0x00000027
  | .invmixcolumns => 0x00000028
  | .encblk => 0x00000030
  | .decblk => 0x00000031
  | .pad => 0x00000040
  | .unpad => 0x00000041
  | .ecbenc => 0x00000042
  | .ecbdec => 0x00000043
  | .b64enc => 0x00000044
  | .b64dec => 0x00000045
  | .encrypt => 0x00000050
  | .decrypt => 0x00000051

/-- The errors a command can raise after it is decoded, as (ERRCODE, ERRINFO) (R227, R230). -/
def raisable : Instr → List (Nat × Nat)
  | .gfmul _ _ => []
  | .keyexp => [(1, 0)]
  | .ldstate => []
  | .ststate => []
  | .subbytes => []
  | .shiftrows => []
  | .mixcolumns => []
  | .addroundkey _ => [(4, 4), (4, 3)]
  | .invsubbytes => []
  | .invshiftrows => []
  | .invmixcolumns => []
  | .encblk => [(4, 4)]
  | .decblk => [(4, 4)]
  | .pad => [(4, 5), (4, 6)]
  | .unpad => [(4, 5), (3, 1), (3, 2), (3, 4), (3, 3)]
  | .ecbenc => [(4, 4), (4, 5), (4, 7)]
  | .ecbdec => [(4, 4), (4, 5), (4, 7)]
  | .b64enc => [(4, 5)]
  | .b64dec => [(4, 5), (2, 1), (2, 2), (2, 3), (4, 6)]
  | .encrypt => [(1, 0), (4, 5), (4, 6)]
  | .decrypt => [(1, 0), (4, 5), (2, 1), (2, 2), (2, 3), (2, 4), (3, 1), (3, 2), (3, 4), (3, 3)]

/-- The commands that expand the key (R24). -/
def expandsKey : List Instr := [.keyexp, .encrypt, .decrypt]

/-- The composite commands (R12). -/
def composite : List Instr := [.encblk, .decblk, .ecbenc, .ecbdec, .encrypt, .decrypt]

/-- The commands that need `KVALID = 1` and take no operand; ADDROUNDKEY is the fifth (R258). -/
def needsRoundKeys : List Instr := [.encblk, .decblk, .ecbenc, .ecbdec]

/-- The readable byte ranges of R52, as half-open intervals of offsets. -/
def readableRanges (nblkMax : Nat) : List (Nat × Nat) :=
  [(0x100, 0x120), (0x120, 0x130), (0x130, 0x140), (0x200, 0x2f0), (0x400, 0x500), (0x500, 0x600), (0x600, 0x60a),
   (0x100000, 0x100000 + 16 * nblkMax), (0x200000, 0x200000 + 16 * nblkMax),
   (0x300000, 0x300000 + 4 * ((16 * nblkMax + 2) / 3))]

/-- The writable byte ranges of R52. -/
def writableRanges (nblkMax : Nat) : List (Nat × Nat) :=
  [(0x100, 0x120), (0x120, 0x130), (0x130, 0x140), (0x100000, 0x100000 + 16 * nblkMax),
   (0x200000, 0x200000 + 16 * nblkMax), (0x300000, 0x300000 + 4 * ((16 * nblkMax + 2) / 3))]

/-- The offset lies in one of the ranges. -/
def inRanges (ranges : List (Nat × Nat)) (o : Nat) : Prop := ∃ r ∈ ranges, r.1 ≤ o ∧ o < r.2

/-- The byte a host read of an offset returns, if the offset is readable: through the model's own address map. -/
def byteAt (s : State) (o : Nat) : Option Byte := (byteCellAt s.nblkMax o).map s.readCell

/-- `s` after a host transaction that changed nothing but what the host has left to issue and the bus response. -/
def answered (s : State) (rest : List HostEvent) (r : Response) : State := { s with pending := rest, response := r }

end Sys2Proof.Claims

open Sys2Proof Sys2Proof.Machine Sys2Proof.Claims

/-! ## Encoding and decoding -/

/-- R82, R87: a command word decodes to a command exactly when it is that command's word. -/
def Obligations.DecodeInvertsEncode : Prop :=
  ∀ (c : Word) (i : Instr), decode c = .ok i ↔ c = encode i

/-- R87: the command word of each mnemonic is its OPC, with the operands of GFMUL and ADDROUNDKEY shifted in, and that word
decodes to the command; and the opcode table's rows select exactly the words that decode, each word at most one row
(R82). -/
def Obligations.OpcodeTableSelectsCommands : Prop :=
  (∀ i : Instr, encode i = tableWord i ∧ decode (tableWord i) = .ok i)
    ∧ (∀ c : Word, (∃ i, decode c = .ok i) ↔ ∃ row ∈ opcodeTable, c &&& row.1 = row.2)
    ∧ (∀ c : Word, ∀ p ∈ opcodeTable, ∀ q ∈ opcodeTable, c &&& p.1 = p.2 → c &&& q.1 = q.2 → p = q)
    ∧ opcodeTable.length = 21

/-- R81, R84: an illegal word raises CommandError, cause 1 when its opcode is in no row of the table and cause 2 when its
opcode is assigned and no row selects it; it changes nothing but STATUS. -/
def Obligations.IllegalWordsRaiseCommandError : Prop :=
  ∀ (c : Word) (s : State),
    ((∀ row ∈ opcodeTable, c &&& 0xff ≠ row.2 &&& 0xff) →
      runCommand c s = .next { s with errCode := 4, errInfo := 1 })
    ∧ ((∃ row ∈ opcodeTable, c &&& 0xff = row.2 &&& 0xff) → (∀ row ∈ opcodeTable, c &&& row.1 ≠ row.2) →
      runCommand c s = .next { s with errCode := 4, errInfo := 2 })

/-- Words written out from the encodings of R82, R87 and 95_test_vectors.md decode to their commands. -/
def Obligations.SampleWordsDecode : Prop :=
  decode 0x00835701 = .ok (.gfmul 0x57 0x83) ∧ decode 0x00000010 = .ok .keyexp
    ∧ decode 0x00000a25 = .ok (.addroundkey 10) ∧ decode 0x00000028 = .ok .invmixcolumns
    ∧ decode 0x00000031 = .ok .decblk ∧ decode 0x00000041 = .ok .unpad ∧ decode 0x00000045 = .ok .b64dec
    ∧ decode 0x00000051 = .ok .decrypt ∧ decode 0x00000000 = .error .unassignedOpcode
    ∧ decode 0x01000001 = .error .fieldNotZero

/-! ## The step -/

/-- R33, R57, R60, R81, R84: when the host's next event is a 32-bit write of a word to CMD, the step runs that word on the
state with the event taken from the queue, and then answers OK: the command the word decodes to, or, for an illegal
word, CommandError 1 or 2, with nothing else changed. The queue and the answer are the model's own fields (log entries 2
and 3). -/
def Obligations.StepRunsDecodedCommand : Prop :=
  ∀ (s : State) (rest : List HostEvent) (addr : Nat) (c : Word),
    s.pending = .memWrite32 addr c :: rest → addr % 2 ^ 22 = 0 →
    let s' : State := { s with pending := rest }
    (∀ t, runCommand c s' = .next t → step s = .next { t with response := .okWrite })
    ∧ (∀ i t, decode c = .ok i → exec i s' = .next t → step s = .next { t with response := .okWrite })
    ∧ (decode c = .error .unassignedOpcode →
      step s = .next { s' with errCode := 4, errInfo := 1, response := .okWrite })
    ∧ (decode c = .error .fieldNotZero →
      step s = .next { s' with errCode := 4, errInfo := 2, response := .okWrite })

/-- R60, R250, R262, with the host's queue of log entry 2: every command terminates and every transaction completes, so the
core cannot hang: exec and step answer a next state, whatever the state; and with nothing issued by the host the core
waits and does nothing. -/
def Obligations.EveryCommandAndStepCompletes : Prop :=
  (∀ (i : Instr) (s : State), ∃ t, exec i s = .next t) ∧ (∀ s : State, ∃ t, step s = .next t)
    ∧ ∀ s : State, s.pending = [] → step s = .next s

/-! ## Reset and the invariant -/

/-- A core of any legal NBLK_MAX meets the invariant after reset (R7, R41), `State.reset` with the NBLK_MAX of log entry 1. -/
def Obligations.ResetMeetsInvariant : Prop :=
  State.Inv State.reset ∧ ∀ n, 1 ≤ n → n ≤ 49152 → State.Inv (State.resetWith n)

/-- Every step of the core keeps the invariant `State.Inv` of Safety.lean: canonical buffers below their capacities, the
reserved bits of RESULT, the legal outcomes of STATUS, the sizes of the schedule with unused words zero, and that KVALID
means the round keys are those of the current key. -/
def Obligations.StepKeepsInvariant : Prop :=
  ∀ s t : State, s.Inv → step s = .next t → t.Inv

/-- R41: the reset event leaves every piece of state at the value the table gives. NBLK_MAX is a parameter, and what the
host issues next is not the core's: both stay (the model's own clauses, log entries 1, 2 and 7). -/
def Obligations.ResetEventValues : Prop :=
  ∀ (s : State) (rest : List HostEvent), s.pending = .reset :: rest →
    ∃ t, step s = .next t ∧ (∀ i : Fin 32, t.key[i] = 0) ∧ t.keyLen = 0
      ∧ (∀ (i : Fin 60) (j : Fin 4), t.w[i].get j = 0) ∧ t.nk = 0 ∧ t.nr = 0 ∧ t.kvalid = false
      ∧ (∀ r c : Fin 4, t.cipherState.at r c = 0) ∧ (∀ i : Fin 16, t.blk.get i = 0) ∧ t.result = 0
      ∧ t.errCode = 0 ∧ t.errInfo = 0 ∧ t.padchk = true ∧ t.msgLen = 0 ∧ t.rawLen = 0 ∧ t.frameLen = 0
      ∧ (∀ i, t.msg.read i = 0 ∧ t.raw.read i = 0 ∧ t.frame.read i = 0)
      ∧ t.nblkMax = s.nblkMax ∧ t.pending = rest
      ∧ t.readRegister .status = 0x00000000 ∧ t.readRegister .ctrl = 0x00000001

/-- R251, R252: no key, round key or message survives a reset: two cores of the same NBLK_MAX with the same host are the
same after it, whatever they held. That the whole next states are equal rests also on the model's own parts: the queue
stays (log entries 2 and 7) and the response is forgotten (log entry 3). -/
def Obligations.ResetErasesEverything : Prop :=
  ∀ (s u : State) (rest : List HostEvent), s.nblkMax = u.nblkMax → s.pending = .reset :: rest →
    u.pending = .reset :: rest → step s = step u

/-! ## The host bus -/

/-- R42, R56: a 32-bit read of each register offset answers OK with the register's value and changes nothing else. What the
host issues and what the bus answers are the model's own fields (log entries 2 and 3). -/
def Obligations.RegisterReads : Prop :=
  ∀ (s : State) (rest : List HostEvent) (addr : Nat), s.pending = .memRead32 addr :: rest →
    let o := addr % 2 ^ 22
    let ok := fun n : Nat => step s = .next (answered s rest (.okWord (BitVec.ofNat 32 n)))
    (o = 0x00 → ok 0)
    ∧ (o = 0x04 → ok (s.errCode.toNat + 16 * s.errInfo.toNat + 256 * (if s.kvalid then 1 else 0)))
    ∧ (o = 0x08 → ok (if s.padchk then 1 else 0))
    ∧ (o = 0x0c → ok s.keyLen.toNat) ∧ (o = 0x10 → ok s.nk.toNat) ∧ (o = 0x14 → ok s.nr.toNat)
    ∧ (o = 0x18 → ok s.result.toNat) ∧ (o = 0x1c → ok s.msgLen.toNat) ∧ (o = 0x20 → ok s.rawLen.toNat)
    ∧ (o = 0x24 → ok s.frameLen.toNat) ∧ (o = 0x28 → ok s.nblkMax)

/-- R52, R56: an 8-bit read of each byte range answers OK with the byte the table names and changes nothing else.
The queue and the response are the model's own fields (log entries 2 and 3). -/
def Obligations.ByteReads : Prop :=
  ∀ (s : State) (rest : List HostEvent) (addr : Nat), s.pending = .memRead8 addr :: rest → s.Inv →
    let o := addr % 2 ^ 22
    let ok := fun b : Byte => step s = .next (answered s rest (.okByte b))
    (∀ i : Fin 32, o = 0x100 + i.val → ok s.key[i])
    ∧ (∀ i : Fin 16, o = 0x120 + i.val → ok (s.blk.toList.getD i.val 0))
    ∧ (∀ r c : Fin 4, o = 0x130 + (r.val + 4 * c.val) → ok (s.cipherState.at r c))
    ∧ (∀ (i : Fin 60) (j : Fin 4), o = 0x200 + (4 * i.val + j.val) → ok (s.w[i].get j))
    ∧ (∀ x : Byte, o = 0x400 + x.toNat → ok (sbox x))
    ∧ (∀ x : Byte, o = 0x500 + x.toNat → ok (invSbox x))
    ∧ (∀ j, j < 10 → o = 0x600 + j → ok (rcon j))
    ∧ (∀ i, i < 16 * s.nblkMax → o = 0x100000 + i → ok (s.msg.read i))
    ∧ (∀ i, i < 16 * s.nblkMax → o = 0x200000 + i → ok (s.raw.read i))
    ∧ (∀ i, i < 4 * ((16 * s.nblkMax + 2) / 3) → o = 0x300000 + i → ok (s.frame.read i))

/-- R57: a 32-bit write of CTRL keeps bit 0; a write of KEYLEN stores the value and clears KVALID; a write of a length
register stores the value; each answers OK and changes nothing else. The queue and the response are the model's own
fields (log entries 2 and 3). -/
def Obligations.RegisterWrites : Prop :=
  ∀ (s : State) (rest : List HostEvent) (addr : Nat) (v : Word), s.pending = .memWrite32 addr v :: rest →
    let o := addr % 2 ^ 22
    let base := answered s rest .okWrite
    (o = 0x08 → step s = .next { base with padchk := decide (v.toNat % 2 = 1) })
    ∧ (o = 0x0c → step s = .next { base with keyLen := v, kvalid := false })
    ∧ (o = 0x1c → step s = .next { base with msgLen := v })
    ∧ (o = 0x20 → step s = .next { base with rawLen := v })
    ∧ (o = 0x24 → step s = .next { base with frameLen := v })

/-- R57, R61: an 8-bit write of a writable byte answers OK; a later read of that offset gives the byte written, every
other offset reads as before, a write of KEY clears KVALID, and no register changes. The queue and the response are the
model's own fields (log entries 2 and 3). -/
def Obligations.ByteWriteThenRead : Prop :=
  ∀ (s : State) (rest : List HostEvent) (addr : Nat) (v : Byte), s.pending = .memWrite8 addr v :: rest → s.Inv →
    let o := addr % 2 ^ 22
    inRanges (writableRanges s.nblkMax) o →
    ∃ t, step s = .next t ∧ t.response = .okWrite ∧ t.pending = rest
      ∧ (∀ p, byteAt t p = if p = o then some v else byteAt s p)
      ∧ t.kvalid = (s.kvalid && !decide (0x100 ≤ o ∧ o < 0x120))
      ∧ t.keyLen = s.keyLen ∧ t.nk = s.nk ∧ t.nr = s.nr ∧ t.result = s.result ∧ t.msgLen = s.msgLen
      ∧ t.rawLen = s.rawLen ∧ t.frameLen = s.frameLen ∧ t.errCode = s.errCode ∧ t.errInfo = s.errInfo
      ∧ t.padchk = s.padchk ∧ t.nblkMax = s.nblkMax

/-- R53: a transaction to an unmapped offset, a write to a read-only location, a transaction of the wrong width for its
range, and a 32-bit transaction at an offset that is no multiple of 4 answer a bus error, which carries no data, and
change no state at all. The queue and the response, which do change, are the model's own fields (log entries 2 and
3). -/
def Obligations.BusErrorsChangeNothing : Prop :=
  ∀ (s : State) (rest : List HostEvent) (addr : Nat),
    (s.pending = .memRead8 addr :: rest → ¬ inRanges (readableRanges s.nblkMax) (addr % 2 ^ 22) →
      step s = .next (answered s rest .busError))
    ∧ (s.pending = .memRead32 addr :: rest → (addr % 2 ^ 22 % 4 ≠ 0 ∨ 0x2c ≤ addr % 2 ^ 22) →
      step s = .next (answered s rest .busError))
    ∧ (∀ v : Byte, s.pending = .memWrite8 addr v :: rest → ¬ inRanges (writableRanges s.nblkMax) (addr % 2 ^ 22) →
      step s = .next (answered s rest .busError))
    ∧ ∀ v : Word, s.pending = .memWrite32 addr v :: rest →
      addr % 2 ^ 22 ∉ [0x00, 0x08, 0x0c, 0x1c, 0x20, 0x24] → step s = .next (answered s rest .busError)

/-- R26, R258: after any host write of a byte of KEY or of KEYLEN, every command that reads the round keys raises
CommandError cause 4 and changes nothing else. -/
def Obligations.StaleRoundKeysAreRefused : Prop :=
  ∀ (s : State) (rest : List HostEvent) (addr : Nat) (b : Byte) (v : Word),
    (s.pending = .memWrite8 addr b :: rest ∧ 0x100 ≤ addr % 2 ^ 22 ∧ addr % 2 ^ 22 < 0x120
      ∨ s.pending = .memWrite32 addr v :: rest ∧ addr % 2 ^ 22 = 0x0c) →
    ∃ t, step s = .next t ∧ (∀ i ∈ needsRoundKeys, exec i t = .next { t with errCode := 4, errInfo := 4 })
      ∧ ∀ r : Byte, exec (.addroundkey r) t = .next { t with errCode := 4, errInfo := 4 }

/-! ## The multiplier and the tables -/

/-- R101: GFMUL, whose word is `0x01 + (a << 8) + (b << 16)`, completes, writes the product to RESULT with zeros above it,
and changes nothing else; and the rule's corner cases and worked example of the product. -/
def Obligations.GfmulWritesProduct : Prop :=
  (∀ (a b : Byte) (s : State),
    decode (0x01 + (a.setWidth 32 <<< 8) + (b.setWidth 32 <<< 16)) = .ok (.gfmul a b)
    ∧ exec (.gfmul a b) s = .next { s with result := BitVec.ofNat 32 (gmul a b).toNat, errCode := 0, errInfo := 0 })
  ∧ (∀ b : Byte, gmul 0 b = 0 ∧ gmul b 0 = 0 ∧ gmul 1 b = b)
  ∧ gmul 0x80 2 = 0x1b ∧ gmul 0xff 0xff = 0x13 ∧ gmul 0x57 0x83 = 0xc1

/-- R100: `gmul(a, b)` is the remainder of the polynomial product of `a` and `b` by `x^8+x^4+x^3+x+1`. -/
def Obligations.GmulIsRemainderOfProduct : Prop :=
  ∀ a b : Byte, ∃ q, q < 2 ^ 7 ∧ polyMul a.toNat b.toNat = polyMul q 0x11b ^^^ (gmul a b).toNat

/-- The arithmetic laws of the field that R102 draws from R100 (an inference the spec marks as its own, "[derived: from
rule R100]"). -/
def Obligations.GmulFieldLaws : Prop :=
  (∀ a b, gmul a b = gmul b a) ∧ (∀ a, gmul a 1 = a) ∧ (∀ a, gmul a 0 = 0)
    ∧ (∀ a b c, gmul a (b ^^^ c) = gmul a b ^^^ gmul a c) ∧ (∀ a b c, gmul (gmul a b) c = gmul a (gmul b c))
    ∧ (∀ a : Byte, gmul a 2 = if a.getLsbD 7 then (a <<< 1) ^^^ 0x1b else a <<< 1)
    ∧ (∀ a, gmul a 3 = gmul a 2 ^^^ a) ∧ ∀ a, a ≠ 0 → ∃ b, gmul a b = 1 ∧ ∀ c, gmul a c = 1 → c = b

/-- The two S-boxes are inverse permutations, and SBOX has no fixed and no opposite fixed point: what R114 draws from R111
and R113 (an inference the spec marks as its own). -/
def Obligations.SboxesAreInverse : Prop :=
  ∀ x : Byte, invSbox (sbox x) = x ∧ sbox (invSbox x) = x ∧ sbox x ≠ x ∧ sbox x ≠ x ^^^ 0xff

/-- R116: SBOX is the affine map of the multiplicative inverse (of 0 for 0), and INV_SBOX undoes it. -/
def Obligations.SboxIsAffineOfInverse : Prop :=
  ∀ x y : Byte, (x = 0 → y = 0) → (x ≠ 0 → gmul x y = 1) →
    sbox x = y ^^^ y.rotateLeft 1 ^^^ y.rotateLeft 2 ^^^ y.rotateLeft 3 ^^^ y.rotateLeft 4 ^^^ 0x63
    ∧ invSbox (y ^^^ y.rotateLeft 1 ^^^ y.rotateLeft 2 ^^^ y.rotateLeft 3 ^^^ y.rotateLeft 4 ^^^ 0x63) = x

/-- R115: the ten round constants have the values of the table, which are the powers of `x`, and the key schedule never
indexes outside the table: at most 9, 7 and 6 for a key of 16, 24 and 32 bytes. -/
def Obligations.RconIsPowersOfX : Prop :=
  (List.range 10).map rcon = [0x01, 0x02, 0x04, 0x08, 0x10, 0x20, 0x40, 0x80, 0x1b, 0x36]
    ∧ rcon 0 = 1 ∧ (∀ j, j < 9 → rcon (j + 1) = gmul (rcon j) 2)
    ∧ (∀ i, 4 ≤ i → i < 44 → i % 4 = 0 → i / 4 - 1 ≤ 9) ∧ (∀ i, 6 ≤ i → i < 52 → i % 6 = 0 → i / 6 - 1 ≤ 7)
    ∧ ∀ i, 8 ≤ i → i < 60 → i % 8 = 0 → i / 8 - 1 ≤ 6

/-! ## The key schedule -/

/-- R121, R122: with a legal KEYLEN, KEYEXP completes; NK, NR and every word of W are what the schedule says, word by
word, the unused words zero, and KVALID is 1; nothing else changes. Otherwise it raises KeyLengthError. -/
def Obligations.KeyexpWritesSchedule : Prop :=
  ∀ s : State,
    (s.keyLen.toNat ∈ [16, 24, 32] → ∃ t, exec .keyexp s = .next t
      ∧ t = { s with w := t.w, nk := t.nk, nr := t.nr, kvalid := true, errCode := 0, errInfo := 0 }
      ∧ t.nk.toNat = s.keyLen.toNat / 4 ∧ t.nr.toNat = t.nk.toNat + 6
      ∧ (∀ i, i < t.nk.toNat →
          wordAt t i = ⟨keyAt s (4 * i), keyAt s (4 * i + 1), keyAt s (4 * i + 2), keyAt s (4 * i + 3)⟩)
      ∧ (∀ i, t.nk.toNat ≤ i → i < 4 * (t.nr.toNat + 1) → wordAt t i = scheduleWordRule t.nk.toNat i (wordAt t))
      ∧ ∀ i, 4 * (t.nr.toNat + 1) ≤ i → i < 60 → wordAt t i = ⟨0, 0, 0, 0⟩)
    ∧ (s.keyLen.toNat ∉ [16, 24, 32] → exec .keyexp s = .next { s with errCode := 1, errInfo := 0 })

/-- R221: KeyLengthError is raised exactly by KEYEXP, ENCRYPT and DECRYPT with an illegal KEYLEN, with ERRINFO 0, before
anything else is checked or done, KEYLEN staying as it is; the commands that only use W raise CommandError 4 instead when
no valid round keys exist. -/
def Obligations.KeyLengthErrorExactly : Prop :=
  ∀ (i : Instr) (s t : State), exec i s = .next t →
    (t.errCode = 1 ↔ i ∈ expandsKey ∧ s.keyLen.toNat ∉ [16, 24, 32])
    ∧ (i ∈ expandsKey → s.keyLen.toNat ∉ [16, 24, 32] → t = { s with errCode := 1, errInfo := 0 })
    ∧ (i ∈ needsRoundKeys ∨ (∃ r, i = .addroundkey r) → s.kvalid = false → t = { s with errCode := 4, errInfo := 4 })

/-- R22, R121: key bytes at and above KEYLEN do not affect key expansion. -/
def Obligations.KeyBytesAboveLengthIgnored : Prop :=
  ∀ s u : State, s.keyLen.toNat ∈ [16, 24, 32] → u.keyLen = s.keyLen →
    (∀ i, i < s.keyLen.toNat → keyAt u i = keyAt s i) →
    ∃ t v, exec .keyexp s = .next t ∧ exec .keyexp u = .next v ∧ v.w = t.w ∧ v.nk = t.nk ∧ v.nr = t.nr

/-- R26, R121: while KVALID is 1, W, NK and NR hold the expansion of the current key, so that KEYEXP changes nothing but
STATUS. -/
def Obligations.ValidRoundKeysAreCurrent : Prop :=
  ∀ s : State, s.Inv → s.kvalid = true → exec .keyexp s = .next { s with errCode := 0, errInfo := 0 }

/-! ## The round primitives -/

/-- R142, R143: LDSTATE fills the State from BLK and STSTATE fills BLK from the State, byte `i` with row `i mod 4` and
column `i div 4`; nothing else changes. -/
def Obligations.LoadAndStoreState : Prop :=
  ∀ s : State,
    (∃ x, exec .ldstate s = .next { s with cipherState := x, errCode := 0, errInfo := 0 }
      ∧ ∀ r c : Fin 4, x.at r c = s.blk.toList.getD (4 * c.val + r.val) 0)
    ∧ ∃ b, exec .ststate s = .next { s with blk := b, errCode := 0, errInfo := 0 }
      ∧ ∀ r c : Fin 4, b.toList.getD (4 * c.val + r.val) 0 = s.cipherState.at r c

/-- R144, R148: SUBBYTES and INVSUBBYTES substitute every State byte through their table; nothing else changes. -/
def Obligations.SubstitutionCommands : Prop :=
  ∀ s : State,
    (∃ x, exec .subbytes s = .next { s with cipherState := x, errCode := 0, errInfo := 0 }
      ∧ ∀ r c, x.at r c = sbox (s.cipherState.at r c))
    ∧ ∃ x, exec .invsubbytes s = .next { s with cipherState := x, errCode := 0, errInfo := 0 }
      ∧ ∀ r c, x.at r c = invSbox (s.cipherState.at r c)

/-- R145, R149: SHIFTROWS rotates row `r` left by `r` positions and INVSHIFTROWS right; nothing else changes. -/
def Obligations.RowRotationCommands : Prop :=
  ∀ s : State,
    (∃ x, exec .shiftrows s = .next { s with cipherState := x, errCode := 0, errInfo := 0 }
      ∧ ∀ r c d : Fin 4, d.val = (c.val + r.val) % 4 → x.at r c = s.cipherState.at r d)
    ∧ ∃ x, exec .invshiftrows s = .next { s with cipherState := x, errCode := 0, errInfo := 0 }
      ∧ ∀ r c d : Fin 4, d.val = (c.val + 4 - r.val) % 4 → x.at r c = s.cipherState.at r d

/-- R146, R150: MIXCOLUMNS and INVMIXCOLUMNS multiply every column by their matrix under `gmul` and XOR; nothing else
changes. -/
def Obligations.ColumnMixingCommands : Prop :=
  ∀ s : State,
    (∃ x, exec .mixcolumns s = .next { s with cipherState := x, errCode := 0, errInfo := 0 }
      ∧ ∀ r c, x.at r c = matrixTimes mixMatrix s.cipherState r c)
    ∧ ∃ x, exec .invmixcolumns s = .next { s with cipherState := x, errCode := 0, errInfo := 0 }
      ∧ ∀ r c, x.at r c = matrixTimes invMixMatrix s.cipherState r c

/-- R147: ADDROUNDKEY raises CommandError 4 without valid round keys, then CommandError 3 for a round above NR, and
otherwise XORs word `4r + c` into column `c`, its byte `row` into row `row`; nothing else changes. -/
def Obligations.AddRoundKeyCommand : Prop :=
  ∀ (r : Byte) (s : State),
    (s.kvalid = false → exec (.addroundkey r) s = .next { s with errCode := 4, errInfo := 4 })
    ∧ (s.kvalid = true → s.nr.toNat < r.toNat → exec (.addroundkey r) s = .next { s with errCode := 4, errInfo := 3 })
    ∧ (s.kvalid = true → r.toNat ≤ s.nr.toNat →
      ∃ x, exec (.addroundkey r) s = .next { s with cipherState := x, errCode := 0, errInfo := 0 }
        ∧ ∀ row c : Fin 4, x.at row c = s.cipherState.at row c ^^^ (wordAt s (4 * r.toNat + c.val)).get row)

/-- Each primitive and its inverse, in both orders, restore the State; an ADDROUNDKEY twice restores it; and the
substitutions commute with the row rotations: what R155 draws from R144 to R150 (an inference the spec marks as its own). -/
def Obligations.PrimitivesAreInversePairs : Prop :=
  ∀ s : State,
    let same : Option State := some { s with errCode := 0, errInfo := 0 }
    runCommands [.subbytes, .invsubbytes] s = same ∧ runCommands [.invsubbytes, .subbytes] s = same
    ∧ runCommands [.shiftrows, .invshiftrows] s = same ∧ runCommands [.invshiftrows, .shiftrows] s = same
    ∧ runCommands [.mixcolumns, .invmixcolumns] s = same ∧ runCommands [.invmixcolumns, .mixcolumns] s = same
    ∧ (∀ r : Byte, s.kvalid = true → r.toNat ≤ s.nr.toNat → runCommands [.addroundkey r, .addroundkey r] s = same)
    ∧ runCommands [.subbytes, .shiftrows] s = runCommands [.shiftrows, .subbytes] s
    ∧ runCommands [.invsubbytes, .invshiftrows] s = runCommands [.invshiftrows, .invsubbytes] s

/-! ## Single blocks -/

/-- R153, R154: ENCBLK and DECBLK raise CommandError 4 without valid round keys; otherwise they put BLK through the block
transform, zeroise S, and change nothing else. -/
def Obligations.BlockCommands : Prop :=
  ∀ s : State,
    (s.kvalid = false → exec .encblk s = .next { s with errCode := 4, errInfo := 4 }
      ∧ exec .decblk s = .next { s with errCode := 4, errInfo := 4 })
    ∧ (s.kvalid = true →
      exec .encblk s = .next { s with
        blk := encryptBlock s.w.toList s.nr.toNat s.blk, cipherState := ⟨⟨0, 0, 0, 0⟩, ⟨0, 0, 0, 0⟩, ⟨0, 0, 0, 0⟩, ⟨0, 0, 0, 0⟩⟩,
        errCode := 0, errInfo := 0 }
      ∧ exec .decblk s = .next { s with
        blk := decryptBlock s.w.toList s.nr.toNat s.blk, cipherState := ⟨⟨0, 0, 0, 0⟩, ⟨0, 0, 0, 0⟩, ⟨0, 0, 0, 0⟩, ⟨0, 0, 0, 0⟩⟩,
        errCode := 0, errInfo := 0 })

/-- The source's known-answer vector (95_test_vectors.md V1): KEYEXP and ENCBLK of the published key and plaintext give
the published ciphertext, and DECBLK gives the plaintext back. -/
def Obligations.KnownAnswerVector : Prop :=
  let key : List Byte := [0x00, 0x01, 0x02, 0x03, 0x04, 0x05, 0x06, 0x07, 0x08, 0x09, 0x0a, 0x0b, 0x0c, 0x0d, 0x0e, 0x0f]
  let plain : List Byte := [0x00, 0x11, 0x22, 0x33, 0x44, 0x55, 0x66, 0x77, 0x88, 0x99, 0xaa, 0xbb, 0xcc, 0xdd, 0xee, 0xff]
  let cipher : List Byte := [0x69, 0xc4, 0xe0, 0xd8, 0x6a, 0x7b, 0x04, 0x30, 0xd8, 0xcd, 0xb7, 0x80, 0x70, 0xb4, 0xc5, 0x5a]
  ∀ s : State, s.keyLen = 16 → s.keyBytes 16 = key → s.blk.toList = plain →
    (∃ t, runCommands [.keyexp, .encblk] s = some t ∧ t.blk.toList = cipher ∧ t.errCode = 0)
    ∧ ∃ t, runCommands [.keyexp, .encblk, .decblk] s = some t ∧ t.blk.toList = plain ∧ t.errCode = 0

/-- The sequence of primitive commands equals ENCBLK, and its mirror image equals DECBLK, except that it leaves the final
State in S instead of zero: what R156 draws from R142 to R154 (an inference the spec marks as its own). -/
def Obligations.PrimitiveSequencesEqualBlockCommands : Prop :=
  ∀ s : State, s.Inv → s.kvalid = true →
    (∃ t, exec .encblk s = .next t ∧ runCommands (encryptCommands s.nr.toNat) s = some { t with cipherState := t.blk })
    ∧ ∃ t, exec .decblk s = .next t ∧ runCommands (decryptCommands s.nr.toNat) s = some { t with cipherState := t.blk }

/-- With the same round keys, whatever they are, DECBLK undoes ENCBLK and ENCBLK undoes DECBLK: only STATUS and the zeroised
S differ from the state before. R152 draws it from R151, R152 and R155 (an inference the spec marks as its own). -/
def Obligations.DecblkInvertsEncblk : Prop :=
  ∀ s : State, s.kvalid = true →
    runCommands [.encblk, .decblk] s = some { s with cipherState := Block.zero, errCode := 0, errInfo := 0 }
    ∧ runCommands [.decblk, .encblk] s = some { s with cipherState := Block.zero, errCode := 0, errInfo := 0 }

/-- R27: every composite command that succeeds leaves all 16 bytes of S zero. -/
def Obligations.CompositeCommandsZeroiseState : Prop :=
  ∀ i ∈ composite, ∀ s t : State, exec i s = .next t → t.errCode = 0 → ∀ r c : Fin 4, t.cipherState.at r c = 0

/-! ## Padding -/

/-- R181, R182: the padding is 1 to 16 bytes, each of its own count; a padded length is a multiple of 16 above the
message's; and a message of a multiple of 16 grows by sixteen bytes 0x10. -/
def Obligations.PaddedLengthBounds : Prop :=
  ∀ m : List Byte, ∃ p, 1 ≤ p ∧ p ≤ 16 ∧ p = 16 - m.length % 16 ∧ pad m = m ++ List.replicate p (BitVec.ofNat 8 p)
    ∧ (pad m).length = 16 * (m.length / 16 + 1) ∧ (pad m).length % 16 = 0 ∧ m.length < (pad m).length
    ∧ (m.length % 16 = 0 → pad m = m ++ List.replicate 16 0x10)

/-- Unpadding a padded message gives the message back in both modes: what R187 draws from R181 (an inference the spec marks
as its own). -/
def Obligations.UnpadUndoesPad : Prop :=
  ∀ (m : List Byte) (strict : Bool), unpad (pad m) strict = .ok m

/-- R186: PAD's errors, in order, and its result byte by byte: the message, the padding, and RAW unchanged above. -/
def Obligations.PadCommand : Prop :=
  ∀ s : State, s.Inv →
    let len := s.msgLen.toNat
    let cap := 16 * s.nblkMax
    let n := 16 * (len / 16 + 1)
    (cap < len → exec .pad s = .next { s with errCode := 4, errInfo := 5 })
    ∧ (len = cap → exec .pad s = .next { s with errCode := 4, errInfo := 6 })
    ∧ (len < cap → ∃ t, exec .pad s = .next t
      ∧ t = { s with raw := t.raw, rawLen := t.rawLen, errCode := 0, errInfo := 0 }
      ∧ t.rawLen.toNat = n
      ∧ (∀ i, i < len → t.raw.read i = s.msg.read i)
      ∧ (∀ i, len ≤ i → i < n → t.raw.read i = BitVec.ofNat 8 (16 - len % 16))
      ∧ ∀ i, n ≤ i → t.raw.read i = s.raw.read i)

/-- R187, R188: UNPAD's errors, in order, and its result byte by byte, in strict and in lenient mode. -/
def Obligations.UnpadCommand : Prop :=
  ∀ s : State, s.Inv →
    let n := s.rawLen.toNat
    let p := (s.raw.read (n - 1)).toNat
    let strict := s.padchk = true
    let outOfRange := strict ∧ (p = 0 ∨ 16 < p)
    let inconsistent := strict ∧ ∃ j, n - p ≤ j ∧ j < n ∧ (s.raw.read j).toNat ≠ p
    (16 * s.nblkMax < n → exec .unpad s = .next { s with errCode := 4, errInfo := 5 })
    ∧ (n ≤ 16 * s.nblkMax →
      (n = 0 → exec .unpad s = .next { s with errCode := 3, errInfo := 1 })
      ∧ (n ≠ 0 → outOfRange → exec .unpad s = .next { s with errCode := 3, errInfo := 2 })
      ∧ (n ≠ 0 → ¬ outOfRange → n < p → exec .unpad s = .next { s with errCode := 3, errInfo := 4 })
      ∧ (n ≠ 0 → ¬ outOfRange → p ≤ n → inconsistent → exec .unpad s = .next { s with errCode := 3, errInfo := 3 })
      ∧ (n ≠ 0 → ¬ outOfRange → p ≤ n → ¬ inconsistent → ∃ t, exec .unpad s = .next t
        ∧ t = { s with msg := t.msg, msgLen := t.msgLen, errCode := 0, errInfo := 0 }
        ∧ t.msgLen.toNat = n - p
        ∧ (∀ i, i < n - p → t.msg.read i = s.raw.read i)
        ∧ ∀ i, n - p ≤ i → t.msg.read i = s.msg.read i))

/-! ## The ECB sequencer -/

/-- R189 to R191: ECBENC and ECBDEC raise CommandError 4, 5, 7 in that order; otherwise block `k` of RAW becomes the block
transform of block `k`, RAW is unchanged at and above RAWLEN, S is zero, and nothing else changes. -/
def Obligations.EcbCommands : Prop :=
  ∀ s : State, s.Inv →
    ∀ p ∈ [(Instr.ecbenc, encryptBlock), (Instr.ecbdec, decryptBlock)],
    let n := s.rawLen.toNat
    (s.kvalid = false → exec p.1 s = .next { s with errCode := 4, errInfo := 4 })
    ∧ (s.kvalid = true → 16 * s.nblkMax < n → exec p.1 s = .next { s with errCode := 4, errInfo := 5 })
    ∧ (s.kvalid = true → n ≤ 16 * s.nblkMax → n % 16 ≠ 0 → exec p.1 s = .next { s with errCode := 4, errInfo := 7 })
    ∧ (s.kvalid = true → n ≤ 16 * s.nblkMax → n % 16 = 0 → ∃ t, exec p.1 s = .next t
      ∧ t = { s with raw := t.raw, cipherState := Block.zero, errCode := 0, errInfo := 0 }
      ∧ (∀ k, k < n / 16 → blockAt t.raw k = p.2 s.w.toList s.nr.toNat (blockAt s.raw k))
      ∧ ∀ j, n ≤ j → t.raw.read j = s.raw.read j)

/-- R192: an output block depends only on its input block and on the round keys: wherever two runs of the same command,
or two places of one run, have equal input blocks and equal round keys, they have equal output blocks. -/
def Obligations.EcbBlocksAreIndependent : Prop :=
  ∀ i ∈ [Instr.ecbenc, Instr.ecbdec], ∀ s u t v : State, s.Inv → u.Inv → u.w = s.w → u.nr = s.nr →
    exec i s = .next t → t.errCode = 0 → exec i u = .next v → v.errCode = 0 →
    ∀ k l, k < s.rawLen.toNat / 16 → l < u.rawLen.toNat / 16 → blockAt u.raw l = blockAt s.raw k →
      blockAt v.raw l = blockAt t.raw k

/-- R190, R191: with the same round keys, ECBDEC undoes ECBENC and ECBENC undoes ECBDEC: the whole RAW buffer is restored,
and only STATUS and the zeroised S differ from the state before. -/
def Obligations.EcbdecInvertsEcbenc : Prop :=
  ∀ s : State, s.Inv → s.kvalid = true → s.rawLen.toNat ≤ 16 * s.nblkMax → s.rawLen.toNat % 16 = 0 →
    runCommands [.ecbenc, .ecbdec] s = some { s with cipherState := Block.zero, errCode := 0, errInfo := 0 }
    ∧ runCommands [.ecbdec, .ecbenc] s = some { s with cipherState := Block.zero, errCode := 0, errInfo := 0 }

/-! ## Base64 -/

/-- R193, R195: the text of a byte sequence, character by character: four characters for each full group of three bytes,
first byte most significant, and two or three characters and `=` for the last one or two bytes. -/
def Obligations.Base64TextOfBytes : Prop :=
  ∀ x : List Byte,
    let n := x.length
    let byte := fun i => (x.getD i 0).toNat
    let text := fun i => (b64enc x).getD i 0
    (b64enc x).length = 4 * ((n + 2) / 3)
    ∧ (∀ g, g < n / 3 →
      let v := byte (3 * g) * 65536 + byte (3 * g + 1) * 256 + byte (3 * g + 2)
      text (4 * g) = charOf (v / 262144) ∧ text (4 * g + 1) = charOf (v / 4096 % 64)
        ∧ text (4 * g + 2) = charOf (v / 64 % 64) ∧ text (4 * g + 3) = charOf (v % 64))
    ∧ (n % 3 = 1 →
      let v := byte (n - 1) * 65536
      text (4 * (n / 3)) = charOf (v / 262144) ∧ text (4 * (n / 3) + 1) = charOf (v / 4096 % 64)
        ∧ text (4 * (n / 3) + 2) = 0x3d ∧ text (4 * (n / 3) + 3) = 0x3d)
    ∧ (n % 3 = 2 →
      let v := byte (n - 2) * 65536 + byte (n - 1) * 256
      text (4 * (n / 3)) = charOf (v / 262144) ∧ text (4 * (n / 3) + 1) = charOf (v / 4096 % 64)
        ∧ text (4 * (n / 3) + 2) = charOf (v / 64 % 64) ∧ text (4 * (n / 3) + 3) = 0x3d)

/-- R197: decoding succeeds with `x` exactly on the text of `x`; and the causes, in their order: a length that is no
multiple of 4, a character or a padding out of place, and non-zero discarded bits. -/
def Obligations.Base64DecodesCanonicalTexts : Prop :=
  ∀ f : List Byte,
    (∀ x, b64dec f = .ok x ↔ f = b64enc x)
    ∧ (f.length % 4 ≠ 0 → b64dec f = .error .frameLength)
    ∧ (f.length % 4 = 0 → (∀ npad, ¬ textShape f npad) → b64dec f = .error .frameCharacter)
    ∧ (∀ npad, f.length % 4 = 0 → textShape f npad → ¬ discardedZero f npad → b64dec f = .error .frameDiscardedBits)
    ∧ (∀ npad, f.length % 4 = 0 → textShape f npad → discardedZero f npad →
      ∃ x, b64dec f = .ok x ∧ x.length = 3 * (f.length / 4) - npad)

/-- R196: B64ENC raises CommandError 5 for a RAWLEN beyond RAW; otherwise FRAME holds the text of RAW, which always fits,
FRAME is unchanged above it, and nothing else changes. -/
def Obligations.B64encCommand : Prop :=
  ∀ s : State, s.Inv →
    (16 * s.nblkMax < s.rawLen.toNat → exec .b64enc s = .next { s with errCode := 4, errInfo := 5 })
    ∧ (s.rawLen.toNat ≤ 16 * s.nblkMax → ∃ t, exec .b64enc s = .next t
      ∧ t = { s with frame := t.frame, frameLen := t.frameLen, errCode := 0, errInfo := 0 }
      ∧ t.frameLen.toNat = 4 * ((s.rawLen.toNat + 2) / 3) ∧ t.frameLen.toNat ≤ 4 * ((16 * s.nblkMax + 2) / 3)
      ∧ t.frameText = b64enc s.rawBytes
      ∧ ∀ i, t.frameLen.toNat ≤ i → t.frame.read i = s.frame.read i)

/-- R198: B64DEC raises CommandError 5, then EncodingError 1, 2, 3, then CommandError 6 (which needs an NBLK_MAX that is no
multiple of 3); otherwise RAW holds the decoded bytes, RAW is unchanged above them, and nothing else changes. -/
def Obligations.B64decCommand : Prop :=
  ∀ s : State, s.Inv →
    let cap := 4 * ((16 * s.nblkMax + 2) / 3)
    (cap < s.frameLen.toNat → exec .b64dec s = .next { s with errCode := 4, errInfo := 5 })
    ∧ (s.frameLen.toNat ≤ cap →
      (b64dec s.frameText = .error .frameLength → exec .b64dec s = .next { s with errCode := 2, errInfo := 1 })
      ∧ (b64dec s.frameText = .error .frameCharacter → exec .b64dec s = .next { s with errCode := 2, errInfo := 2 })
      ∧ (b64dec s.frameText = .error .frameDiscardedBits → exec .b64dec s = .next { s with errCode := 2, errInfo := 3 })
      ∧ (∀ x, b64dec s.frameText = .ok x → 16 * s.nblkMax < x.length →
        s.nblkMax % 3 ≠ 0 ∧ exec .b64dec s = .next { s with errCode := 4, errInfo := 6 })
      ∧ (∀ x, b64dec s.frameText = .ok x → x.length ≤ 16 * s.nblkMax → ∃ t, exec .b64dec s = .next t
        ∧ t = { s with raw := t.raw, rawLen := t.rawLen, errCode := 0, errInfo := 0 }
        ∧ t.rawLen.toNat = x.length ∧ t.rawBytes = x
        ∧ ∀ i, x.length ≤ i → t.raw.read i = s.raw.read i))

/-- B64ENC followed by B64DEC restores RAW and RAWLEN, and a B64DEC that succeeds followed by B64ENC restores FRAME and
FRAMELEN: what R199 draws from R195 and R197 (an inference the spec marks as its own). -/
def Obligations.Base64CommandsRoundTrip : Prop :=
  ∀ s : State, s.Inv →
    (s.rawLen.toNat ≤ 16 * s.nblkMax → ∃ t, runCommands [.b64enc, .b64dec] s = some t
      ∧ t.raw = s.raw ∧ t.rawLen = s.rawLen ∧ t.errCode = 0)
    ∧ (∀ t, exec .b64dec s = .next t → t.errCode = 0 → ∃ u, exec .b64enc t = .next u
      ∧ u.frame = s.frame ∧ u.frameLen = s.frameLen ∧ u.errCode = 0)

/-! ## Whole messages -/

/-- R200: ENCRYPT's errors in order; otherwise it completes: the round keys are those KEYEXP commits, RAW holds the ECB
encryption of the padded message and FRAME its text, lengths and unchanged bytes included, S is zero, and nothing else
changes. -/
def Obligations.EncryptCommand : Prop :=
  ∀ s : State, s.Inv →
    let len := s.msgLen.toNat
    let n := 16 * (len / 16 + 1)
    (s.keyLen.toNat ∉ [16, 24, 32] → exec .encrypt s = .next { s with errCode := 1, errInfo := 0 })
    ∧ (s.keyLen.toNat ∈ [16, 24, 32] →
      (16 * s.nblkMax < len → exec .encrypt s = .next { s with errCode := 4, errInfo := 5 })
      ∧ (len = 16 * s.nblkMax → exec .encrypt s = .next { s with errCode := 4, errInfo := 6 })
      ∧ (len < 16 * s.nblkMax → ∃ k t, exec .keyexp s = .next k ∧ exec .encrypt s = .next t
        ∧ t = { s with w := k.w, nk := k.nk, nr := k.nr, kvalid := true, raw := t.raw, rawLen := t.rawLen,
                       frame := t.frame, frameLen := t.frameLen, cipherState := Block.zero, errCode := 0, errInfo := 0 }
        ∧ t.rawBytes = ecbEncrypt k.w.toList k.nr.toNat (pad s.message) ∧ t.rawLen.toNat = n
        ∧ t.frameText = b64enc t.rawBytes ∧ t.frameLen.toNat = 4 * ((n + 2) / 3)
        ∧ (∀ i, n ≤ i → t.raw.read i = s.raw.read i)
        ∧ ∀ i, t.frameLen.toNat ≤ i → t.frame.read i = s.frame.read i))

/-- R201: DECRYPT's errors in order, the check against RAW_CAP never firing; otherwise it completes: the round keys are
those KEYEXP commits, RAW holds the decrypted blocks and MSG the unpadded message, lengths and unchanged bytes included,
S is zero, and nothing else changes. -/
def Obligations.DecryptCommand : Prop :=
  ∀ s : State, s.Inv →
    (s.keyLen.toNat ∉ [16, 24, 32] → exec .decrypt s = .next { s with errCode := 1, errInfo := 0 })
    ∧ (s.keyLen.toNat ∈ [16, 24, 32] →
      (4 * ((16 * s.nblkMax + 2) / 3) < s.frameLen.toNat → exec .decrypt s = .next { s with errCode := 4, errInfo := 5 })
      ∧ (s.frameLen.toNat ≤ 4 * ((16 * s.nblkMax + 2) / 3) →
        (∀ e, b64dec s.frameText = .error e → exec .decrypt s = .next { s with errCode := e.code, errInfo := e.info })
        ∧ (∀ y, b64dec s.frameText = .ok y → y.length % 16 ≠ 0 →
          exec .decrypt s = .next { s with errCode := 2, errInfo := 4 })
        ∧ (∀ y, b64dec s.frameText = .ok y → y.length % 16 = 0 → ∃ k, exec .keyexp s = .next k ∧
          let x := ecbDecrypt k.w.toList k.nr.toNat y
          (∀ e, unpad x s.padchk = .error e → exec .decrypt s = .next { s with errCode := e.code, errInfo := e.info })
          ∧ (∀ m, unpad x s.padchk = .ok m → ∃ t, exec .decrypt s = .next t
            ∧ t = { s with w := k.w, nk := k.nk, nr := k.nr, kvalid := true, raw := t.raw, rawLen := t.rawLen,
                           msg := t.msg, msgLen := t.msgLen, cipherState := Block.zero, errCode := 0, errInfo := 0 }
            ∧ t.rawBytes = x ∧ t.rawLen.toNat = y.length ∧ t.message = m ∧ t.msgLen.toNat = m.length
            ∧ (∀ i, y.length ≤ i → t.raw.read i = s.raw.read i)
            ∧ ∀ i, m.length ≤ i → t.msg.read i = s.msg.read i))))

/-- R180, 95_test_vectors.md P4: the stage commands PAD, KEYEXP, ECBENC, B64ENC together leave exactly the state that ENCRYPT
leaves, wherever ENCRYPT succeeds. -/
def Obligations.EncryptEqualsItsStages : Prop :=
  ∀ s t : State, s.Inv → exec .encrypt s = .next t → t.errCode = 0 →
    runCommands [.pad, .keyexp, .ecbenc, .b64enc] s = some t

/-- R180, 95_test_vectors.md P4: the stage commands KEYEXP, B64DEC, ECBDEC, UNPAD together leave exactly the state that DECRYPT
leaves, wherever DECRYPT succeeds. -/
def Obligations.DecryptEqualsItsStages : Prop :=
  ∀ s t : State, s.Inv → exec .decrypt s = .next t → t.errCode = 0 →
    runCommands [.keyexp, .b64dec, .ecbdec, .unpad] s = some t

/-- decrypt(encrypt(m, k), k) = m, which R202 draws from R187, R197, R200 and R201 (an inference the spec marks as its own)
and the source lists as a testable property: after a successful ENCRYPT, DECRYPT in any state that holds the same key and the same
frame, whatever its padding mode and its other buffers, succeeds and leaves the message of the encryption. -/
def Obligations.DecryptUndoesEncrypt : Prop :=
  ∀ s t u : State, s.Inv → u.Inv → exec .encrypt s = .next t → t.errCode = 0 →
    u.nblkMax = s.nblkMax → u.keyLen = s.keyLen → (∀ i, i < s.keyLen.toNat → keyAt u i = keyAt s i) →
    u.frameLen = t.frameLen → u.frameText = t.frameText →
    ∃ v, exec .decrypt u = .next v ∧ v.errCode = 0 ∧ v.msgLen = s.msgLen ∧ v.message = s.message

/-- R200: the result of ENCRYPT is a function of KEY[0..KEYLEN), KEYLEN and MSG[0..MSGLEN) alone. -/
def Obligations.EncryptDependsOnKeyAndMessageOnly : Prop :=
  ∀ s u t : State, s.Inv → u.Inv → u.nblkMax = s.nblkMax → u.keyLen = s.keyLen →
    (∀ i, i < s.keyLen.toNat → keyAt u i = keyAt s i) → u.msgLen = s.msgLen → u.message = s.message →
    exec .encrypt s = .next t → t.errCode = 0 →
    ∃ v, exec .encrypt u = .next v ∧ v.errCode = 0 ∧ v.w = t.w ∧ v.nk = t.nk ∧ v.nr = t.nr ∧ v.kvalid = t.kvalid
      ∧ v.rawLen = t.rawLen ∧ v.rawBytes = t.rawBytes ∧ v.frameLen = t.frameLen ∧ v.frameText = t.frameText

/-- With a legal key length, any frame whatever within the buffer gives a successful DECRYPT, EncodingError or PaddingError,
never another error: what R202 draws from R187, R197, R200 and R201 (an inference the spec marks as its own). -/
def Obligations.CorruptFramesFailAsInput : Prop :=
  ∀ s : State, s.keyLen.toNat ∈ [16, 24, 32] → s.frameLen.toNat ≤ 4 * ((16 * s.nblkMax + 2) / 3) →
    ∃ t, exec .decrypt s = .next t ∧ (t.errCode = 0 ∨ t.errCode = 2 ∨ t.errCode = 3)

/-! ## Errors and frames of every command -/

/-- R226: a command word that ends in an error changes nothing but ERRCODE and ERRINFO. -/
def Obligations.ErrorsChangeOnlyStatus : Prop :=
  ∀ (c : Word) (s t : State), runCommand c s = .next t → t.errCode ≠ 0 →
    t = { s with errCode := t.errCode, errInfo := t.errInfo }

/-- A command ends in success, with ERRCODE and ERRINFO 0, or in one of the errors that R230 lists for it (an inference the
spec marks as its own, from the command rules). -/
def Obligations.CommandsRaiseOnlyTheirErrors : Prop :=
  ∀ (i : Instr) (s t : State), exec i s = .next t →
    (t.errCode.toNat, t.errInfo.toNat) ∈ (0, 0) :: raisable i

/-- R228: STATUS is not sticky and no command reads ERRCODE or ERRINFO: the outcome of every command word is the same
whatever they held; a successful one overwrites them with 0, 0; and a command word that ends in an error, issued again in
the state it left, ends in the same error. -/
def Obligations.StatusIsNotReadByCommands : Prop :=
  (∀ (c : Word) (s : State) (e f : BitVec 4), runCommand c { s with errCode := e, errInfo := f } = runCommand c s)
    ∧ ∀ (c : Word) (s t : State), runCommand c s = .next t →
      (t.errCode = 0 → t.errInfo = 0) ∧ (t.errCode ≠ 0 → runCommand c t = .next t)

/-- Which commands write which storage, as R67 draws it from the command rules (an inference the spec marks as its own):
each command leaves unchanged everything outside the columns it is listed in, and none writes KEY, KEYLEN, CTRL or NBLKMAX. -/
def Obligations.CommandsWriteOnlyTheirStorage : Prop :=
  ∀ (i : Instr) (s t : State), exec i s = .next t →
    t.key = s.key ∧ t.keyLen = s.keyLen ∧ t.padchk = s.padchk ∧ t.nblkMax = s.nblkMax
    ∧ t.pending = s.pending ∧ t.response = s.response
    ∧ (i ∉ expandsKey → t.w = s.w ∧ t.nk = s.nk ∧ t.nr = s.nr ∧ t.kvalid = s.kvalid)
    ∧ (i ∈ [.keyexp, .ststate, .pad, .unpad, .b64enc, .b64dec] ∨ (∃ a b, i = .gfmul a b) → t.cipherState = s.cipherState)
    ∧ (i ∉ [.ststate, .encblk, .decblk] → t.blk = s.blk)
    ∧ ((∀ a b, i ≠ .gfmul a b) → t.result = s.result)
    ∧ (i ∉ [.unpad, .decrypt] → t.msg = s.msg ∧ t.msgLen = s.msgLen)
    ∧ (i ∉ [.pad, .ecbenc, .ecbdec, .b64dec, .encrypt, .decrypt] → t.raw = s.raw)
    ∧ (i ∉ [.pad, .b64dec, .encrypt, .decrypt] → t.rawLen = s.rawLen)
    ∧ (i ∉ [.b64enc, .encrypt] → t.frame = s.frame ∧ t.frameLen = s.frameLen)
end

