-- ==== Sys2Proof/Laws/State.lean ====
section
/-! SUPPORT. What each named update of the state does to each field: one lemma per field per update. -/

namespace Sys2Proof.Machine

variable (s : State)

/-! `State.withStatus` -/

@[simp] theorem State.withStatus_key (c i : BitVec 4) : (s.withStatus c i).key = s.key := rfl
@[simp] theorem State.withStatus_keyLen (c i : BitVec 4) : (s.withStatus c i).keyLen = s.keyLen := rfl
@[simp] theorem State.withStatus_w (c i : BitVec 4) : (s.withStatus c i).w = s.w := rfl
@[simp] theorem State.withStatus_nk (c i : BitVec 4) : (s.withStatus c i).nk = s.nk := rfl
@[simp] theorem State.withStatus_nr (c i : BitVec 4) : (s.withStatus c i).nr = s.nr := rfl
@[simp] theorem State.withStatus_kvalid (c i : BitVec 4) : (s.withStatus c i).kvalid = s.kvalid := rfl
@[simp] theorem State.withStatus_cipherState (c i : BitVec 4) : (s.withStatus c i).cipherState = s.cipherState := rfl
@[simp] theorem State.withStatus_blk (c i : BitVec 4) : (s.withStatus c i).blk = s.blk := rfl
@[simp] theorem State.withStatus_result (c i : BitVec 4) : (s.withStatus c i).result = s.result := rfl
@[simp] theorem State.withStatus_msg (c i : BitVec 4) : (s.withStatus c i).msg = s.msg := rfl
@[simp] theorem State.withStatus_msgLen (c i : BitVec 4) : (s.withStatus c i).msgLen = s.msgLen := rfl
@[simp] theorem State.withStatus_raw (c i : BitVec 4) : (s.withStatus c i).raw = s.raw := rfl
@[simp] theorem State.withStatus_rawLen (c i : BitVec 4) : (s.withStatus c i).rawLen = s.rawLen := rfl
@[simp] theorem State.withStatus_frame (c i : BitVec 4) : (s.withStatus c i).frame = s.frame := rfl
@[simp] theorem State.withStatus_frameLen (c i : BitVec 4) : (s.withStatus c i).frameLen = s.frameLen := rfl
@[simp] theorem State.withStatus_errCode (c i : BitVec 4) : (s.withStatus c i).errCode = c := rfl
@[simp] theorem State.withStatus_errInfo (c i : BitVec 4) : (s.withStatus c i).errInfo = i := rfl
@[simp] theorem State.withStatus_padchk (c i : BitVec 4) : (s.withStatus c i).padchk = s.padchk := rfl
@[simp] theorem State.withStatus_nblkMax (c i : BitVec 4) : (s.withStatus c i).nblkMax = s.nblkMax := rfl
@[simp] theorem State.withStatus_pending (c i : BitVec 4) : (s.withStatus c i).pending = s.pending := rfl
@[simp] theorem State.withStatus_response (c i : BitVec 4) : (s.withStatus c i).response = s.response := rfl

/-! `State.setMessage` -/

@[simp] theorem State.setMessage_key (x : List Byte) : (s.setMessage x).key = s.key := rfl
@[simp] theorem State.setMessage_keyLen (x : List Byte) : (s.setMessage x).keyLen = s.keyLen := rfl
@[simp] theorem State.setMessage_w (x : List Byte) : (s.setMessage x).w = s.w := rfl
@[simp] theorem State.setMessage_nk (x : List Byte) : (s.setMessage x).nk = s.nk := rfl
@[simp] theorem State.setMessage_nr (x : List Byte) : (s.setMessage x).nr = s.nr := rfl
@[simp] theorem State.setMessage_kvalid (x : List Byte) : (s.setMessage x).kvalid = s.kvalid := rfl
@[simp] theorem State.setMessage_cipherState (x : List Byte) : (s.setMessage x).cipherState = s.cipherState := rfl
@[simp] theorem State.setMessage_blk (x : List Byte) : (s.setMessage x).blk = s.blk := rfl
@[simp] theorem State.setMessage_result (x : List Byte) : (s.setMessage x).result = s.result := rfl
@[simp] theorem State.setMessage_msg (x : List Byte) : (s.setMessage x).msg = s.msg.store 0 x := rfl
@[simp] theorem State.setMessage_msgLen (x : List Byte) : (s.setMessage x).msgLen = BitVec.ofNat 32 x.length := rfl
@[simp] theorem State.setMessage_raw (x : List Byte) : (s.setMessage x).raw = s.raw := rfl
@[simp] theorem State.setMessage_rawLen (x : List Byte) : (s.setMessage x).rawLen = s.rawLen := rfl
@[simp] theorem State.setMessage_frame (x : List Byte) : (s.setMessage x).frame = s.frame := rfl
@[simp] theorem State.setMessage_frameLen (x : List Byte) : (s.setMessage x).frameLen = s.frameLen := rfl
@[simp] theorem State.setMessage_errCode (x : List Byte) : (s.setMessage x).errCode = s.errCode := rfl
@[simp] theorem State.setMessage_errInfo (x : List Byte) : (s.setMessage x).errInfo = s.errInfo := rfl
@[simp] theorem State.setMessage_padchk (x : List Byte) : (s.setMessage x).padchk = s.padchk := rfl
@[simp] theorem State.setMessage_nblkMax (x : List Byte) : (s.setMessage x).nblkMax = s.nblkMax := rfl
@[simp] theorem State.setMessage_pending (x : List Byte) : (s.setMessage x).pending = s.pending := rfl
@[simp] theorem State.setMessage_response (x : List Byte) : (s.setMessage x).response = s.response := rfl

/-! `State.setRaw` -/

@[simp] theorem State.setRaw_key (x : List Byte) : (s.setRaw x).key = s.key := rfl
@[simp] theorem State.setRaw_keyLen (x : List Byte) : (s.setRaw x).keyLen = s.keyLen := rfl
@[simp] theorem State.setRaw_w (x : List Byte) : (s.setRaw x).w = s.w := rfl
@[simp] theorem State.setRaw_nk (x : List Byte) : (s.setRaw x).nk = s.nk := rfl
@[simp] theorem State.setRaw_nr (x : List Byte) : (s.setRaw x).nr = s.nr := rfl
@[simp] theorem State.setRaw_kvalid (x : List Byte) : (s.setRaw x).kvalid = s.kvalid := rfl
@[simp] theorem State.setRaw_cipherState (x : List Byte) : (s.setRaw x).cipherState = s.cipherState := rfl
@[simp] theorem State.setRaw_blk (x : List Byte) : (s.setRaw x).blk = s.blk := rfl
@[simp] theorem State.setRaw_result (x : List Byte) : (s.setRaw x).result = s.result := rfl
@[simp] theorem State.setRaw_msg (x : List Byte) : (s.setRaw x).msg = s.msg := rfl
@[simp] theorem State.setRaw_msgLen (x : List Byte) : (s.setRaw x).msgLen = s.msgLen := rfl
@[simp] theorem State.setRaw_raw (x : List Byte) : (s.setRaw x).raw = s.raw.store 0 x := rfl
@[simp] theorem State.setRaw_rawLen (x : List Byte) : (s.setRaw x).rawLen = BitVec.ofNat 32 x.length := rfl
@[simp] theorem State.setRaw_frame (x : List Byte) : (s.setRaw x).frame = s.frame := rfl
@[simp] theorem State.setRaw_frameLen (x : List Byte) : (s.setRaw x).frameLen = s.frameLen := rfl
@[simp] theorem State.setRaw_errCode (x : List Byte) : (s.setRaw x).errCode = s.errCode := rfl
@[simp] theorem State.setRaw_errInfo (x : List Byte) : (s.setRaw x).errInfo = s.errInfo := rfl
@[simp] theorem State.setRaw_padchk (x : List Byte) : (s.setRaw x).padchk = s.padchk := rfl
@[simp] theorem State.setRaw_nblkMax (x : List Byte) : (s.setRaw x).nblkMax = s.nblkMax := rfl
@[simp] theorem State.setRaw_pending (x : List Byte) : (s.setRaw x).pending = s.pending := rfl
@[simp] theorem State.setRaw_response (x : List Byte) : (s.setRaw x).response = s.response := rfl

/-! `State.setFrame` -/

@[simp] theorem State.setFrame_key (x : List Byte) : (s.setFrame x).key = s.key := rfl
@[simp] theorem State.setFrame_keyLen (x : List Byte) : (s.setFrame x).keyLen = s.keyLen := rfl
@[simp] theorem State.setFrame_w (x : List Byte) : (s.setFrame x).w = s.w := rfl
@[simp] theorem State.setFrame_nk (x : List Byte) : (s.setFrame x).nk = s.nk := rfl
@[simp] theorem State.setFrame_nr (x : List Byte) : (s.setFrame x).nr = s.nr := rfl
@[simp] theorem State.setFrame_kvalid (x : List Byte) : (s.setFrame x).kvalid = s.kvalid := rfl
@[simp] theorem State.setFrame_cipherState (x : List Byte) : (s.setFrame x).cipherState = s.cipherState := rfl
@[simp] theorem State.setFrame_blk (x : List Byte) : (s.setFrame x).blk = s.blk := rfl
@[simp] theorem State.setFrame_result (x : List Byte) : (s.setFrame x).result = s.result := rfl
@[simp] theorem State.setFrame_msg (x : List Byte) : (s.setFrame x).msg = s.msg := rfl
@[simp] theorem State.setFrame_msgLen (x : List Byte) : (s.setFrame x).msgLen = s.msgLen := rfl
@[simp] theorem State.setFrame_raw (x : List Byte) : (s.setFrame x).raw = s.raw := rfl
@[simp] theorem State.setFrame_rawLen (x : List Byte) : (s.setFrame x).rawLen = s.rawLen := rfl
@[simp] theorem State.setFrame_frame (x : List Byte) : (s.setFrame x).frame = s.frame.store 0 x := rfl
@[simp] theorem State.setFrame_frameLen (x : List Byte) : (s.setFrame x).frameLen = BitVec.ofNat 32 x.length := rfl
@[simp] theorem State.setFrame_errCode (x : List Byte) : (s.setFrame x).errCode = s.errCode := rfl
@[simp] theorem State.setFrame_errInfo (x : List Byte) : (s.setFrame x).errInfo = s.errInfo := rfl
@[simp] theorem State.setFrame_padchk (x : List Byte) : (s.setFrame x).padchk = s.padchk := rfl
@[simp] theorem State.setFrame_nblkMax (x : List Byte) : (s.setFrame x).nblkMax = s.nblkMax := rfl
@[simp] theorem State.setFrame_pending (x : List Byte) : (s.setFrame x).pending = s.pending := rfl
@[simp] theorem State.setFrame_response (x : List Byte) : (s.setFrame x).response = s.response := rfl

/-! `State.zeroiseState` -/

@[simp] theorem State.zeroiseState_key : (s.zeroiseState).key = s.key := rfl
@[simp] theorem State.zeroiseState_keyLen : (s.zeroiseState).keyLen = s.keyLen := rfl
@[simp] theorem State.zeroiseState_w : (s.zeroiseState).w = s.w := rfl
@[simp] theorem State.zeroiseState_nk : (s.zeroiseState).nk = s.nk := rfl
@[simp] theorem State.zeroiseState_nr : (s.zeroiseState).nr = s.nr := rfl
@[simp] theorem State.zeroiseState_kvalid : (s.zeroiseState).kvalid = s.kvalid := rfl
@[simp] theorem State.zeroiseState_cipherState : (s.zeroiseState).cipherState = Block.zero := rfl
@[simp] theorem State.zeroiseState_blk : (s.zeroiseState).blk = s.blk := rfl
@[simp] theorem State.zeroiseState_result : (s.zeroiseState).result = s.result := rfl
@[simp] theorem State.zeroiseState_msg : (s.zeroiseState).msg = s.msg := rfl
@[simp] theorem State.zeroiseState_msgLen : (s.zeroiseState).msgLen = s.msgLen := rfl
@[simp] theorem State.zeroiseState_raw : (s.zeroiseState).raw = s.raw := rfl
@[simp] theorem State.zeroiseState_rawLen : (s.zeroiseState).rawLen = s.rawLen := rfl
@[simp] theorem State.zeroiseState_frame : (s.zeroiseState).frame = s.frame := rfl
@[simp] theorem State.zeroiseState_frameLen : (s.zeroiseState).frameLen = s.frameLen := rfl
@[simp] theorem State.zeroiseState_errCode : (s.zeroiseState).errCode = s.errCode := rfl
@[simp] theorem State.zeroiseState_errInfo : (s.zeroiseState).errInfo = s.errInfo := rfl
@[simp] theorem State.zeroiseState_padchk : (s.zeroiseState).padchk = s.padchk := rfl
@[simp] theorem State.zeroiseState_nblkMax : (s.zeroiseState).nblkMax = s.nblkMax := rfl
@[simp] theorem State.zeroiseState_pending : (s.zeroiseState).pending = s.pending := rfl
@[simp] theorem State.zeroiseState_response : (s.zeroiseState).response = s.response := rfl

/-! `State.raise` -/

@[simp] theorem State.raise_key (e : CommandFailure) : (s.raise e).key = s.key := rfl
@[simp] theorem State.raise_keyLen (e : CommandFailure) : (s.raise e).keyLen = s.keyLen := rfl
@[simp] theorem State.raise_w (e : CommandFailure) : (s.raise e).w = s.w := rfl
@[simp] theorem State.raise_nk (e : CommandFailure) : (s.raise e).nk = s.nk := rfl
@[simp] theorem State.raise_nr (e : CommandFailure) : (s.raise e).nr = s.nr := rfl
@[simp] theorem State.raise_kvalid (e : CommandFailure) : (s.raise e).kvalid = s.kvalid := rfl
@[simp] theorem State.raise_cipherState (e : CommandFailure) : (s.raise e).cipherState = s.cipherState := rfl
@[simp] theorem State.raise_blk (e : CommandFailure) : (s.raise e).blk = s.blk := rfl
@[simp] theorem State.raise_result (e : CommandFailure) : (s.raise e).result = s.result := rfl
@[simp] theorem State.raise_msg (e : CommandFailure) : (s.raise e).msg = s.msg := rfl
@[simp] theorem State.raise_msgLen (e : CommandFailure) : (s.raise e).msgLen = s.msgLen := rfl
@[simp] theorem State.raise_raw (e : CommandFailure) : (s.raise e).raw = s.raw := rfl
@[simp] theorem State.raise_rawLen (e : CommandFailure) : (s.raise e).rawLen = s.rawLen := rfl
@[simp] theorem State.raise_frame (e : CommandFailure) : (s.raise e).frame = s.frame := rfl
@[simp] theorem State.raise_frameLen (e : CommandFailure) : (s.raise e).frameLen = s.frameLen := rfl
@[simp] theorem State.raise_errCode (e : CommandFailure) : (s.raise e).errCode = e.code := rfl
@[simp] theorem State.raise_errInfo (e : CommandFailure) : (s.raise e).errInfo = e.info := rfl
@[simp] theorem State.raise_padchk (e : CommandFailure) : (s.raise e).padchk = s.padchk := rfl
@[simp] theorem State.raise_nblkMax (e : CommandFailure) : (s.raise e).nblkMax = s.nblkMax := rfl
@[simp] theorem State.raise_pending (e : CommandFailure) : (s.raise e).pending = s.pending := rfl
@[simp] theorem State.raise_response (e : CommandFailure) : (s.raise e).response = s.response := rfl

/-! `State.commitSchedule` -/

@[simp] theorem State.commitSchedule_key (ks : KeySchedule) : (s.commitSchedule ks).key = s.key := rfl
@[simp] theorem State.commitSchedule_keyLen (ks : KeySchedule) : (s.commitSchedule ks).keyLen = s.keyLen := rfl
@[simp] theorem State.commitSchedule_w (ks : KeySchedule) : (s.commitSchedule ks).w = roundKeyMemory ks.words := rfl
@[simp] theorem State.commitSchedule_nk (ks : KeySchedule) : (s.commitSchedule ks).nk = BitVec.ofNat 32 ks.nk := rfl
@[simp] theorem State.commitSchedule_nr (ks : KeySchedule) : (s.commitSchedule ks).nr = BitVec.ofNat 32 ks.nr := rfl
@[simp] theorem State.commitSchedule_kvalid (ks : KeySchedule) : (s.commitSchedule ks).kvalid = true := rfl
@[simp] theorem State.commitSchedule_cipherState (ks : KeySchedule) : (s.commitSchedule ks).cipherState = s.cipherState := rfl
@[simp] theorem State.commitSchedule_blk (ks : KeySchedule) : (s.commitSchedule ks).blk = s.blk := rfl
@[simp] theorem State.commitSchedule_result (ks : KeySchedule) : (s.commitSchedule ks).result = s.result := rfl
@[simp] theorem State.commitSchedule_msg (ks : KeySchedule) : (s.commitSchedule ks).msg = s.msg := rfl
@[simp] theorem State.commitSchedule_msgLen (ks : KeySchedule) : (s.commitSchedule ks).msgLen = s.msgLen := rfl
@[simp] theorem State.commitSchedule_raw (ks : KeySchedule) : (s.commitSchedule ks).raw = s.raw := rfl
@[simp] theorem State.commitSchedule_rawLen (ks : KeySchedule) : (s.commitSchedule ks).rawLen = s.rawLen := rfl
@[simp] theorem State.commitSchedule_frame (ks : KeySchedule) : (s.commitSchedule ks).frame = s.frame := rfl
@[simp] theorem State.commitSchedule_frameLen (ks : KeySchedule) : (s.commitSchedule ks).frameLen = s.frameLen := rfl
@[simp] theorem State.commitSchedule_errCode (ks : KeySchedule) : (s.commitSchedule ks).errCode = s.errCode := rfl
@[simp] theorem State.commitSchedule_errInfo (ks : KeySchedule) : (s.commitSchedule ks).errInfo = s.errInfo := rfl
@[simp] theorem State.commitSchedule_padchk (ks : KeySchedule) : (s.commitSchedule ks).padchk = s.padchk := rfl
@[simp] theorem State.commitSchedule_nblkMax (ks : KeySchedule) : (s.commitSchedule ks).nblkMax = s.nblkMax := rfl
@[simp] theorem State.commitSchedule_pending (ks : KeySchedule) : (s.commitSchedule ks).pending = s.pending := rfl
@[simp] theorem State.commitSchedule_response (ks : KeySchedule) : (s.commitSchedule ks).response = s.response := rfl

/-! `State.writeCtrl` -/

@[simp] theorem State.writeCtrl_key (v : Word) : (s.writeCtrl v).key = s.key := rfl
@[simp] theorem State.writeCtrl_keyLen (v : Word) : (s.writeCtrl v).keyLen = s.keyLen := rfl
@[simp] theorem State.writeCtrl_w (v : Word) : (s.writeCtrl v).w = s.w := rfl
@[simp] theorem State.writeCtrl_nk (v : Word) : (s.writeCtrl v).nk = s.nk := rfl
@[simp] theorem State.writeCtrl_nr (v : Word) : (s.writeCtrl v).nr = s.nr := rfl
@[simp] theorem State.writeCtrl_kvalid (v : Word) : (s.writeCtrl v).kvalid = s.kvalid := rfl
@[simp] theorem State.writeCtrl_cipherState (v : Word) : (s.writeCtrl v).cipherState = s.cipherState := rfl
@[simp] theorem State.writeCtrl_blk (v : Word) : (s.writeCtrl v).blk = s.blk := rfl
@[simp] theorem State.writeCtrl_result (v : Word) : (s.writeCtrl v).result = s.result := rfl
@[simp] theorem State.writeCtrl_msg (v : Word) : (s.writeCtrl v).msg = s.msg := rfl
@[simp] theorem State.writeCtrl_msgLen (v : Word) : (s.writeCtrl v).msgLen = s.msgLen := rfl
@[simp] theorem State.writeCtrl_raw (v : Word) : (s.writeCtrl v).raw = s.raw := rfl
@[simp] theorem State.writeCtrl_rawLen (v : Word) : (s.writeCtrl v).rawLen = s.rawLen := rfl
@[simp] theorem State.writeCtrl_frame (v : Word) : (s.writeCtrl v).frame = s.frame := rfl
@[simp] theorem State.writeCtrl_frameLen (v : Word) : (s.writeCtrl v).frameLen = s.frameLen := rfl
@[simp] theorem State.writeCtrl_errCode (v : Word) : (s.writeCtrl v).errCode = s.errCode := rfl
@[simp] theorem State.writeCtrl_errInfo (v : Word) : (s.writeCtrl v).errInfo = s.errInfo := rfl
@[simp] theorem State.writeCtrl_padchk (v : Word) : (s.writeCtrl v).padchk = v.getLsbD 0 := rfl
@[simp] theorem State.writeCtrl_nblkMax (v : Word) : (s.writeCtrl v).nblkMax = s.nblkMax := rfl
@[simp] theorem State.writeCtrl_pending (v : Word) : (s.writeCtrl v).pending = s.pending := rfl
@[simp] theorem State.writeCtrl_response (v : Word) : (s.writeCtrl v).response = s.response := rfl

/-! `State.respond` -/

@[simp] theorem State.respond_key (r : Response) : (s.respond r).key = s.key := rfl
@[simp] theorem State.respond_keyLen (r : Response) : (s.respond r).keyLen = s.keyLen := rfl
@[simp] theorem State.respond_w (r : Response) : (s.respond r).w = s.w := rfl
@[simp] theorem State.respond_nk (r : Response) : (s.respond r).nk = s.nk := rfl
@[simp] theorem State.respond_nr (r : Response) : (s.respond r).nr = s.nr := rfl
@[simp] theorem State.respond_kvalid (r : Response) : (s.respond r).kvalid = s.kvalid := rfl
@[simp] theorem State.respond_cipherState (r : Response) : (s.respond r).cipherState = s.cipherState := rfl
@[simp] theorem State.respond_blk (r : Response) : (s.respond r).blk = s.blk := rfl
@[simp] theorem State.respond_result (r : Response) : (s.respond r).result = s.result := rfl
@[simp] theorem State.respond_msg (r : Response) : (s.respond r).msg = s.msg := rfl
@[simp] theorem State.respond_msgLen (r : Response) : (s.respond r).msgLen = s.msgLen := rfl
@[simp] theorem State.respond_raw (r : Response) : (s.respond r).raw = s.raw := rfl
@[simp] theorem State.respond_rawLen (r : Response) : (s.respond r).rawLen = s.rawLen := rfl
@[simp] theorem State.respond_frame (r : Response) : (s.respond r).frame = s.frame := rfl
@[simp] theorem State.respond_frameLen (r : Response) : (s.respond r).frameLen = s.frameLen := rfl
@[simp] theorem State.respond_errCode (r : Response) : (s.respond r).errCode = s.errCode := rfl
@[simp] theorem State.respond_errInfo (r : Response) : (s.respond r).errInfo = s.errInfo := rfl
@[simp] theorem State.respond_padchk (r : Response) : (s.respond r).padchk = s.padchk := rfl
@[simp] theorem State.respond_nblkMax (r : Response) : (s.respond r).nblkMax = s.nblkMax := rfl
@[simp] theorem State.respond_pending (r : Response) : (s.respond r).pending = s.pending := rfl
@[simp] theorem State.respond_response (r : Response) : (s.respond r).response = r := rfl

/-! `State.resetWith` -/

@[simp] theorem State.resetWith_key (n : Nat) : (State.resetWith n).key = Vector.replicate 32 0 := rfl
@[simp] theorem State.resetWith_keyLen (n : Nat) : (State.resetWith n).keyLen = 0 := rfl
@[simp] theorem State.resetWith_w (n : Nat) : (State.resetWith n).w = Vector.replicate 60 Quad.zero := rfl
@[simp] theorem State.resetWith_nk (n : Nat) : (State.resetWith n).nk = 0 := rfl
@[simp] theorem State.resetWith_nr (n : Nat) : (State.resetWith n).nr = 0 := rfl
@[simp] theorem State.resetWith_kvalid (n : Nat) : (State.resetWith n).kvalid = false := rfl
@[simp] theorem State.resetWith_cipherState (n : Nat) : (State.resetWith n).cipherState = Block.zero := rfl
@[simp] theorem State.resetWith_blk (n : Nat) : (State.resetWith n).blk = Block.zero := rfl
@[simp] theorem State.resetWith_result (n : Nat) : (State.resetWith n).result = 0 := rfl
@[simp] theorem State.resetWith_msg (n : Nat) : (State.resetWith n).msg = [] := rfl
@[simp] theorem State.resetWith_msgLen (n : Nat) : (State.resetWith n).msgLen = 0 := rfl
@[simp] theorem State.resetWith_raw (n : Nat) : (State.resetWith n).raw = [] := rfl
@[simp] theorem State.resetWith_rawLen (n : Nat) : (State.resetWith n).rawLen = 0 := rfl
@[simp] theorem State.resetWith_frame (n : Nat) : (State.resetWith n).frame = [] := rfl
@[simp] theorem State.resetWith_frameLen (n : Nat) : (State.resetWith n).frameLen = 0 := rfl
@[simp] theorem State.resetWith_errCode (n : Nat) : (State.resetWith n).errCode = 0 := rfl
@[simp] theorem State.resetWith_errInfo (n : Nat) : (State.resetWith n).errInfo = 0 := rfl
@[simp] theorem State.resetWith_padchk (n : Nat) : (State.resetWith n).padchk = true := rfl
@[simp] theorem State.resetWith_nblkMax (n : Nat) : (State.resetWith n).nblkMax = n := rfl
@[simp] theorem State.resetWith_pending (n : Nat) : (State.resetWith n).pending = [] := rfl
@[simp] theorem State.resetWith_response (n : Nat) : (State.resetWith n).response = .noTransaction := rfl

end Sys2Proof.Machine
end

