-- ==== Sys2Proof/Laws/Memory.lean ====
section
/-! SUPPORT. The laws of the byte buffers: reads after writes, and that every operation keeps the canonical form and the
capacity. -/

namespace Sys2Proof.Machine

@[simp] theorem Memory.read_nil (i : Nat) : Memory.read [] i = 0 := rfl

@[simp] theorem Memory.wf_nil : Memory.wf [] = true := rfl

@[simp] theorem Memory.below_nil (cap : Nat) : Memory.below cap [] = true := rfl

theorem Memory.wfFrom_cons {low k : Nat} {v : Byte} {rest : Memory} :
    Memory.wfFrom low ((k, v) :: rest) = true ↔ low ≤ k ∧ v ≠ 0 ∧ Memory.wfFrom (k + 1) rest = true := by
  simp [Memory.wfFrom, Memory.unlisted, and_assoc]

theorem Memory.wfFrom_mono {m : Memory} {low low' : Nat} (h : Memory.wfFrom low m = true) (hl : low' ≤ low) :
    Memory.wfFrom low' m = true := by
  cases m with
  | nil => rfl
  | cons c rest => rw [Memory.wfFrom_cons] at h ⊢; exact ⟨by omega, h.2⟩

/-- A canonical buffer holds 0 below its first listed index. -/
theorem Memory.read_below_first {m : Memory} {low i : Nat} (h : Memory.wfFrom low m = true) (hi : i < low) :
    m.read i = 0 := by
  induction m generalizing low with
  | nil => rfl
  | cons c rest ih =>
    rw [Memory.wfFrom_cons] at h
    have : c.1 ≠ i := by omega
    simp only [Memory.read, this, if_false]
    exact ih h.2.2 (by omega)

/-- Reading after one write, in a canonical buffer. -/
theorem Memory.read_write {m : Memory} {low : Nat} (h : Memory.wfFrom low m = true) (i j : Nat) (v : Byte) :
    (m.write i v).read j = if j = i then v else m.read j := by
  induction m generalizing low with
  | nil =>
    by_cases hv : v = Memory.unlisted
    · simp [Memory.write, hv, Memory.unlisted]
    · simp only [Memory.write, hv, if_false, Memory.read, eq_comm]
  | cons c rest ih =>
    obtain ⟨k, u⟩ := c
    rw [Memory.wfFrom_cons] at h
    have ih := ih h.2.2
    by_cases hik : i < k
    · have h0 : Memory.read ((k, u) :: rest) i = 0 :=
        Memory.read_below_first (low := k) (Memory.wfFrom_cons.2 ⟨Nat.le_refl k, h.2⟩) hik
      by_cases hv : v = Memory.unlisted
      · by_cases hj : j = i
        · simpa [Memory.write, hik, hv, hj, Memory.unlisted] using h0
        · simp [Memory.write, hik, hv, hj]
      · simp only [Memory.write, hik, hv, if_true, if_false]
        by_cases hj : j = i
        · simp [Memory.read, hj]
        · simp [Memory.read, Ne.symm hj, hj]
    · by_cases hek : i = k
      · have h0 : Memory.read rest i = 0 := Memory.read_below_first h.2.2 (by omega)
        by_cases hv : v = Memory.unlisted
        · by_cases hj : j = i
          · simpa [Memory.write, hek, hv, hj, Memory.unlisted] using hek ▸ h0
          · have : k ≠ j := by omega
            simp [Memory.write, hek, hv, Memory.read, this, Ne.symm this]
        · by_cases hj : j = i
          · simp [Memory.write, hek, hv, hj, Memory.read]
          · have : k ≠ j := by omega
            simp [Memory.write, hek, hv, Memory.read, this, Ne.symm this]
      · simp only [Memory.write, hik, hek, if_false]
        by_cases hkj : k = j
        · have : j ≠ i := by omega
          simp [Memory.read, hkj, this]
        · simp only [Memory.read, hkj, if_false]
          exact ih

/-- A write keeps the canonical form. -/
theorem Memory.wfFrom_write {m : Memory} {low : Nat} (h : Memory.wfFrom low m = true) {i : Nat} (hi : low ≤ i)
    (v : Byte) : Memory.wfFrom low (m.write i v) = true := by
  induction m generalizing low with
  | nil =>
    by_cases hv : v = Memory.unlisted
    · simp [Memory.write, hv, Memory.wfFrom]
    · simp [Memory.write, hv, Memory.wfFrom, hi]
  | cons c rest ih =>
    obtain ⟨k, u⟩ := c
    have h' := h
    rw [Memory.wfFrom_cons] at h
    by_cases hik : i < k
    · by_cases hv : v = Memory.unlisted
      · simpa [Memory.write, hik, hv] using h'
      · simp only [Memory.write, hik, hv, if_true, if_false]
        exact Memory.wfFrom_cons.2 ⟨hi, hv, Memory.wfFrom_cons.2 ⟨by omega, h.2⟩⟩
    · by_cases hek : i = k
      · by_cases hv : v = Memory.unlisted
        · simp only [Memory.write, hek, hv, if_true, Nat.lt_irrefl, if_false]
          exact Memory.wfFrom_mono h.2.2 (by omega)
        · simp only [Memory.write, hek, hv, if_true, Nat.lt_irrefl, if_false]
          exact Memory.wfFrom_cons.2 ⟨by omega, hv, h.2.2⟩
      · simp only [Memory.write, hik, hek, if_false]
        exact Memory.wfFrom_cons.2 ⟨h.1, h.2.1, ih h.2.2 (by omega)⟩

theorem Memory.wf_write {m : Memory} (h : m.wf = true) (i : Nat) (v : Byte) : (m.write i v).wf = true :=
  Memory.wfFrom_write h (Nat.zero_le i) v

/-- A write below the capacity keeps every cell below it. -/
theorem Memory.below_write {m : Memory} {cap : Nat} (h : m.below cap = true) {i : Nat} (hi : i < cap) (v : Byte) :
    (m.write i v).below cap = true := by
  induction m with
  | nil => by_cases hv : v = Memory.unlisted <;> simp [Memory.write, hv, Memory.below, hi]
  | cons c rest ih =>
    obtain ⟨k, u⟩ := c
    have hc : k < cap ∧ Memory.below cap rest = true := by simpa [Memory.below] using h
    have hcons : ∀ (j : Nat) (x : Byte) (m : Memory), j < cap → m.below cap = true →
        Memory.below cap ((j, x) :: m) = true := by
      intro j x m hj hm; simpa [Memory.below, hj] using hm
    unfold Memory.write
    split
    · split
      · exact h
      · exact hcons _ _ _ hi h
    · split
      · split
        · exact hc.2
        · exact hcons _ _ _ hi hc.2
      · exact hcons _ _ _ hc.1 (ih hc.2)

@[simp] theorem Memory.store_nil (m : Memory) (i : Nat) : m.store i [] = m := rfl

theorem Memory.store_cons (m : Memory) (i : Nat) (b : Byte) (bs : List Byte) :
    m.store i (b :: bs) = (m.write i b).store (i + 1) bs := rfl

/-- A store keeps the canonical form. -/
theorem Memory.wf_store {m : Memory} (h : m.wf = true) (i : Nat) (bs : List Byte) : (m.store i bs).wf = true := by
  induction bs generalizing m i with
  | nil => exact h
  | cons b bs ih => exact ih (Memory.wf_write h i b) (i + 1)

/-- A store that ends at or below the capacity keeps every cell below it. -/
theorem Memory.below_store {m : Memory} {cap : Nat} (h : m.below cap = true) {i : Nat} {bs : List Byte}
    (hb : i + bs.length ≤ cap) : (m.store i bs).below cap = true := by
  induction bs generalizing m i with
  | nil => exact h
  | cons b bs ih =>
    simp only [List.length_cons] at hb
    exact ih (Memory.below_write h (by omega) b) (by omega)

/-- Reading after a store, in a canonical buffer: the stored byte inside the stored range, the old byte outside. -/
theorem Memory.read_store {m : Memory} (h : m.wf = true) (i : Nat) (bs : List Byte) (j : Nat) :
    (m.store i bs).read j = if i ≤ j ∧ j < i + bs.length then bs.getD (j - i) 0 else m.read j := by
  induction bs generalizing m i with
  | nil => rw [if_neg (by simp only [List.length_nil]; omega)]; rfl
  | cons b bs ih =>
    rw [Memory.store_cons, ih (Memory.wf_write h i b), Memory.read_write h]
    by_cases h1 : i + 1 ≤ j ∧ j < i + 1 + bs.length
    · have h2 : i ≤ j ∧ j < i + (b :: bs).length := by simp only [List.length_cons]; omega
      rw [if_pos h1, if_pos h2, show j - i = (j - (i + 1)) + 1 by omega, List.getD_cons_succ]
    · rw [if_neg h1]
      by_cases h3 : j = i
      · have h2 : i ≤ j ∧ j < i + (b :: bs).length := by simp only [List.length_cons]; omega
        rw [if_pos h3, if_pos h2, show j - i = 0 by omega, List.getD_cons_zero]
      · have h2 : ¬ (i ≤ j ∧ j < i + (b :: bs).length) := by simp only [List.length_cons]; omega
        rw [if_neg h3, if_neg h2]

@[simp] theorem Memory.length_take (m : Memory) (n : Nat) : (m.take n).length = n := by
  simp [Memory.take]

theorem Memory.getD_take (m : Memory) {n i : Nat} (hi : i < n) : (m.take n).getD i 0 = m.read i := by
  simp [Memory.take, List.getD, hi]

/-- Reading back as many bytes as were stored at the start of a canonical buffer. -/
theorem Memory.take_store {m : Memory} (h : m.wf = true) (bs : List Byte) :
    (m.store 0 bs).take bs.length = bs := by
  apply List.ext_getElem (by simp)
  intro i h1 h2
  have hi : i < bs.length := h2
  have := Memory.getD_take (m.store 0 bs) hi
  rw [Memory.read_store h] at this
  simpa [List.getD, hi, h1] using this

/-- Canonical buffers that read alike are equal lists. -/
theorem Memory.ext_of_wf {m m' : Memory} {low : Nat} (h : Memory.wfFrom low m = true)
    (h' : Memory.wfFrom low m' = true) (hr : ∀ i, m.read i = m'.read i) : m = m' := by
  induction m generalizing m' low with
  | nil =>
    cases m' with
    | nil => rfl
    | cons c rest =>
      rw [Memory.wfFrom_cons] at h'
      have := hr c.1
      simp [Memory.read] at this
      exact absurd this.symm h'.2.1
  | cons c rest ih =>
    obtain ⟨k, v⟩ := c
    rw [Memory.wfFrom_cons] at h
    cases m' with
    | nil =>
      have := hr k
      simp [Memory.read] at this
      exact absurd this h.2.1
    | cons c' rest' =>
      obtain ⟨k', v'⟩ := c'
      rw [Memory.wfFrom_cons] at h'
      have hk : k = k' := by
        rcases Nat.lt_trichotomy k k' with hlt | heq | hlt
        · have h0 := Memory.read_below_first (low := k') (Memory.wfFrom_cons.2 ⟨Nat.le_refl k', h'.2⟩) hlt
          have := hr k
          rw [h0] at this
          simp [Memory.read] at this
          exact absurd this h.2.1
        · exact heq
        · have h0 := Memory.read_below_first (low := k) (Memory.wfFrom_cons.2 ⟨Nat.le_refl k, h.2⟩) hlt
          have := hr k'
          rw [h0] at this
          simp [Memory.read] at this
          exact absurd this.symm h'.2.1
      subst hk
      have hv : v = v' := by simpa [Memory.read] using hr k
      subst hv
      congr 1
      refine ih h.2.2 h'.2.2 fun i => ?_
      by_cases hik : k = i
      · subst hik
        rw [Memory.read_below_first h.2.2 (Nat.lt_succ_self k), Memory.read_below_first h'.2.2 (Nat.lt_succ_self k)]
      · simpa [Memory.read, hik] using hr i

/-- Storing twice at the start, the second time as many bytes, is storing the second time only. -/
theorem Memory.store_store {m : Memory} (h : m.wf = true) {xs ys : List Byte} (hl : ys.length = xs.length) :
    (m.store 0 xs).store 0 ys = m.store 0 ys := by
  have hx := Memory.wf_store h 0 xs
  refine Memory.ext_of_wf (low := 0) (Memory.wf_store hx 0 ys) (Memory.wf_store h 0 ys) fun i => ?_
  rw [Memory.read_store hx, Memory.read_store h, Memory.read_store h, hl]
  split <;> rfl

/-- Storing what is there changes nothing. -/
theorem Memory.store_take {m : Memory} (h : m.wf = true) (n : Nat) : m.store 0 (m.take n) = m := by
  refine Memory.ext_of_wf (low := 0) (Memory.wf_store h 0 _) h fun i => ?_
  rw [Memory.read_store h]
  split
  · next hi =>
    rw [Nat.sub_zero]
    exact Memory.getD_take m (by simpa using hi.2)
  · rfl

end Sys2Proof.Machine
end

