-- ==== Sys2Proof/Laws/Operands.lean ====
section
/-! SUPPORT. The laws of 4-byte groups and blocks: access by row and column, the block order, and the round trip between a
block and its sixteen bytes. -/

namespace Sys2Proof

open Sys2Proof.Machine

@[simp] theorem Quad.get_ofFn (f : Fin 4 → Byte) (j : Fin 4) : (Quad.ofFn f).get j = f j :=
  match j with
  | 0 | 1 | 2 | 3 => rfl

@[simp] theorem Quad.get_zero (j : Fin 4) : Quad.zero.get j = 0 :=
  match j with
  | 0 | 1 | 2 | 3 => rfl

@[simp] theorem Quad.get_map (f : Byte → Byte) (q : Quad) (j : Fin 4) : (q.map f).get j = f (q.get j) :=
  match j with
  | 0 | 1 | 2 | 3 => rfl

@[simp] theorem Quad.get_xor (p q : Quad) (j : Fin 4) : (p.xor q).get j = p.get j ^^^ q.get j :=
  match j with
  | 0 | 1 | 2 | 3 => rfl

theorem Quad.ext_get {p q : Quad} (h : ∀ j, p.get j = q.get j) : p = q := by
  cases p; cases q
  simpa [Quad.get] using And.intro (h 0) (And.intro (h 1) (And.intro (h 2) (h 3)))

@[simp] theorem Block.at_ofRowCol (f : Fin 4 → Fin 4 → Byte) (r c : Fin 4) : (Block.ofRowCol f).at r c = f r c := by
  unfold Block.at Block.ofRowCol
  match c with
  | 0 | 1 | 2 | 3 => simp [Block.col]

@[simp] theorem Block.at_zero (r c : Fin 4) : Block.zero.at r c = 0 := by
  unfold Block.at
  match c with
  | 0 | 1 | 2 | 3 => simp [Block.col, Block.zero]

@[simp] theorem Block.at_map (f : Byte → Byte) (x : Block) (r c : Fin 4) : (x.map f).at r c = f (x.at r c) := by
  unfold Block.at
  match c with
  | 0 | 1 | 2 | 3 => simp [Block.col, Block.map]

theorem Block.at_mapCols (f : Quad → Quad) (x : Block) (r c : Fin 4) : (x.mapCols f).at r c = (f (x.col c)).get r := by
  unfold Block.at
  match c with
  | 0 | 1 | 2 | 3 => simp [Block.col, Block.mapCols]

theorem Block.ext_at {x y : Block} (h : ∀ r c, x.at r c = y.at r c) : x = y := by
  have hc : ∀ c, x.col c = y.col c := fun c => Quad.ext_get fun r => h r c
  cases x; cases y
  simpa [Block.col] using And.intro (hc 0) (And.intro (hc 1) (And.intro (hc 2) (hc 3)))

@[simp] theorem Block.length_toList (x : Block) : x.toList.length = 16 := rfl

/-- Byte `4c + r` of a block in block order is its byte of row `r` and column `c`. -/
theorem Block.getD_toList (x : Block) (r c : Fin 4) : x.toList.getD (4 * c.val + r.val) 0 = x.at r c :=
  match r, c with
  | 0, 0 | 0, 1 | 0, 2 | 0, 3 | 1, 0 | 1, 1 | 1, 2 | 1, 3
  | 2, 0 | 2, 1 | 2, 2 | 2, 3 | 3, 0 | 3, 1 | 3, 2 | 3, 3 => rfl

@[simp] theorem Block.ofList_toList (x : Block) : Block.ofList x.toList = x :=
  Block.ext_at fun r c => by rw [Block.ofList, Block.at_ofRowCol, Block.getD_toList]

theorem Block.toList_ofRowCol (f : Fin 4 → Fin 4 → Byte) :
    (Block.ofRowCol f).toList = [f 0 0, f 1 0, f 2 0, f 3 0, f 0 1, f 1 1, f 2 1, f 3 1,
      f 0 2, f 1 2, f 2 2, f 3 2, f 0 3, f 1 3, f 2 3, f 3 3] := rfl

/-- A sequence of sixteen bytes is the byte list of the block it fills. -/
theorem Block.toList_ofList {bs : List Byte} (h : bs.length = 16) : (Block.ofList bs).toList = bs := by
  match bs, h with
  | [_, _, _, _, _, _, _, _, _, _, _, _, _, _, _, _], _ => rfl

/-- `at (rowOf i) (colOf i)` covers each row and column. -/
theorem get_eq_at (x : Block) (i : Fin 16) : x.get i = x.at (rowOf i) (colOf i) := rfl

/-- A block that two indices address at the same row and column is addressed by one index. -/
theorem index_eq_of_row_col {i j : Fin 16} (hr : rowOf i = rowOf j) (hc : colOf i = colOf j) : i = j := by
  have h1 : i.val % 4 = j.val % 4 := by simpa [rowOf] using hr
  have h2 : i.val / 4 = j.val / 4 := by simpa [colOf] using hc
  exact Fin.ext (by omega)

/-- Reading a byte of a block after writing one. -/
theorem Block.get_set (x : Block) (i j : Fin 16) (v : Byte) : (x.set i v).get j = if j = i then v else x.get j := by
  simp only [Block.get, Block.set, Block.at_ofRowCol]
  by_cases h : j = i
  · simp [h]
  · have : ¬ (rowOf j = rowOf i ∧ colOf j = colOf i) := fun hh => h (index_eq_of_row_col hh.1 hh.2)
    simp [h, this]

theorem Block.getD_toList_get (x : Block) (i : Fin 16) : x.toList.getD i.val 0 = x.get i := by
  have := Block.getD_toList x (rowOf i) (colOf i)
  simp only [rowOf, colOf] at this
  rw [show 4 * (i.val / 4) + i.val % 4 = i.val by omega] at this
  exact this

end Sys2Proof
end

