-- ==== Sys2Proof/Laws/Commands.lean ====
section
/-! SUPPORT. How a command ends: the two endings of the execution wrapper, said once, and what every command word and
every step can answer. -/

namespace Sys2Proof.Machine

@[simp] theorem State.complete_ok (s t : State) : s.complete (.ok t) = .next (t.withStatus 0 0) := rfl

@[simp] theorem State.complete_error (s : State) (e : CommandFailure) : s.complete (.error e) = .next (s.raise e) := rfl

/-- The wrapper's two endings (R89, R226). -/
theorem State.complete_cases {s t : State} {r : Except CommandFailure State} (h : s.complete r = .next t) :
    (∃ u, r = .ok u ∧ t = u.withStatus 0 0) ∨ ∃ e, r = .error e ∧ t = s.raise e := by
  cases r with
  | ok u => exact .inl ⟨u, rfl, by simpa using h.symm⟩
  | error e => exact .inr ⟨e, rfl, by simpa using h.symm⟩

theorem CommandFailure.code_ne_zero (e : CommandFailure) : e.code ≠ 0 := by
  cases e <;> decide

/-- No two errors have the same code and cause. -/
theorem CommandFailure.eq_of_code_info {e f : CommandFailure} (hc : e.code = f.code) (hi : e.info = f.info) : e = f := by
  revert hc hi; cases e <;> cases f <;> decide

/-- What a command computes, before the wrapper ends it. -/
def commandResult (i : Instr) (s : State) : Except CommandFailure State :=
  match i with
  | .gfmul a b => .ok { s with result := (gmul a b).setWidth 32 }
  | .keyexp => if legalKeyLength s.keyLen.toNat then .ok (s.commitSchedule s.schedule) else .error .keyLength
  | .ldstate => .ok { s with cipherState := s.blk }
  | .ststate => .ok { s with blk := s.cipherState }
  | .subbytes => .ok { s with cipherState := subBytes s.cipherState }
  | .shiftrows => .ok { s with cipherState := shiftRows s.cipherState }
  | .mixcolumns => .ok { s with cipherState := mixColumns s.cipherState }
  | .addroundkey r =>
    if s.kvalid = false then .error .noRoundKeys
    else if s.nr.toNat < r.toNat then .error .roundNumber
    else .ok { s with cipherState := addRoundKey (roundKey s.w.toList r.toNat) s.cipherState }
  | .invsubbytes => .ok { s with cipherState := invSubBytes s.cipherState }
  | .invshiftrows => .ok { s with cipherState := invShiftRows s.cipherState }
  | .invmixcolumns => .ok { s with cipherState := invMixColumns s.cipherState }
  | .encblk =>
    if s.kvalid = false then .error .noRoundKeys
    else .ok { s with blk := encryptBlock s.w.toList s.nr.toNat s.blk, cipherState := Block.zero }
  | .decblk =>
    if s.kvalid = false then .error .noRoundKeys
    else .ok { s with blk := decryptBlock s.w.toList s.nr.toNat s.blk, cipherState := Block.zero }
  | .pad =>
    if msgCap s.nblkMax < s.msgLen.toNat then .error .sourceLength
    else if rawCap s.nblkMax < paddedLength s.msgLen.toNat then .error .resultTooLong
    else .ok (s.setRaw (pad s.message))
  | .unpad =>
    if rawCap s.nblkMax < s.rawLen.toNat then .error .sourceLength
    else match unpad s.rawBytes s.padchk with
      | .error e => .error e
      | .ok m => .ok (s.setMessage m)
  | .ecbenc =>
    if s.kvalid = false then .error .noRoundKeys
    else if rawCap s.nblkMax < s.rawLen.toNat then .error .sourceLength
    else if s.rawLen.toNat % 16 ≠ 0 then .error .rawPartialBlock
    else .ok { s with raw := s.raw.store 0 (ecbEncrypt s.w.toList s.nr.toNat s.rawBytes), cipherState := Block.zero }
  | .ecbdec =>
    if s.kvalid = false then .error .noRoundKeys
    else if rawCap s.nblkMax < s.rawLen.toNat then .error .sourceLength
    else if s.rawLen.toNat % 16 ≠ 0 then .error .rawPartialBlock
    else .ok { s with raw := s.raw.store 0 (ecbDecrypt s.w.toList s.nr.toNat s.rawBytes), cipherState := Block.zero }
  | .b64enc =>
    if rawCap s.nblkMax < s.rawLen.toNat then .error .sourceLength
    else .ok (s.setFrame (b64enc s.rawBytes))
  | .b64dec =>
    if frameCap s.nblkMax < s.frameLen.toNat then .error .sourceLength
    else match b64dec s.frameText with
      | .error e => .error e
      | .ok x => if rawCap s.nblkMax < x.length then .error .resultTooLong else .ok (s.setRaw x)
  | .encrypt =>
    if !legalKeyLength s.keyLen.toNat then .error .keyLength
    else if msgCap s.nblkMax < s.msgLen.toNat then .error .sourceLength
    else if rawCap s.nblkMax < paddedLength s.msgLen.toNat then .error .resultTooLong
    else .ok ((((s.commitSchedule s.schedule).setRaw (ecbEncrypt s.schedule.words s.schedule.nr (pad s.message))).setFrame
      (b64enc (ecbEncrypt s.schedule.words s.schedule.nr (pad s.message)))).zeroiseState)
  | .decrypt =>
    if !legalKeyLength s.keyLen.toNat then .error .keyLength
    else if frameCap s.nblkMax < s.frameLen.toNat then .error .sourceLength
    else match b64dec s.frameText with
      | .error e => .error e
      | .ok y =>
        if y.length % 16 ≠ 0 then .error .framePartialBlock
        else if rawCap s.nblkMax < y.length then .error .resultTooLong
        else match unpad (ecbDecrypt s.schedule.words s.schedule.nr y) s.padchk with
          | .error e => .error e
          | .ok m => .ok (((s.commitSchedule s.schedule).setRaw
              (ecbDecrypt s.schedule.words s.schedule.nr y)).setMessage m).zeroiseState

/-- Every command is the execution wrapper around what it computes (R89, R226). -/
theorem exec_eq_complete (i : Instr) (s : State) : exec i s = s.complete (commandResult i s) := by
  cases i <;> rfl

/-- What a command word computes: its command, or the error it raises in decoding (R81). -/
def wordResult (c : Word) (s : State) : Except CommandFailure State :=
  match decode c with
  | .ok i => commandResult i s
  | .error e => .error (failureOf e)

/-- Every command word is the execution wrapper around what it computes. -/
theorem runCommand_eq_complete (c : Word) (s : State) : runCommand c s = s.complete (wordResult c s) := by
  unfold runCommand wordResult
  cases decode c with
  | ok i => exact exec_eq_complete i s
  | error e => rfl

theorem State.complete_is_next (s : State) (r : Except CommandFailure State) : ∃ t, s.complete r = .next t := by
  cases r <;> exact ⟨_, rfl⟩

/-- A command word always ends in a next state, and its write is then answered OK (R57, R60). -/
theorem answerCommand_runCommand (c : Word) (s : State) :
    ∃ t, runCommand c s = .next t ∧ answerCommand (runCommand c s) = .next (t.respond .okWrite) := by
  obtain ⟨t, ht⟩ := s.complete_is_next (wordResult c s)
  have hr := (runCommand_eq_complete c s).trans ht
  exact ⟨t, hr, by rw [hr]; rfl⟩

/-- A command that ends without an error: the state its computation committed, with STATUS cleared. -/
theorem State.complete_success {s t : State} {r : Except CommandFailure State} (h : s.complete r = .next t)
    (h0 : t.errCode = 0) : ∃ u, r = .ok u ∧ t = u.withStatus 0 0 := by
  rcases State.complete_cases h with h | ⟨e, -, rfl⟩
  · exact h
  · exact absurd h0 e.code_ne_zero

end Sys2Proof.Machine
end

