-- ==== Sys2Proof/Laws/Schedule.lean ====
section
/-! SUPPORT. The laws of the key schedule: its length, its first words, and the recurrence of R122 for every later word. -/

namespace Sys2Proof.Machine

theorem length_extendSchedule (nk n : Nat) (w : List Quad) : (extendSchedule nk n w).length = w.length + n := by
  induction n generalizing w with
  | zero => rfl
  | succ n ih => rw [extendSchedule, ih]; simp; omega

/-- Extending a schedule keeps the words it has. -/
theorem getD_extendSchedule_old (nk n : Nat) (w : List Quad) {i : Nat} (hi : i < w.length) :
    (extendSchedule nk n w).getD i .zero = w.getD i .zero := by
  induction n generalizing w with
  | zero => rfl
  | succ n ih =>
    rw [extendSchedule, ih _ (by simp; omega)]
    simp [List.getD, List.getElem?_append_left hi]

/-- A word of the schedule depends on the words before it only. -/
theorem scheduleWord_congr {nk i : Nat} {v w : List Quad} (h0 : 0 < nk) (hi : 0 < i)
    (h : ∀ j, j < i → v.getD j .zero = w.getD j .zero) : scheduleWord nk i v = scheduleWord nk i w := by
  unfold scheduleWord
  rw [h (i - 1) (by omega), h (i - nk) (by omega)]

/-- Every word added to a schedule is the one R122 gives for its index. -/
theorem getD_extendSchedule_new {nk : Nat} (h0 : 0 < nk) (n : Nat) (w : List Quad) {i : Nat} (h1 : 0 < w.length)
    (hw : w.length ≤ i) (hi : i < w.length + n) :
    (extendSchedule nk n w).getD i .zero = scheduleWord nk i (extendSchedule nk n w) := by
  induction n generalizing w with
  | zero => omega
  | succ n ih =>
    rw [extendSchedule]
    by_cases he : i = w.length
    · subst he
      rw [getD_extendSchedule_old _ _ _ (by simp)]
      rw [show (w ++ [scheduleWord nk w.length w]).getD w.length .zero = scheduleWord nk w.length w by
        simp [List.getD]]
      refine scheduleWord_congr h0 h1 fun j hj => ?_
      rw [getD_extendSchedule_old _ _ _ (by simp; omega)]
      simp [List.getD, List.getElem?_append_left hj]
    · exact ih _ (by simp) (by simp; omega) (by simp; omega)

theorem length_keyWords (k : List Byte) (nk : Nat) : (keyWords k nk).length = nk := by simp [keyWords]

theorem getD_keyWords (k : List Byte) {nk i : Nat} (hi : i < nk) :
    (keyWords k nk).getD i .zero = ⟨k.getD (4 * i) 0, k.getD (4 * i + 1) 0, k.getD (4 * i + 2) 0, k.getD (4 * i + 3) 0⟩ := by
  simp [keyWords, List.getD, hi]

/-- The length of a schedule is `4*(Nr+1)` words (R122). -/
theorem length_expandKey (k : List Byte) (n : Nat) : (expandKey k n).words.length = 4 * ((expandKey k n).nr + 1) := by
  simp only [expandKey, length_extendSchedule, length_keyWords]; omega

@[simp] theorem expandKey_nk (k : List Byte) (n : Nat) : (expandKey k n).nk = n / 4 := rfl

@[simp] theorem expandKey_nr (k : List Byte) (n : Nat) : (expandKey k n).nr = n / 4 + 6 := rfl

/-- The first `Nk` words of a schedule are the key's (R122). -/
theorem expandKey_first (k : List Byte) (n : Nat) {i : Nat} (hi : i < n / 4) :
    (expandKey k n).words.getD i .zero = (keyWords k (n / 4)).getD i .zero := by
  exact getD_extendSchedule_old _ _ _ (by rw [length_keyWords]; exact hi)

/-- Every later word of a schedule follows the recurrence (R122). -/
theorem expandKey_next (k : List Byte) {n i : Nat} (hn : 4 ≤ n) (hi : n / 4 ≤ i) (hi' : i < 4 * (n / 4 + 7)) :
    (expandKey k n).words.getD i .zero = scheduleWord (n / 4) i (expandKey k n).words := by
  refine getD_extendSchedule_new (by omega) _ _ ?_ ?_ ?_ <;> rw [length_keyWords] <;> omega

/-- What key expansion commits to W reads as the schedule, and as zero above it (R24, R121). -/
theorem getD_roundKeyMemory {words : List Quad} (hl : words.length ≤ 60) (i : Nat) :
    (roundKeyMemory words).toList.getD i .zero = words.getD i .zero := by
  have h : (roundKeyMemory words).toList = List.ofFn fun i : Fin 60 => words.getD i.val .zero := rfl
  rw [h, List.getD_eq_getElem?_getD, List.getElem?_ofFn]
  by_cases hi : i < 60
  · rw [dif_pos hi, Option.getD_some]
  · have : words[i]? = none := List.getElem?_eq_none (by omega)
    rw [dif_neg hi, List.getD_eq_getElem?_getD, this]

/-- The round-key memory after reset reads as zero everywhere (R41). -/
theorem getD_reset_words (i : Nat) : (Vector.replicate 60 Quad.zero).toList.getD i .zero = .zero := by
  rw [Vector.toList_replicate, List.getD_eq_getElem?_getD, List.getElem?_replicate]
  split <;> rfl

theorem legalKeyLength_iff {n : Nat} : legalKeyLength n = true ↔ n = 16 ∨ n = 24 ∨ n = 32 := by
  simp [legalKeyLength, or_assoc]

end Sys2Proof.Machine
end

