-- ==== Sys2Proof/Laws/Sequences.lean ====
section
/-! SUPPORT. The laws of the ECB sequencer and of padding lengths, on byte sequences. -/

namespace Sys2Proof.Machine

@[simp] theorem ecbMap_nil (f : Block → Block) : ecbMap f [] = [] := rfl

/-- Dropping one block more from a sequence that begins with a block. -/
theorem drop_block_append {b x : List Byte} (hb : b.length = 16) (k : Nat) :
    (b ++ x).drop (16 * (k + 1)) = x.drop (16 * k) := by
  rw [List.drop_append, List.drop_eq_nil_of_le (by omega), hb, List.nil_append]
  congr 1

/-- The first block of a sequence is transformed first, and the rest as a sequence of its own. -/
theorem ecbMap_append (f : Block → Block) {b x : List Byte} (hb : b.length = 16) :
    ecbMap f (b ++ x) = (f (Block.ofList b)).toList ++ ecbMap f x := by
  unfold ecbMap
  have hn : (b ++ x).length / 16 = x.length / 16 + 1 := by simp [hb]
  rw [hn, List.range_succ_eq_map, List.flatMap_cons]
  congr 1
  · simp [← hb]
  · rw [List.flatMap_map]
    congr 1
    funext k
    rw [drop_block_append hb]

/-- A whole number of blocks is empty, or a block and a whole number of blocks. -/
theorem blocks_cases {x : List Byte} (h : x.length % 16 = 0) :
    x = [] ∨ ∃ b y, b.length = 16 ∧ y.length % 16 = 0 ∧ x = b ++ y ∧ y.length < x.length := by
  by_cases h0 : x.length = 0
  · exact .inl (List.length_eq_zero_iff.1 h0)
  · refine .inr ⟨x.take 16, x.drop 16, ?_, ?_, (List.take_append_drop 16 x).symm, ?_⟩ <;>
      simp only [List.length_take, List.length_drop] <;> omega

/-- The sequencer keeps the length of a whole number of blocks. -/
theorem length_ecbMap (f : Block → Block) {x : List Byte} (h : x.length % 16 = 0) :
    (ecbMap f x).length = x.length := by
  unfold ecbMap
  rw [List.length_flatMap]
  simp only [Block.length_toList, List.map_const', List.length_range, List.sum_replicate_nat]
  omega

/-- If `g` undoes `f` on blocks, the sequencer with `g` undoes the sequencer with `f` on whole blocks. -/
theorem ecbMap_inverse {f g : Block → Block} (hfg : ∀ b, g (f b) = b) (n : Nat) {x : List Byte} (hn : x.length ≤ n)
    (h : x.length % 16 = 0) : ecbMap g (ecbMap f x) = x := by
  induction n generalizing x with
  | zero => rw [List.length_eq_zero_iff.1 (Nat.le_zero.1 hn), ecbMap_nil, ecbMap_nil]
  | succ n ih =>
    rcases blocks_cases h with rfl | ⟨b, y, hb, hy, rfl, hlt⟩
    · rw [ecbMap_nil, ecbMap_nil]
    · rw [ecbMap_append f hb, ecbMap_append g (Block.length_toList _), ih (by omega) hy, Block.ofList_toList, hfg,
        Block.toList_ofList hb]

/-- Byte `16k + j` of the sequencer's output, for a block `k` of the input. -/
theorem getD_ecbMap (f : Block → Block) {k j : Nat} (hj : j < 16) {x : List Byte} (h : x.length % 16 = 0)
    (hk : k < x.length / 16) :
    (ecbMap f x).getD (16 * k + j) 0 = (f (Block.ofList ((x.drop (16 * k)).take 16))).toList.getD j 0 := by
  induction k generalizing x with
  | zero =>
    rcases blocks_cases h with rfl | ⟨b, y, hb, hy, rfl, -⟩
    · simp at hk
    · rw [ecbMap_append f hb]
      have : j < (f (Block.ofList b)).toList.length := hj
      rw [List.getD_eq_getElem?_getD, List.getD_eq_getElem?_getD, Nat.mul_zero, Nat.zero_add, List.drop_zero,
        List.getElem?_append_left this, List.take_append_of_le_length (by omega), List.take_of_length_le (by omega)]
  | succ k ih =>
    rcases blocks_cases h with rfl | ⟨b, y, hb, hy, rfl, -⟩
    · simp at hk
    · have hk' : k < y.length / 16 := by simp only [List.length_append, hb] at hk; omega
      rw [ecbMap_append f hb, drop_block_append hb, ← ih hy hk', List.getD_eq_getElem?_getD, List.getD_eq_getElem?_getD,
        List.getElem?_append_right (by simp; omega)]
      simp only [Block.length_toList]
      rw [show 16 * (k + 1) + j - 16 = 16 * k + j by omega]

theorem padLength_pos (len : Nat) : 1 ≤ padLength len := by unfold padLength; omega

theorem padLength_le (len : Nat) : padLength len ≤ 16 := by unfold padLength; omega

theorem length_pad (m : List Byte) : (pad m).length = paddedLength m.length := by
  simp only [pad, List.length_append, List.length_replicate, padLength, paddedLength]; omega

/-- Unpadding never gives more bytes than it was given. -/
theorem length_unpad_le {x m : List Byte} {strict : Bool} (h : unpad x strict = .ok m) : m.length ≤ x.length := by
  unfold unpad at h
  split at h
  · cases h
  · split at h
    · cases h
    · split at h
      · cases h
      · split at h
        · cases h
        · cases h; simp

/-- Unpadding fails with a PaddingError only (R187, R223). -/
theorem unpad_error_code {x : List Byte} {strict : Bool} {e : CommandFailure} (h : unpad x strict = .error e) :
    e.code = 3 := by
  unfold unpad at h
  split at h
  · cases h; rfl
  · split at h
    · cases h; rfl
    · split at h
      · cases h; rfl
      · split at h
        · cases h; rfl
        · cases h

@[simp] theorem State.length_message (s : State) : s.message.length = s.msgLen.toNat := by simp [State.message]

@[simp] theorem State.length_rawBytes (s : State) : s.rawBytes.length = s.rawLen.toNat := by simp [State.rawBytes]

@[simp] theorem State.length_frameText (s : State) : s.frameText.length = s.frameLen.toNat := by simp [State.frameText]

/-- What a buffer and its length register hold after both are set from a sequence that a register can count (R30 to R32). -/
theorem Memory.take_store_ofNat {m : Memory} (h : m.wf = true) (xs : List Byte) (hl : xs.length < 2 ^ 32) :
    (m.store 0 xs).take (BitVec.ofNat 32 xs.length).toNat = xs := by
  rw [BitVec.toNat_ofNat, Nat.mod_eq_of_lt hl, Memory.take_store h]

end Sys2Proof.Machine
end

