-- ==== Sys2Proof/Laws/Base64.lean ====
section
/-! SUPPORT. The laws of the Base64 tables, groups and lengths. -/

namespace Sys2Proof.Machine

/-- `DEC` undoes `ENC` (R193). -/
@[simp] theorem b64Value_b64Char (v : BitVec 6) : b64Value (b64Char v) = some v := by
  revert v; decide

/-- `ENC` undoes `DEC` (R193). -/
theorem b64Char_of_b64Value {c : Byte} {v : BitVec 6} (h : b64Value c = some v) : b64Char v = c := by
  have key : ∀ c : Byte, (b64Value c).all (fun v => b64Char v == c) = true := by decide +kernel
  have := key c
  rw [h] at this
  simpa using this

@[simp] theorem b64Digit_b64Char (v : BitVec 6) : b64Digit (b64Char v) = v := by simp [b64Digit]

@[simp] theorem inAlphabet_b64Char (v : BitVec 6) : inAlphabet (b64Char v) = true := by simp [inAlphabet]

theorem b64Char_b64Digit {c : Byte} (h : inAlphabet c = true) : b64Char (b64Digit c) = c := by
  unfold inAlphabet at h
  obtain ⟨v, hv⟩ := Option.isSome_iff_exists.1 h
  rw [b64Digit, hv]
  exact b64Char_of_b64Value hv

@[simp] theorem inAlphabet_b64Pad : inAlphabet b64Pad = false := by decide

@[simp] theorem b64Digit_b64Pad : b64Digit b64Pad = 0 := by decide

/-- The length of a text: four characters for every three bytes begun (R195). -/
theorem length_b64enc (x : List Byte) : (b64enc x).length = 4 * ((x.length + 2) / 3) := by
  induction x using b64enc.induct with
  | case1 x0 x1 x2 rest ih => simp only [b64enc, List.length_append, ih, List.length_cons]; simp [b64Group]; omega
  | case2 x0 x1 => simp [b64enc, b64Group]
  | case3 x0 => simp [b64enc, b64Group]
  | case4 => rfl

/-- The length of the groups of a text, before the padding's bytes are dropped (R197). -/
theorem length_decodeGroups (f : List Byte) : (decodeGroups f).length = 3 * (f.length / 4) := by
  induction f using decodeGroups.induct with
  | case1 f0 f1 f2 f3 rest ih => simp only [decodeGroups, List.length_append, ih, List.length_cons]; simp [bytesOfGroup]; omega
  | case2 f h =>
    match f, h with
    | [], _ | [_], _ | [_, _], _ | [_, _, _], _ => simp [decodeGroups]
    | f0 :: f1 :: f2 :: f3 :: rest, h => exact absurd rfl (h f0 f1 f2 f3 rest)

/-- A decoded text has at most three bytes for every four characters (R197). -/
theorem length_b64dec_le {f x : List Byte} (h : b64dec f = .ok x) : x.length ≤ 3 * (f.length / 4) := by
  unfold b64dec at h
  split at h
  · cases h
  · split at h
    · cases h; simp
    · split at h
      · cases h
      · split at h
        · cases h; simp only [List.length_take, length_decodeGroups]; omega
        · cases h

/-- Decoding fails with an EncodingError of cause 1, 2 or 3 only (R197, R222). -/
theorem b64dec_error_cases {f : List Byte} {e : CommandFailure} (h : b64dec f = .error e) :
    e = .frameLength ∨ e = .frameCharacter ∨ e = .frameDiscardedBits := by
  unfold b64dec at h
  split at h
  · cases h; exact .inl rfl
  · split at h
    · cases h
    · split at h
      · cases h; exact .inr (.inl rfl)
      · split at h
        · cases h
        · cases h; exact .inr (.inr rfl)

end Sys2Proof.Machine
end

