-- ==== Sys2Proof/Laws/GaloisField.lean ====
section
/-! SUPPORT. The multiplier is additive in each factor, and an additive map of bytes, or of 4-byte groups, is known from
its values on the single bits: what lets a law of the field or of a column be checked on the bits only. -/

namespace Sys2Proof.Machine

theorem gmulShift_xor (a b : BitVec 9) : gmulShift (a ^^^ b) = gmulShift a ^^^ gmulShift b := by
  unfold gmulShift
  simp only [BitVec.shiftLeft_xor_distrib, BitVec.getLsbD_xor]
  generalize a <<< 1 = x
  generalize b <<< 1 = y
  cases x.getLsbD 8 <;> cases y.getLsbD 8 <;> simp
  · rw [BitVec.xor_assoc]
  · rw [BitVec.xor_assoc, BitVec.xor_comm y, BitVec.xor_assoc]
  · rw [BitVec.xor_assoc, ← BitVec.xor_assoc _ y, BitVec.xor_comm reductionPolynomial y, BitVec.xor_assoc y]; simp

theorem gmulLoop_xor_right (n : Nat) (p q : Byte) (aa : BitVec 9) (b c : Byte) :
    gmulLoop n (p ^^^ q) aa (b ^^^ c) = gmulLoop n p aa b ^^^ gmulLoop n q aa c := by
  induction n generalizing p q aa b c with
  | zero => rfl
  | succ n ih =>
    simp only [gmulLoop, BitVec.ushiftRight_xor_distrib, BitVec.getLsbD_xor]
    rw [← ih]
    congr 1
    generalize aa.setWidth 8 = d
    cases b.getLsbD 0 <;> cases c.getLsbD 0 <;> simp <;> ac_nf <;> simp

theorem gmulLoop_xor_left (n : Nat) (p q : Byte) (aa bb : BitVec 9) (c : Byte) :
    gmulLoop n (p ^^^ q) (aa ^^^ bb) c = gmulLoop n p aa c ^^^ gmulLoop n q bb c := by
  induction n generalizing p q aa bb c with
  | zero => rfl
  | succ n ih =>
    simp only [gmulLoop, gmulShift_xor]
    rw [← ih]
    congr 1
    cases c.getLsbD 0 <;> simp [BitVec.setWidth_xor] <;> ac_nf

/-- The multiplier is additive in its second factor. -/
theorem gmul_xor_right (a b c : Byte) : gmul a (b ^^^ c) = gmul a b ^^^ gmul a c := by
  simpa [gmul] using gmulLoop_xor_right 8 0 0 (a.setWidth 9) b c

/-- The multiplier is additive in its first factor. -/
theorem gmul_xor_left (a b c : Byte) : gmul (a ^^^ b) c = gmul a c ^^^ gmul b c := by
  simpa [gmul, BitVec.setWidth_xor] using gmulLoop_xor_left 8 0 0 (a.setWidth 9) (b.setWidth 9) c

/-- The bytes with one bit set. -/
def singleBits : List Byte := [0x01, 0x02, 0x04, 0x08, 0x10, 0x20, 0x40, 0x80]

/-- Every byte is the XOR of single bits. -/
theorem exists_singleBits (x : Byte) : ∃ ys : List Byte, (∀ y ∈ ys, y ∈ singleBits) ∧ x = ys.foldr (· ^^^ ·) 0 := by
  refine ⟨singleBits.filter (fun b => x &&& b ≠ 0), fun y hy => (List.mem_filter.1 hy).1, ?_⟩
  revert x; decide +kernel

/-- Additive maps of bytes that agree on the single bits are equal. -/
theorem byte_additive_ext {f g : Byte → Byte} (hf : ∀ x y, f (x ^^^ y) = f x ^^^ f y)
    (hg : ∀ x y, g (x ^^^ y) = g x ^^^ g y) (h : ∀ b ∈ singleBits, f b = g b) (x : Byte) : f x = g x := by
  have zero : ∀ {k : Byte → Byte}, (∀ x y, k (x ^^^ y) = k x ^^^ k y) → k 0 = 0 := fun hk => by simpa using hk 0 0
  obtain ⟨ys, hy, rfl⟩ := exists_singleBits x
  induction ys with
  | nil => exact (zero hf).trans (zero hg).symm
  | cons y ys ih =>
    rw [List.foldr_cons, hf, hg, h y (hy y List.mem_cons_self), ih fun z hz => hy z (List.mem_cons_of_mem y hz)]

@[simp] theorem Quad.xor_self (p : Quad) : p.xor p = .zero := by cases p; simp [Quad.xor, Quad.zero]

@[simp] theorem Quad.xor_xor_cancel (p k : Quad) : (p.xor k).xor k = p := by
  cases p; cases k; simp [Quad.xor, BitVec.xor_assoc]

/-- Additive maps of 4-byte groups that agree on the groups with one bit set are equal. -/
theorem quad_additive_ext {f g : Quad → Quad} (hf : ∀ p q, f (p.xor q) = (f p).xor (f q))
    (hg : ∀ p q, g (p.xor q) = (g p).xor (g q))
    (h : ∀ b ∈ singleBits, f ⟨b, 0, 0, 0⟩ = g ⟨b, 0, 0, 0⟩ ∧ f ⟨0, b, 0, 0⟩ = g ⟨0, b, 0, 0⟩
      ∧ f ⟨0, 0, b, 0⟩ = g ⟨0, 0, b, 0⟩ ∧ f ⟨0, 0, 0, b⟩ = g ⟨0, 0, 0, b⟩) (q : Quad) : f q = g q := by
  have zero : ∀ {k : Quad → Quad}, (∀ p q, k (p.xor q) = (k p).xor (k q)) → k .zero = .zero := by
    intro k hk; have := hk .zero .zero; rwa [Quad.xor_self, Quad.xor_self] at this
  have lane : ∀ m : Byte → Quad, (∀ x y, m (x ^^^ y) = (m x).xor (m y)) → (∀ b ∈ singleBits, f (m b) = g (m b)) →
      ∀ x, f (m x) = g (m x) := by
    intro m hm hb x
    obtain ⟨ys, hy, rfl⟩ := exists_singleBits x
    induction ys with
    | nil =>
      have h0 : m 0 = .zero := by have := hm 0 0; rw [Quad.xor_self] at this; simpa using this
      exact (congrArg f h0).trans ((zero hf).trans ((zero hg).symm.trans (congrArg g h0).symm))
    | cons y ys ih =>
      rw [List.foldr_cons, hm, hf, hg, hb y (hy y List.mem_cons_self), ih fun z hz => hy z (List.mem_cons_of_mem y hz)]
  obtain ⟨a, b, c, d⟩ := q
  have hq : (⟨a, b, c, d⟩ : Quad)
      = ((Quad.mk a 0 0 0).xor ⟨0, b, 0, 0⟩).xor ((Quad.mk 0 0 c 0).xor ⟨0, 0, 0, d⟩) := by simp [Quad.xor]
  rw [hq, hf, hg, hf, hg, hf, hg, lane (fun x => ⟨x, 0, 0, 0⟩) (by intro x y; simp [Quad.xor]) (fun b hb => (h b hb).1) a,
    lane (fun x => ⟨0, x, 0, 0⟩) (by intro x y; simp [Quad.xor]) (fun b hb => (h b hb).2.1) b,
    lane (fun x => ⟨0, 0, x, 0⟩) (by intro x y; simp [Quad.xor]) (fun b hb => (h b hb).2.2.1) c,
    lane (fun x => ⟨0, 0, 0, x⟩) (by intro x y; simp [Quad.xor]) (fun b hb => (h b hb).2.2.2) d]

end Sys2Proof.Machine
end

