-- ==== Sys2Proof/Laws/BlockTransform.lean ====
section
/-! SUPPORT. The laws of the round primitives as functions of the State: additivity of the column mixes, and that each
primitive is undone by its inverse. -/

namespace Sys2Proof.Machine

theorem mixColumn_xor (p q : Quad) : mixColumn (p.xor q) = (mixColumn p).xor (mixColumn q) := by
  simp only [mixColumn, Quad.xor, gmul_xor_right, Quad.mk.injEq]
  refine ⟨?_, ?_, ?_, ?_⟩ <;> ac_rfl

theorem invMixColumn_xor (p q : Quad) : invMixColumn (p.xor q) = (invMixColumn p).xor (invMixColumn q) := by
  simp only [invMixColumn, Quad.xor, gmul_xor_right, Quad.mk.injEq]
  refine ⟨?_, ?_, ?_, ?_⟩ <;> ac_rfl

/-- The matrices of R146 and R150 are inverse, checked on the single bits. -/
theorem columns_inverse_on_bits : ∀ b ∈ singleBits, ∀ q ∈ [Quad.mk b 0 0 0, ⟨0, b, 0, 0⟩, ⟨0, 0, b, 0⟩, ⟨0, 0, 0, b⟩],
    invMixColumn (mixColumn q) = q ∧ mixColumn (invMixColumn q) = q := by decide +kernel

@[simp] theorem invMixColumn_mixColumn (q : Quad) : invMixColumn (mixColumn q) = q := by
  refine quad_additive_ext (f := fun q => invMixColumn (mixColumn q)) (g := fun q => q)
    (fun p q => by rw [mixColumn_xor, invMixColumn_xor]) (fun _ _ => rfl) (fun b hb => ?_) q
  have := columns_inverse_on_bits b hb
  exact ⟨(this _ (by simp)).1, (this _ (by simp)).1, (this _ (by simp)).1, (this _ (by simp)).1⟩

@[simp] theorem mixColumn_invMixColumn (q : Quad) : mixColumn (invMixColumn q) = q := by
  refine quad_additive_ext (f := fun q => mixColumn (invMixColumn q)) (g := fun q => q)
    (fun p q => by rw [invMixColumn_xor, mixColumn_xor]) (fun _ _ => rfl) (fun b hb => ?_) q
  have := columns_inverse_on_bits b hb
  exact ⟨(this _ (by simp)).2, (this _ (by simp)).2, (this _ (by simp)).2, (this _ (by simp)).2⟩

@[simp] theorem invMixColumns_mixColumns (x : Block) : invMixColumns (mixColumns x) = x := by
  simp [mixColumns, invMixColumns, Block.mapCols]

@[simp] theorem mixColumns_invMixColumns (x : Block) : mixColumns (invMixColumns x) = x := by
  simp [mixColumns, invMixColumns, Block.mapCols]

/-- Rotating by a row's number and back is no move (R145, R149). -/
theorem rotate_back (c r : Fin 4) : c - r + r = c ∧ c + r - r = c := by
  revert c r; decide

@[simp] theorem invShiftRows_shiftRows (x : Block) : invShiftRows (shiftRows x) = x :=
  Block.ext_at fun r c => by simp [shiftRows, invShiftRows, (rotate_back c r).1]

@[simp] theorem shiftRows_invShiftRows (x : Block) : shiftRows (invShiftRows x) = x :=
  Block.ext_at fun r c => by simp [shiftRows, invShiftRows, (rotate_back c r).2]

@[simp] theorem addRoundKey_addRoundKey (k x : Block) : addRoundKey k (addRoundKey k x) = x := by
  simp [addRoundKey]

/-- Substitution commutes with the row rotation. -/
theorem shiftRows_subBytes (x : Block) : shiftRows (subBytes x) = subBytes (shiftRows x) :=
  Block.ext_at fun r c => by simp [shiftRows, subBytes]

/-- Inverse substitution commutes with the inverse row rotation. -/
theorem invShiftRows_invSubBytes (x : Block) : invShiftRows (invSubBytes x) = invSubBytes (invShiftRows x) :=
  Block.ext_at fun r c => by simp [invShiftRows, invSubBytes]

/-- A round's number within a byte is itself. -/
theorem toNat_ofNat_round {r : Nat} (h : r < 256) : (BitVec.ofNat 8 r).toNat = r := by
  rw [BitVec.toNat_ofNat, Nat.mod_eq_of_lt h]

/-- The round keys read from W after a key expansion are those of the schedule (R121, R126). -/
theorem roundKey_roundKeyMemory {words : List Quad} (hl : words.length ≤ 60) (r : Nat) :
    roundKey (roundKeyMemory words).toList r = roundKey words r := by
  simp only [roundKey, getD_roundKeyMemory hl]

/-- The middle rounds of encryption depend on the round keys only (R151). -/
theorem encryptRounds_congr {v w : List Quad} (h : ∀ r, roundKey v r = roundKey w r) (n : Nat) (x : Block) :
    encryptRounds v n x = encryptRounds w n x := by
  induction n with
  | zero => rfl
  | succ n ih => rw [encryptRounds, encryptRounds, ih, encryptRound, encryptRound, h]

/-- The middle rounds of decryption depend on the round keys only (R152). -/
theorem decryptRounds_congr {v w : List Quad} (h : ∀ r, roundKey v r = roundKey w r) (n : Nat) (x : Block) :
    decryptRounds v n x = decryptRounds w n x := by
  induction n generalizing x with
  | zero => rfl
  | succ n ih => rw [decryptRounds, decryptRounds, ih, decryptRound, decryptRound, h]

/-- A block's encryption depends on the round keys only (R151). -/
theorem encryptBlock_congr {v w : List Quad} (h : ∀ r, roundKey v r = roundKey w r) (nr : Nat) :
    encryptBlock v nr = encryptBlock w nr := by
  funext b; unfold encryptBlock; rw [encryptRounds_congr h, h, h]

/-- A block's decryption depends on the round keys only (R152). -/
theorem decryptBlock_congr {v w : List Quad} (h : ∀ r, roundKey v r = roundKey w r) (nr : Nat) :
    decryptBlock v nr = decryptBlock w nr := by
  funext b; unfold decryptBlock; rw [decryptRounds_congr h, h, h]

end Sys2Proof.Machine
end

