-- ==== Sys2Proof/Laws/Bus.lean ====
section
/-! SUPPORT. The laws of the bus and the step: what each kind of event can do, said once, and that the offset of an address
is its low 22 bits. -/

namespace Sys2Proof.Machine

/-- An event's step: the event is taken from the queue and transacted. -/
theorem step_of_pending {s : State} {e : HostEvent} {rest : List HostEvent} (h : s.pending = e :: rest) :
    step s = transact e { s with pending := rest } := by
  unfold step takeEvent
  rw [h]

theorem step_of_idle {s : State} (h : s.pending = []) : step s = .next s := by
  unfold step takeEvent
  rw [h]

theorem offsetOf_add_base {base o : Nat} (h : base % 2 ^ 22 = 0) : offsetOf (base + o) = offsetOf o := by
  simp only [offsetOf, Config.addressBits]; omega

@[simp] theorem State.answerWrite_some (s t : State) : s.answerWrite (some t) = t.respond .okWrite := rfl

@[simp] theorem State.answerWrite_none (s : State) : s.answerWrite none = s.respond .busError := rfl

/-- An offset is a register's only if it is a multiple of 4 below 0x2c (R42). -/
theorem registerAt_eq_none {o : Nat} (h : o % 4 ≠ 0 ∨ 0x2c ≤ o) : registerAt o = none := by
  unfold registerAt
  split <;> simp_all

/-- Everything one event can do to the state: answer a read or reject a transaction, write a byte or a register, run a
command word, or reset. -/
theorem transact_cases {e : HostEvent} {s t : State} (h : transact e s = .next t) :
    (∃ r, t = s.respond r)
    ∨ (∃ addr v c u, e = .memWrite8 addr v ∧ byteCellAt s.nblkMax (offsetOf addr) = some c
        ∧ s.writeCell c v = some u ∧ t = u.respond .okWrite)
    ∨ (∃ addr v r u, e = .memWrite32 addr v ∧ registerAt (offsetOf addr) = some r
        ∧ s.writeRegister r v = some u ∧ t = u.respond .okWrite)
    ∨ (∃ addr v u, e = .memWrite32 addr v ∧ registerAt (offsetOf addr) = some .cmd
        ∧ runCommand v s = .next u ∧ t = u.respond .okWrite)
    ∨ (e = .reset ∧ t = s.resetEvent) := by
  cases e with
  | memRead8 addr =>
    simp only [transact, State.memRead8, Host.Outcome.next.injEq] at h
    split at h <;> exact .inl ⟨_, h.symm⟩
  | memRead32 addr =>
    simp only [transact, State.memRead32, Host.Outcome.next.injEq] at h
    split at h <;> exact .inl ⟨_, h.symm⟩
  | memWrite8 addr v =>
    simp only [transact, State.memWrite8, Host.Outcome.next.injEq] at h
    split at h
    · next c hc =>
      cases hw : s.writeCell c v with
      | none => rw [hw] at h; exact .inl ⟨_, h.symm⟩
      | some u => rw [hw] at h; exact .inr (.inl ⟨addr, v, c, u, rfl, hc, hw, h.symm⟩)
    · exact .inl ⟨_, h.symm⟩
  | memWrite32 addr v =>
    simp only [transact, State.memWrite32] at h
    split at h
    · next hr =>
      obtain ⟨u, hu, ha⟩ := answerCommand_runCommand v s
      rw [ha] at h
      exact .inr (.inr (.inr (.inl ⟨addr, v, u, rfl, hr, hu, by simpa using h.symm⟩)))
    · next r _ hr =>
      simp only [Host.Outcome.next.injEq] at h
      cases hw : s.writeRegister r v with
      | none => rw [hw] at h; exact .inl ⟨_, h.symm⟩
      | some u => rw [hw] at h; exact .inr (.inr (.inl ⟨addr, v, r, u, rfl, hr, hw, h.symm⟩))
    · simp only [Host.Outcome.next.injEq] at h
      exact .inl ⟨_, h.symm⟩
  | reset =>
    simp only [transact, Host.Outcome.next.injEq] at h
    exact .inr (.inr (.inr (.inr ⟨rfl, h.symm⟩)))

/-- The offset of a byte of the address map (R52). -/
def ByteCell.offset : ByteCell → Nat
  | .key i => 0x100 + i.val
  | .blk i => 0x120 + i.val
  | .cipherState i => 0x130 + i.val
  | .roundKey i j => 0x200 + (4 * i.val + j.val)
  | .sbox x => 0x400 + x.toNat
  | .invSbox x => 0x500 + x.toNat
  | .rcon j => 0x600 + j.val
  | .msg i => 0x100000 + i
  | .raw i => 0x200000 + i
  | .frame i => 0x300000 + i

/-- A cell of a core of this size: a buffer's index lies below the buffer's capacity (R52). -/
def ByteCell.exists (n : Nat) : ByteCell → Prop
  | .msg i => i < msgCap n
  | .raw i => i < rawCap n
  | .frame i => i < frameCap n
  | .key _ => True
  | .blk _ => True
  | .cipherState _ => True
  | .roundKey _ _ => True
  | .sbox _ => True
  | .invSbox _ => True
  | .rcon _ => True

/-- The address map sends an offset only to the cell that has it, so no two offsets share a cell (R52). -/
theorem offset_of_byteCellAt {n o : Nat} {c : ByteCell} (h : byteCellAt n o = some c) : c.offset = o ∧ c.exists n := by
  unfold byteCellAt at h
  by_cases h0 : 0x100 ≤ o ∧ o < 0x120
  · rw [dif_pos h0, Option.some.injEq] at h
    subst h
    simp only [ByteCell.offset, ByteCell.exists, and_true]; omega
  rw [dif_neg h0] at h
  by_cases h1 : 0x120 ≤ o ∧ o < 0x130
  · rw [dif_pos h1, Option.some.injEq] at h
    subst h
    simp only [ByteCell.offset, ByteCell.exists, and_true]; omega
  rw [dif_neg h1] at h
  by_cases h2 : 0x130 ≤ o ∧ o < 0x140
  · rw [dif_pos h2, Option.some.injEq] at h
    subst h
    simp only [ByteCell.offset, ByteCell.exists, and_true]; omega
  rw [dif_neg h2] at h
  by_cases h3 : 0x200 ≤ o ∧ o < 0x2f0
  · rw [dif_pos h3, Option.some.injEq] at h
    subst h
    simp only [ByteCell.offset, ByteCell.exists, and_true]; omega
  rw [dif_neg h3] at h
  by_cases h4 : 0x400 ≤ o ∧ o < 0x500
  · rw [if_pos h4, Option.some.injEq] at h
    subst h
    simp only [ByteCell.offset, ByteCell.exists, and_true, BitVec.toNat_ofNat]; omega
  rw [if_neg h4] at h
  by_cases h5 : 0x500 ≤ o ∧ o < 0x600
  · rw [if_pos h5, Option.some.injEq] at h
    subst h
    simp only [ByteCell.offset, ByteCell.exists, and_true, BitVec.toNat_ofNat]; omega
  rw [if_neg h5] at h
  by_cases h6 : 0x600 ≤ o ∧ o < 0x60a
  · rw [dif_pos h6, Option.some.injEq] at h
    subst h
    simp only [ByteCell.offset, ByteCell.exists, and_true]; omega
  rw [dif_neg h6] at h
  by_cases h7 : 0x100000 ≤ o ∧ o < 0x100000 + msgCap n
  · rw [if_pos h7, Option.some.injEq] at h
    subst h
    simp only [ByteCell.offset, ByteCell.exists]; omega
  rw [if_neg h7] at h
  by_cases h8 : 0x200000 ≤ o ∧ o < 0x200000 + rawCap n
  · rw [if_pos h8, Option.some.injEq] at h
    subst h
    simp only [ByteCell.offset, ByteCell.exists]; omega
  rw [if_neg h8] at h
  by_cases h9 : 0x300000 ≤ o ∧ o < 0x300000 + frameCap n
  · rw [if_pos h9, Option.some.injEq] at h
    subst h
    simp only [ByteCell.offset, ByteCell.exists]; omega
  rw [if_neg h9] at h
  cases h

/-- The address map finds every cell at its offset (R52). -/
theorem byteCellAt_offset {n o : Nat} (hn : n ≤ 49152) {c : ByteCell} (hc : c.exists n) (ho : o = c.offset) :
    byteCellAt n o = some c := by
  have hm : msgCap n ≤ 0x100000 ∧ rawCap n ≤ 0x100000 ∧ frameCap n ≤ 0x100000 := by
    simp only [msgCap, rawCap, frameCap]; omega
  unfold byteCellAt
  cases c <;> simp only [ByteCell.offset, ByteCell.exists] at hc ho
  case key i => rw [dif_pos (by omega)]; simp [ho]
  case blk i => rw [dif_neg (by omega), dif_pos (by omega)]; simp [ho]
  case cipherState i => rw [dif_neg (by omega), dif_neg (by omega), dif_pos (by omega)]; simp [ho]
  case roundKey i j =>
    rw [dif_neg (by omega), dif_neg (by omega), dif_neg (by omega), dif_pos (by omega)]
    have h1 : (o - 0x200) / 4 = i.val := by omega
    have h2 : (o - 0x200) % 4 = j.val := by omega
    simp only [h1, h2]
  case sbox x =>
    have := x.isLt
    rw [dif_neg (by omega), dif_neg (by omega), dif_neg (by omega), dif_neg (by omega), if_pos (by omega)]
    simp [ho]
  case invSbox x =>
    have := x.isLt
    rw [dif_neg (by omega), dif_neg (by omega), dif_neg (by omega), dif_neg (by omega), if_neg (by omega),
      if_pos (by omega)]
    simp [ho]
  case rcon j =>
    rw [dif_neg (by omega), dif_neg (by omega), dif_neg (by omega), dif_neg (by omega), if_neg (by omega),
      if_neg (by omega), dif_pos (by omega)]
    simp [ho]
  case msg i =>
    rw [dif_neg (by omega), dif_neg (by omega), dif_neg (by omega), dif_neg (by omega), if_neg (by omega),
      if_neg (by omega), dif_neg (by omega), if_pos (by omega)]
    simp [ho]
  case raw i =>
    rw [dif_neg (by omega), dif_neg (by omega), dif_neg (by omega), dif_neg (by omega), if_neg (by omega),
      if_neg (by omega), dif_neg (by omega), if_neg (by omega), if_pos (by omega)]
    simp [ho]
  case frame i =>
    rw [dif_neg (by omega), dif_neg (by omega), dif_neg (by omega), dif_neg (by omega), if_neg (by omega),
      if_neg (by omega), dif_neg (by omega), if_neg (by omega), if_neg (by omega), if_pos (by omega)]
    simp [ho]

/-- A buffer's cell lies below the buffer's capacity (R52). -/
theorem byteCellAt_buffer {n o : Nat} {c : ByteCell} (h : byteCellAt n o = some c) :
    (∀ i, c = .msg i → i < msgCap n) ∧ (∀ i, c = .raw i → i < rawCap n) ∧ ∀ i, c = .frame i → i < frameCap n := by
  have hc := (offset_of_byteCellAt h).2
  refine ⟨fun i hi => ?_, fun i hi => ?_, fun i hi => ?_⟩ <;> subst hi <;> exact hc

/-- What a write of a writable cell does to every cell (R57). -/
theorem State.readCell_writeCell {s u : State} {c : ByteCell} {v : Byte} (hm : s.msg.wf = true) (hr : s.raw.wf = true)
    (hf : s.frame.wf = true) (h : s.writeCell c v = some u) (d : ByteCell) :
    u.readCell d = if d = c then v else s.readCell d := by
  cases c <;> simp only [State.writeCell, Option.some.injEq, reduceCtorEq] at h <;> subst h <;> cases d <;>
    simp [State.readCell, Block.get_set, Vector.getElem_set, Fin.ext_iff, eq_comm, Memory.read_write (low := 0) hm,
      Memory.read_write (low := 0) hr, Memory.read_write (low := 0) hf]

end Sys2Proof.Machine
end

