-- ==== Sys2Proof/Machine/HostScript.lean ====
section
/-! DEFINITION. The host scripts of the spec (R88): each line expands to the bus transactions or the reset event it
stands for, in order. A script is not part of the core: it is a way to write down what the host will issue. -/

namespace Sys2Proof.Machine

/-- The offset of a register (R42). -/
def Register.offset : Register → Nat
  | .cmd => 0x000000
  | .status => 0x000004
  | .ctrl => 0x000008
  | .keyLen => 0x00000c
  | .nk => 0x000010
  | .nr => 0x000014
  | .result => 0x000018
  | .msgLen => 0x00001c
  | .rawLen => 0x000020
  | .frameLen => 0x000024
  | .nblkMax => 0x000028

/-- The byte ranges of R52 by name. -/
inductive ByteArrayName where
  | key
  | blk
  | cipherState
  | roundKeys
  | sbox
  | invSbox
  | rcon
  | msg
  | raw
  | frame
  deriving DecidableEq, Repr

/-- The offset of byte 0 of a byte range (R52). -/
def ByteArrayName.base : ByteArrayName → Nat
  | .key => 0x000100
  | .blk => 0x000120
  | .cipherState => 0x000130
  | .roundKeys => 0x000200
  | .sbox => 0x000400
  | .invSbox => 0x000500
  | .rcon => 0x000600
  | .msg => 0x100000
  | .raw => 0x200000
  | .frame => 0x300000

/-- The lines of a host script (R88). -/
inductive ScriptLine where
  | wr32 (r : Register) (v : Word)
  | rd32 (r : Register)
  | wr8 (a : ByteArrayName) (i : Nat) (v : Byte)
  | rd8 (a : ByteArrayName) (i : Nat)
  /-- A mnemonic with its operands. -/
  | command (i : Instr)
  | load (a : ByteArrayName) (bs : List Byte)
  | setkey (bs : List Byte)
  | setmsg (bs : List Byte)
  | setraw (bs : List Byte)
  /-- The text as its ASCII codes. -/
  | setframe (text : List Byte)
  | reset
  deriving DecidableEq, Repr

/-- `wr32 REG, v`. -/
def writeRegisterEvent (r : Register) (v : Word) : HostEvent := .memWrite32 r.offset v

/-- One write per byte, in order, from offset `o` on: what `load` expands to. -/
def loadEvents : Nat → List Byte → List HostEvent
  | _, [] => []
  | o, b :: rest => .memWrite8 o b :: loadEvents (o + 1) rest

/-- `load ARR, bytes` and then the number of bytes into a length register. -/
def setEvents (a : ByteArrayName) (bs : List Byte) (len : Register) (n : Nat) : List HostEvent :=
  loadEvents a.base bs ++ [writeRegisterEvent len (BitVec.ofNat 32 n)]

/-- The events a line expands to (R88). `setkey` loads the first 32 bytes at most and writes the number given. -/
def ScriptLine.events : ScriptLine → List HostEvent
  | .wr32 r v => [writeRegisterEvent r v]
  | .rd32 r => [.memRead32 r.offset]
  | .wr8 a i v => [.memWrite8 (a.base + i) v]
  | .rd8 a i => [.memRead8 (a.base + i)]
  | .command i => [writeRegisterEvent .cmd (encode i)]
  | .load a bs => loadEvents a.base bs
  | .setkey bs => setEvents .key (bs.take 32) .keyLen bs.length
  | .setmsg bs => setEvents .msg bs .msgLen bs.length
  | .setraw bs => setEvents .raw bs .rawLen bs.length
  | .setframe text => setEvents .frame text .frameLen text.length
  | .reset => [.reset]

/-- The events of a script, line after line (R88). -/
def scriptEvents (ls : List ScriptLine) : List HostEvent := ls.flatMap ScriptLine.events

/-- `s` with a script's events as what the host will issue next. -/
def State.withScript (s : State) (ls : List ScriptLine) : State := { s with pending := scriptEvents ls ++ s.pending }

end Sys2Proof.Machine
end

