-- ==== Sys2Proof/Laws/HostScript.lean ====
section
/-! SUPPORT. The laws of host scripts: the registers stand at their offsets, and a script's events follow one another. -/

namespace Sys2Proof.Machine

theorem registerAt_offset (r : Register) : registerAt r.offset = some r := by cases r <;> rfl

theorem registerAt_eq_some {o : Nat} {r : Register} (h : registerAt o = some r) : o = r.offset := by
  unfold registerAt at h
  split at h <;> cases h <;> rfl

@[simp] theorem scriptEvents_nil : scriptEvents [] = [] := rfl

@[simp] theorem scriptEvents_cons (l : ScriptLine) (ls : List ScriptLine) :
    scriptEvents (l :: ls) = l.events ++ scriptEvents ls := rfl

theorem loadEvents_length (o : Nat) (bs : List Byte) : (loadEvents o bs).length = bs.length := by
  induction bs generalizing o with
  | nil => rfl
  | cons b rest ih => simp [loadEvents, ih]

end Sys2Proof.Machine
end

