-- ==== Sys2Proof/Laws/PerInstr.lean ====
section
/-! SUPPORT. What holds of every command as syntax, said command by command: its own fields are well formed for the operands
it takes, so every command has a legal word (R80 to R82). -/

namespace Sys2Proof.Laws.WellFormedFields

/-- The fields of a command's word leave nothing set that the command does not use. -/
def Statement (i : Instr) : Prop := i.wellFormed = true

theorem gfmul (a b : Byte) : Statement (.gfmul a b) := rfl

theorem keyexp : Statement .keyexp := rfl

theorem ldstate : Statement .ldstate := rfl

theorem ststate : Statement .ststate := rfl

theorem subbytes : Statement .subbytes := rfl

theorem shiftrows : Statement .shiftrows := rfl

theorem mixcolumns : Statement .mixcolumns := rfl

theorem addroundkey (r : Byte) : Statement (.addroundkey r) := rfl

theorem invsubbytes : Statement .invsubbytes := rfl

theorem invshiftrows : Statement .invshiftrows := rfl

theorem invmixcolumns : Statement .invmixcolumns := rfl

theorem encblk : Statement .encblk := rfl

theorem decblk : Statement .decblk := rfl

theorem pad : Statement .pad := rfl

theorem unpad : Statement .unpad := rfl

theorem ecbenc : Statement .ecbenc := rfl

theorem ecbdec : Statement .ecbdec := rfl

theorem b64enc : Statement .b64enc := rfl

theorem b64dec : Statement .b64dec := rfl

theorem encrypt : Statement .encrypt := rfl

theorem decrypt : Statement .decrypt := rfl

end Sys2Proof.Laws.WellFormedFields
end

