-- ==== Sys2Proof/Tests/Slice0.lean ====
section
/-! SUPPORT. The author's tests: ill-formed fields refused, words written out from the spec's encodings, single steps
against the spec's vectors (95_test_vectors.md), and a witness for the hypotheses of every obligation that has some. -/

namespace Sys2Proof.Tests

open Sys2Proof Sys2Proof.Machine Sys2Proof.Claims

-- One theorem after another: the many kernel evaluations below need not hold a thread each.
set_option Elab.async false

/-! ## Helpers -/

/-- `n` bytes written as one hexadecimal number, first byte first. -/
def hex (n v : Nat) : List Byte := (List.range n).map fun i => BitVec.ofNat 8 (v >>> (8 * (n - 1 - i)))

/-- The ASCII codes of a text. -/
def ascii (t : String) : List Byte := t.toList.map fun c => BitVec.ofNat 8 c.toNat

/-- Why the decoder rejects a word. -/
def rejection (c : Word) : Option DecodeError :=
  match decode c with
  | .ok _ => none
  | .error e => some e

/-- The state a command leaves. -/
def after (i : Instr) (s : State) : State :=
  match exec i s with
  | .next t => t
  | _ => s

theorem exec_after (i : Instr) (s : State) : exec i s = .next (after i s) := by
  obtain ⟨t, ht⟩ := s.complete_is_next (commandResult i s)
  have h := (exec_eq_complete i s).trans ht
  unfold after
  rw [h]

/-- The state a step leaves. -/
def afterStep (s : State) : State :=
  match step s with
  | .next t => t
  | _ => s

/-- The state after reset with a key of `n` bytes in KEY and KEYLEN. -/
def withKey (n v : Nat) : State :=
  { State.reset with key := Vector.ofFn fun i => (hex n v).getD i.val 0, keyLen := BitVec.ofNat 32 n }

/-- The state after reset with `x` in S. -/
def withS (v : Nat) : State := { State.reset with cipherState := Block.ofList (hex 16 v) }

/-- `s` with `x` in RAW and its length in RAWLEN. -/
def withRaw (s : State) (x : List Byte) : State := s.setRaw x

/-- `s` with the host about to issue `e`. -/
def issue (s : State) (e : HostEvent) : State := { s with pending := [e] }

/-- The key KA of 95_test_vectors.md. -/
def keyKA : State := withKey 16 0x30313233343536373839616263646566

/-- The key of vector V1, expanded. -/
def expandedV1 : State := after .keyexp (withKey 16 0x000102030405060708090a0b0c0d0e0f)

/-- `textShape`, by evaluation. -/
def shapeHolds (f : List Byte) (npad : Nat) : Bool :=
  decide (npad ≤ 2 ∧ npad ≤ f.length ∧ (∀ i, i < f.length - npad → f.getD i 0 ∈ alphabet)
    ∧ ∀ i, i < f.length → f.length - npad ≤ i → f.getD i 0 = 0x3d)

theorem textShape_iff (f : List Byte) (npad : Nat) : textShape f npad ↔ shapeHolds f npad = true := by
  simp only [textShape, shapeHolds, decide_eq_true_eq]
  exact ⟨fun h => ⟨h.1, h.2.1, h.2.2.1, fun i h1 h2 => h.2.2.2 i h2 h1⟩, fun h => ⟨h.1, h.2.1, h.2.2.1, fun i h1 h2 => h.2.2.2 i h2 h1⟩⟩

/-- `discardedZero`, by evaluation. -/
def bitsZero (f : List Byte) (npad : Nat) : Bool :=
  decide ((npad = 1 → alphabet.idxOf (f.getD (f.length - 2) 0) % 4 = 0)
    ∧ (npad = 2 → alphabet.idxOf (f.getD (f.length - 3) 0) % 16 = 0))

theorem discardedZero_iff (f : List Byte) (npad : Nat) : discardedZero f npad ↔ bitsZero f npad = true := by
  simp only [discardedZero, bitsZero, decide_eq_true_eq]

/-- The invariant, by evaluation: W is looked at in its 60 words. -/
def invCheck (s : State) : Bool :=
  decide (Config.nblkMaxLeast ≤ s.nblkMax ∧ s.nblkMax ≤ Config.nblkMaxGreatest) && s.msg.wf && s.raw.wf && s.frame.wf
    && s.msg.below (msgCap s.nblkMax) && s.raw.below (rawCap s.nblkMax) && s.frame.below (frameCap s.nblkMax)
    && decide (s.result.toNat < 256)
    && decide ((s.errCode.toNat = 0 ∧ s.errInfo.toNat = 0) ∨ (s.errCode.toNat = 1 ∧ s.errInfo.toNat = 0))
    && ((s.nk == 0 && s.nr == 0 && s.w.toList.all (· == Quad.zero))
      || ((s.nk == 4 || s.nk == 6 || s.nk == 8) && s.nr == s.nk + 6
        && (s.w.toList.drop (4 * (s.nr.toNat + 1))).all (· == Quad.zero)))
    && (!s.kvalid || (legalKeyLength s.keyLen.toNat && s.w == roundKeyMemory s.schedule.words
      && s.nk.toNat == s.schedule.nk && s.nr.toNat == s.schedule.nr))

theorem getD_of_all_zero {l : List Quad} (h : l.all (· == Quad.zero) = true) (i : Nat) : l.getD i .zero = .zero := by
  rw [List.getD_eq_getElem?_getD]
  cases hi : l[i]? with
  | none => rfl
  | some q => simpa using (List.all_eq_true.1 h) q (List.mem_of_getElem? hi)

theorem inv_of_check {s : State} (h : invCheck s = true) : s.Inv := by
  simp only [invCheck, Bool.and_eq_true, decide_eq_true_eq] at h
  obtain ⟨⟨⟨⟨⟨⟨⟨⟨⟨⟨h1, h2⟩, h3⟩, h4⟩, h5⟩, h6⟩, h7⟩, h8⟩, h9⟩, h10⟩, h11⟩ := h
  refine ⟨h1, h2, h3, h4, h5, h6, h7, h8, ?_, ?_, ?_⟩
  · rcases h9 with h | h
    · exact .inl h
    · exact .inr (.inl h)
  · simp only [Bool.or_eq_true, Bool.and_eq_true, beq_iff_eq] at h10
    rcases h10 with ⟨⟨ha, hb⟩, hc⟩ | ⟨⟨ha, hb⟩, hc⟩
    · exact .inl ⟨by rw [ha]; rfl, by rw [hb]; rfl, getD_of_all_zero hc⟩
    · refine .inr ⟨?_, ?_, fun i hi => ?_⟩
      · rcases ha with (ha | ha) | ha <;> rw [ha]
        · exact .inl rfl
        · exact .inr (.inl rfl)
        · exact .inr (.inr rfl)
      · rw [hb]; rcases ha with (ha | ha) | ha <;> rw [ha] <;> rfl
      · have := getD_of_all_zero hc (i - 4 * (s.nr.toNat + 1))
        rw [List.getD_eq_getElem?_getD, List.getElem?_drop] at this
        rw [List.getD_eq_getElem?_getD]
        rwa [show 4 * (s.nr.toNat + 1) + (i - 4 * (s.nr.toNat + 1)) = i by omega] at this
  · intro hk
    simp only [hk, Bool.not_true, Bool.false_or, Bool.and_eq_true, beq_iff_eq] at h11
    exact ⟨h11.1.1.1, h11.1.1.2, h11.1.2, h11.2⟩

/-- The invariant says nothing of what the host will issue. -/
theorem inv_issue {s : State} (h : s.Inv) (e : HostEvent) : (issue s e).Inv :=
  ⟨h.1, h.2, h.3, h.4, h.5, h.6, h.7, h.8, h.9, h.10, h.11⟩

/-! ## Well-formedness: one ill-formed term for each check (R80, R81 step 2; words of P5 lines 8 and 9) -/

theorem test_wf_refuses_reserved : CommandFields.wellFormed ⟨0x01, 0, 0, 1⟩ .fieldsAB = false := by decide
theorem test_wf_refuses_unused_b : CommandFields.wellFormed ⟨0x25, 1, 1, 0⟩ .fieldA = false := by decide
theorem test_wf_refuses_unused_a : CommandFields.wellFormed ⟨0x22, 1, 0, 0⟩ .neither = false := by decide
theorem test_wf_accepts : CommandFields.wellFormed ⟨0x01, 0xff, 0xff, 0⟩ .fieldsAB = true
    ∧ CommandFields.wellFormed ⟨0x25, 0xff, 0, 0⟩ .fieldA = true := by decide

/-! ## Decoding: words written bit by bit as R80 and R82 lay them out, Z then B then A then OPC -/

theorem test_decode_field_arithmetic : decodeTableWord 32 0b00000000100000110101011100000001 = some (.gfmul 0x57 0x83) := by decide
theorem test_decode_key_schedule : decodeTableWord 32 0b00000000000000000000000000010000 = some .keyexp := by decide
theorem test_decode_state_primitives :
    decodeTableWord 32 0b00000000000000000000000000100000 = some .ldstate ∧ decodeTableWord 32 0b00000000000000000000000000100001 = some .ststate
    ∧ decodeTableWord 32 0b00000000000000000000000000100010 = some .subbytes ∧ decodeTableWord 32 0b00000000000000000000000000100011 = some .shiftrows
    ∧ decodeTableWord 32 0b00000000000000000000000000100100 = some .mixcolumns
    ∧ decodeTableWord 32 0b00000000000000000000101000100101 = some (.addroundkey 10) := by decide
theorem test_decode_inverse_primitives :
    decodeTableWord 32 0b00000000000000000000000000100110 = some .invsubbytes ∧ decodeTableWord 32 0b00000000000000000000000000100111 = some .invshiftrows
    ∧ decodeTableWord 32 0b00000000000000000000000000101000 = some .invmixcolumns := by decide
theorem test_decode_block_commands :
    decodeTableWord 32 0b00000000000000000000000000110000 = some .encblk ∧ decodeTableWord 32 0b00000000000000000000000000110001 = some .decblk := by decide
theorem test_decode_stage_commands :
    decodeTableWord 32 0b00000000000000000000000001000000 = some .pad ∧ decodeTableWord 32 0b00000000000000000000000001000001 = some .unpad
    ∧ decodeTableWord 32 0b00000000000000000000000001000010 = some .ecbenc ∧ decodeTableWord 32 0b00000000000000000000000001000011 = some .ecbdec
    ∧ decodeTableWord 32 0b00000000000000000000000001000100 = some .b64enc ∧ decodeTableWord 32 0b00000000000000000000000001000101 = some .b64dec := by decide
theorem test_decode_message_commands :
    decodeTableWord 32 0b00000000000000000000000001010000 = some .encrypt ∧ decodeTableWord 32 0b00000000000000000000000001010001 = some .decrypt := by decide

/-- The illegal words of P5 lines 6 to 9, each rejected by its name. -/
theorem test_decode_rejects : rejection 0x00000000 = some .unassignedOpcode ∧ rejection 0x000000ff = some .unassignedOpcode
    ∧ rejection 0x01000001 = some .fieldNotZero ∧ rejection 0x00000122 = some .fieldNotZero
    ∧ rejection 0x00010a25 = some .fieldNotZero ∧ rejection 0x00000a25 = none := by decide

/-- The words of R87's examples. -/
theorem test_encode : encode (.gfmul 0x57 0x83) = 0x00835701 ∧ encode (.addroundkey 3) = 0x00000325
    ∧ encode .subbytes = 0x00000022 := by decide

theorem test_table_word : decodeTableWord 32 0x00835701 = some (.gfmul 0x57 0x83) ∧ decodeTableWord 32 0x02 = none := by decide

/-! ## Single commands against the spec's worked examples and vectors -/

/-- Vectors M1 and M9. -/
theorem test_gfmul : (after (.gfmul 0x57 0x83) State.reset).result = 0xc1 ∧ (after (.gfmul 0xff 0xff) State.reset).result = 0x13 := by
  decide +kernel

/-- Vector K1: the first and the last derived word, and a word above the schedule. -/
theorem test_keyexp_16 : expandedV1.w[4] = ⟨0xd6, 0xaa, 0x74, 0xfd⟩ ∧ expandedV1.w[43] = ⟨0x4d, 0x2b, 0x30, 0xc5⟩
    ∧ expandedV1.w[44] = .zero ∧ expandedV1.nk = 4 ∧ expandedV1.nr = 10 ∧ expandedV1.kvalid = true := by decide +kernel

/-- Vector K3: the branch taken only for a 32-byte key. -/
theorem test_keyexp_32 :
    let t := after .keyexp (withKey 32 0x000102030405060708090a0b0c0d0e0f101112131415161718191a1b1c1d1e1f)
    t.w[12] = ⟨0x16, 0x51, 0xa8, 0xcd⟩ ∧ t.w[59] = ⟨0x6d, 0x68, 0xde, 0x36⟩ := by decide +kernel

/-- R142: the places of bytes 1, 4 and 15. -/
theorem test_ldstate :
    let t := after .ldstate { State.reset with blk := Block.ofList (hex 16 0x00112233445566778899aabbccddeeff) }
    t.cipherState.at 1 0 = 0x11 ∧ t.cipherState.at 0 1 = 0x44 ∧ t.cipherState.at 3 3 = 0xff := by decide

/-- R143: the bytes in block order. -/
theorem test_ststate : (after .ststate (withS 0x00112233445566778899aabbccddeeff)).blk.toList
    = hex 16 0x00112233445566778899aabbccddeeff := by decide

/-- R144's worked example. -/
theorem test_subbytes : (after .subbytes (withS 0x00102030405060708090a0b0c0d0e0f0)).cipherState.toList
    = hex 16 0x63cab7040953d051cd60e0e7ba70e18c := by decide +kernel

/-- R145's worked example. -/
theorem test_shiftrows : (after .shiftrows (withS 0x000102030405060708090a0b0c0d0e0f)).cipherState.toList
    = hex 16 0x00050a0f04090e03080d02070c01060b := by decide

/-- R146's worked example. -/
theorem test_mixcolumns : (after .mixcolumns (withS 0x6353e08c0960e104cd70b751bacad0e7)).cipherState.toList
    = hex 16 0x5f72641557f5bc92f7be3b291db9f91a := by decide +kernel

/-- R147's second worked example, and the round above NR. -/
theorem test_addroundkey :
    (after (.addroundkey 1) { expandedV1 with cipherState := Block.ofList (hex 16 0x5f72641557f5bc92f7be3b291db9f91a) }).cipherState.toList
      = hex 16 0x89d810e8855ace682d1843d8cb128fe4
    ∧ (after (.addroundkey 11) expandedV1).statusWord = 0x134 := by decide +kernel

/-- R148's worked example. -/
theorem test_invsubbytes : (after .invsubbytes (withS 0x63cab7040953d051cd60e0e7ba70e18c)).cipherState.toList
    = hex 16 0x00102030405060708090a0b0c0d0e0f0 := by decide +kernel

/-- R149's first worked example. -/
theorem test_invshiftrows : (after .invshiftrows (withS 0x000102030405060708090a0b0c0d0e0f)).cipherState.toList
    = hex 16 0x000d0a0704010e0b0805020f0c090603 := by decide

/-- R150's worked example. -/
theorem test_invmixcolumns : (after .invmixcolumns (withS 0xe9f74eec023020f61bf2ccf2353c21c7)).cipherState.toList
    = hex 16 0x54d990a16ba09ab596bbf40ea111702f := by decide +kernel

/-- Vector V1, and the error without round keys (P5 line 4). -/
theorem test_encblk :
    (after .encblk { expandedV1 with blk := Block.ofList (hex 16 0x00112233445566778899aabbccddeeff) }).blk.toList
      = hex 16 0x69c4e0d86a7b0430d8cdb78070b4c55a
    ∧ (after .encblk State.reset).statusWord = 0x44 := by decide +kernel

/-- Vector V1 backwards. -/
theorem test_decblk :
    (after .decblk { expandedV1 with blk := Block.ofList (hex 16 0x69c4e0d86a7b0430d8cdb78070b4c55a) }).blk.toList
      = hex 16 0x00112233445566778899aabbccddeeff := by decide +kernel

/-- R186's worked example, and a message of the whole buffer (cause 6). -/
theorem test_pad : (after .pad (State.reset.setMessage (hex 3 0x616263))).rawBytes = hex 16 0x6162630d0d0d0d0d0d0d0d0d0d0d0d0d
    ∧ (after .pad { State.reset with msgLen := 128 }).statusWord = 0x64 := by decide +kernel

/-- R188's second worked example, in both modes. -/
theorem test_unpad :
    let s := withRaw State.reset (hex 16 0x6162630d0d0d0d0d0d0d0d0d0d0d0c0d)
    (after .unpad s).statusWord = 0x33 ∧ (after .unpad { s with padchk := false }).message = hex 3 0x616263 := by decide +kernel

/-- R190's worked example. -/
theorem test_ecbenc : (after .ecbenc (withRaw (after .keyexp keyKA) (hex 16 0x6162630d0d0d0d0d0d0d0d0d0d0d0d0d))).rawBytes
    = hex 16 0x1d25821c3e311eea2d4dd8633a25c1b5 := by decide +kernel

/-- R191's worked example. -/
theorem test_ecbdec : (after .ecbdec (withRaw (after .keyexp keyKA) (hex 16 0x1d25821c3e311eea2d4dd8633a25c1b5))).rawBytes
    = hex 16 0x6162630d0d0d0d0d0d0d0d0d0d0d0d0d := by decide +kernel

/-- R196's worked example. -/
theorem test_b64enc : (after .b64enc (withRaw State.reset (hex 16 0x1d25821c3e311eea2d4dd8633a25c1b5))).frameText
    = ascii "HSWCHD4xHuotTdhjOiXBtQ==" := by decide +kernel

/-- R198's short examples: cause 3, cause 2, and a success. -/
theorem test_b64dec : (after .b64dec (State.reset.setFrame (ascii "QR=="))).statusWord = 0x32
    ∧ (after .b64dec (State.reset.setFrame (ascii "A=AA"))).statusWord = 0x22
    ∧ (after .b64dec (State.reset.setFrame (ascii "QQ=="))).rawBytes = [0x41] := by decide +kernel

/-- R200's worked example. -/
theorem test_encrypt : let t := after .encrypt (keyKA.setMessage (hex 3 0x616263))
    t.frameText = ascii "HSWCHD4xHuotTdhjOiXBtQ==" ∧ t.statusWord = 0x100 := by decide +kernel

/-- R201's worked example, and the tampered padding of P6 line 4. -/
theorem test_decrypt : (after .decrypt (keyKA.setFrame (ascii "HSWCHD4xHuotTdhjOiXBtQ=="))).message = hex 3 0x616263
    ∧ (after .decrypt (keyKA.setFrame (ascii "Nz29iKmgK9Y1Lmr+i4OMew=="))).statusWord = 0x33 := by decide +kernel

/-! ## Single steps -/

/-- P5 line 5 through a step: SUBBYTES as the first command after reset. -/
theorem test_step_runs_command : (afterStep (State.reset.withFetchWord 32 0x22)).cipherState.toList = List.replicate 16 0x63
    ∧ (afterStep (State.reset.withFetchWord 32 0x22)).response = .okWrite := by decide +kernel

/-- P5 line 6 through a step: an illegal word, whose CMD write is still answered OK. -/
theorem test_step_illegal_word : (afterStep (State.reset.withFetchWord 32 0)).statusWord = 0x14
    ∧ (afterStep (State.reset.withFetchWord 32 0)).response = .okWrite := by decide +kernel

/-- Vectors T-4 and T-13. -/
theorem test_step_rom_read : (afterStep (issue State.reset (.memRead8 0x453))).response = .okByte 0xed
    ∧ (afterStep (issue State.reset (.memRead8 0x60a))).response = .busError := by decide +kernel

/-- P5 lines 18 and 25: a write of KEY clears KVALID even with the same value, and a ROM cannot be written. -/
theorem test_step_byte_write : (afterStep (issue { State.reset with kvalid := true } (.memWrite8 0x100 0))).kvalid = false
    ∧ (afterStep (issue State.reset (.memWrite8 0x400 0))).response = .busError := by decide +kernel

/-- P5 line 1: STATUS after reset, and the wrong width for KEY. -/
theorem test_step_register_read : (afterStep (issue State.reset (.memRead32 0x04))).response = .okWord 0
    ∧ (afterStep (issue State.reset (.memRead32 0x100))).response = .busError := by decide +kernel

/-! ## Witnesses: for each obligation with hypotheses, a concrete state and operands that meet all of them, one for each of
its clauses at the ends of the clause's range -/

/-- A state other than `State.reset`, of the same NBLK_MAX: vector V1's key expanded, and a buffer, a length and a
register that reset does not leave. -/
def busy : State :=
  { expandedV1 with msg := [(0, 0x61)], msgLen := 1, raw := [(127, 0xff)], rawLen := 16, result := 0xc1, padchk := false }

theorem inv_reset_state : State.reset.Inv := inv_of_check (by decide +kernel)

theorem inv_busy : busy.Inv := inv_of_check (by decide +kernel)

theorem inv_keyKA : keyKA.Inv := inv_of_check (by decide +kernel)

theorem busy_expanded : busy.kvalid = true ∧ busy.nr = 10 ∧ busy.rawLen = 16 := by decide +kernel

theorem witness_OpcodeTableSelectsCommands :
    ∃ row ∈ opcodeTable, (0x00835701 : Word) &&& row.1 = row.2 := ⟨(0xff0000ff, 0x00000001), .head _, rfl⟩

theorem noRow {p : Word × Word → Bool} (h : (opcodeTable.all fun row => !p row) = true) :
    ∀ row ∈ opcodeTable, ¬ p row = true := fun row hrow => by simpa using List.all_eq_true.mp h row hrow

theorem someRow {p : Word × Word → Bool} (h : opcodeTable.any p = true) : ∃ row ∈ opcodeTable, p row = true :=
  List.any_eq_true.mp h

theorem witness_IllegalWordsRaiseCommandError :
    (∀ row ∈ opcodeTable, (0x00000000 : Word) &&& 0xff ≠ row.2 &&& 0xff)
    ∧ (∀ row ∈ opcodeTable, (0xffffff02 : Word) &&& 0xff ≠ row.2 &&& 0xff)
    ∧ (∃ row ∈ opcodeTable, (0x01000001 : Word) &&& 0xff = row.2 &&& 0xff)
    ∧ (∀ row ∈ opcodeTable, (0x01000001 : Word) &&& row.1 ≠ row.2)
    ∧ (∃ row ∈ opcodeTable, (0x00000151 : Word) &&& 0xff = row.2 &&& 0xff)
    ∧ ∀ row ∈ opcodeTable, (0x00000151 : Word) &&& row.1 ≠ row.2 := by
  refine ⟨fun row h => ?_, fun row h => ?_, ?_, fun row h => ?_, ?_, fun row h => ?_⟩
  · exact fun e => noRow (p := fun row => (0x00000000 : Word) &&& 0xff == row.2 &&& 0xff) (by decide) row h (beq_iff_eq.mpr e)
  · exact fun e => noRow (p := fun row => (0xffffff02 : Word) &&& 0xff == row.2 &&& 0xff) (by decide) row h (beq_iff_eq.mpr e)
  · exact ⟨(0xff0000ff, 0x00000001), .head _, rfl⟩
  · exact fun e => noRow (p := fun row => (0x01000001 : Word) &&& row.1 == row.2) (by decide) row h (beq_iff_eq.mpr e)
  · obtain ⟨row, h, e⟩ := someRow (p := fun row => (0x00000151 : Word) &&& 0xff == row.2 &&& 0xff) (by decide)
    exact ⟨row, h, beq_iff_eq.mp e⟩
  · exact fun e => noRow (p := fun row => (0x00000151 : Word) &&& row.1 == row.2) (by decide) row h (beq_iff_eq.mpr e)

/-- The second address lies in a core that the platform has placed at 0x400000. -/
theorem witness_StepRunsDecodedCommand :
    (∃ t, (issue State.reset (.memWrite32 0 0x22)).pending = .memWrite32 0 0x22 :: [] ∧ 0 % 2 ^ 22 = 0
      ∧ decode 0x22 = .ok .subbytes ∧ exec .subbytes { State.reset with pending := [] } = .next t)
    ∧ (issue State.reset (.memWrite32 0x400000 0x22)).pending = .memWrite32 0x400000 0x22 :: [] ∧ 0x400000 % 2 ^ 22 = 0 :=
  ⟨⟨_, rfl, rfl, rfl, exec_after _ _⟩, rfl, rfl⟩

/-- The clauses for illegal words: the all-zero word, and GFMUL's opcode with the lowest reserved bit set. -/
theorem witness_StepRunsDecodedCommand_illegal :
    (issue State.reset (.memWrite32 0 0)).pending = .memWrite32 0 0 :: [] ∧ decode 0 = .error .unassignedOpcode
    ∧ (∃ t, runCommand 0 { issue State.reset (.memWrite32 0 0) with pending := [] } = .next t)
    ∧ (issue State.reset (.memWrite32 0 0x01000001)).pending = .memWrite32 0 0x01000001 :: []
    ∧ decode 0x01000001 = .error .fieldNotZero := ⟨rfl, rfl, ⟨_, rfl⟩, rfl, rfl⟩

theorem witness_EveryCommandAndStepCompletes : State.reset.pending = [] := rfl

theorem witness_ResetMeetsInvariant : ∀ n ∈ [1, 8, 49152], 1 ≤ n ∧ n ≤ 49152 := by decide

/-- A write of CMD answers a next state. -/
theorem step_command (s : State) (c : Word) : ∃ t, step (issue s (.memWrite32 0 c)) = .next t := by
  obtain ⟨t, -, ht⟩ := answerCommand_runCommand c { s with pending := [] }
  have hp : (issue s (.memWrite32 0 c)).pending = .memWrite32 0 c :: [] := rfl
  exact ⟨_, (step_of_pending hp).trans ht⟩

theorem witness_StepKeepsInvariant : (issue busy (.memWrite32 0 0x23)).Inv ∧ ∃ t, step (issue busy (.memWrite32 0 0x23)) = .next t :=
  ⟨inv_issue inv_busy _, step_command _ _⟩

theorem witness_ResetEventValues : (issue busy .reset).pending = .reset :: [] := rfl

theorem witness_ResetErasesEverything : (issue busy .reset).nblkMax = (issue State.reset .reset).nblkMax
    ∧ (issue busy .reset).pending = .reset :: [] ∧ (issue State.reset .reset).pending = .reset :: [] := ⟨by decide +kernel, rfl, rfl⟩

theorem witness_RegisterReads : ∀ o ∈ [0x00, 0x04, 0x08, 0x0c, 0x10, 0x14, 0x18, 0x1c, 0x20, 0x24, 0x28],
    (issue State.reset (.memRead32 o)).pending = .memRead32 o :: [] ∧ o % 2 ^ 22 = o := by decide

/-- The first and the last offset of each byte range, for NBLK_MAX 8. -/
theorem witness_ByteReads : ∀ o ∈ [0x100, 0x11f, 0x120, 0x12f, 0x130, 0x13f, 0x200, 0x2ef, 0x400, 0x4ff, 0x500, 0x5ff, 0x600,
      0x609, 0x100000, 0x10007f, 0x200000, 0x20007f, 0x300000, 0x3000ab],
    (issue State.reset (.memRead8 o)).pending = .memRead8 o :: [] ∧ (issue State.reset (.memRead8 o)).Inv ∧ o % 2 ^ 22 = o
      ∧ ∃ r ∈ readableRanges State.reset.nblkMax, r.1 ≤ o ∧ o < r.2 :=
  fun o ho => ⟨rfl, inv_issue inv_reset_state _, by revert o; decide⟩

theorem witness_RegisterWrites : ∀ o ∈ [0x08, 0x0c, 0x1c, 0x20, 0x24],
    (issue State.reset (.memWrite32 o 0xffffffff)).pending = .memWrite32 o 0xffffffff :: [] ∧ o % 2 ^ 22 = o := by decide

/-- The first and the last offset of each writable range, for NBLK_MAX 8. -/
theorem witness_ByteWriteThenRead : ∀ o ∈ [0x100, 0x11f, 0x120, 0x12f, 0x130, 0x13f, 0x100000, 0x10007f, 0x200000, 0x20007f,
      0x300000, 0x3000ab],
    (issue State.reset (.memWrite8 o 0xa5)).pending = .memWrite8 o 0xa5 :: [] ∧ (issue State.reset (.memWrite8 o 0xa5)).Inv
      ∧ inRanges (writableRanges State.reset.nblkMax) (o % 2 ^ 22) :=
  fun o ho => ⟨rfl, inv_issue inv_reset_state _, by unfold inRanges; revert o; decide⟩

/-- Offsets next to each range, a misaligned register, a read-only byte and a read-only register. -/
theorem witness_BusErrorsChangeNothing :
    (∀ o ∈ [0x00, 0xff, 0x140, 0x1ff, 0x2f0, 0x3ff, 0x60a, 0xfffff, 0x100080, 0x1fffff, 0x200080, 0x2fffff, 0x3000ac, 0x3fffff],
      (issue State.reset (.memRead8 o)).pending = .memRead8 o :: [] ∧ ¬ ∃ r ∈ readableRanges 8, r.1 ≤ o % 2 ^ 22 ∧ o % 2 ^ 22 < r.2)
    ∧ (∀ o ∈ [0x01, 0x2a, 0x2c, 0x100, 0x3fffff], (issue State.reset (.memRead32 o)).pending = .memRead32 o :: []
      ∧ (o % 2 ^ 22 % 4 ≠ 0 ∨ 0x2c ≤ o % 2 ^ 22))
    ∧ (∀ o ∈ [0x00, 0xff, 0x140, 0x200, 0x2ef, 0x400, 0x500, 0x600, 0x100080, 0x200080, 0x3000ac],
      (issue State.reset (.memWrite8 o 0)).pending = .memWrite8 o 0 :: []
        ∧ ¬ ∃ r ∈ writableRanges 8, r.1 ≤ o % 2 ^ 22 ∧ o % 2 ^ 22 < r.2)
    ∧ ∀ o ∈ [0x01, 0x04, 0x10, 0x14, 0x18, 0x28, 0x2c, 0x100], (issue State.reset (.memWrite32 o 0)).pending = .memWrite32 o 0 :: []
      ∧ o % 2 ^ 22 ∉ [0x00, 0x08, 0x0c, 0x1c, 0x20, 0x24] := by decide

theorem witness_StaleRoundKeysAreRefused :
    (∀ o ∈ [0x100, 0x11f], (issue busy (.memWrite8 o 0)).pending = .memWrite8 o 0 :: [] ∧ 0x100 ≤ o % 2 ^ 22 ∧ o % 2 ^ 22 < 0x120)
    ∧ (issue busy (.memWrite32 0x0c 16)).pending = .memWrite32 0x0c 16 :: [] ∧ 0x0c % 2 ^ 22 = 0x0c :=
  ⟨fun o ho => ⟨rfl, by revert o; decide⟩, rfl, rfl⟩

theorem witness_GmulFieldLaws : (1 : Byte) ≠ 0 := by decide

/-- Vector M17's inverse pair, and zero. -/
theorem witness_SboxIsAffineOfInverse :
    (((0x53 : Byte) = 0 → (0xca : Byte) = 0) ∧ ((0x53 : Byte) ≠ 0 → gmul 0x53 0xca = 1))
    ∧ ((0 : Byte) = 0 → (0 : Byte) = 0) ∧ ((0 : Byte) ≠ 0 → gmul 0 0 = 1) := by decide +kernel

theorem witness_KeyexpWritesSchedule : (∀ n ∈ [16, 24, 32], (withKey n 0).keyLen.toNat ∈ [16, 24, 32])
    ∧ ∀ n ∈ [0, 15, 17, 23, 25, 31, 33], (withKey n 0).keyLen.toNat ∉ [16, 24, 32] := by decide +kernel

theorem witness_KeyLengthErrorExactly :
    (∃ t, exec .keyexp State.reset = .next t ∧ t.errCode = 1 ∧ Instr.keyexp ∈ expandsKey ∧ State.reset.keyLen.toNat ∉ [16, 24, 32])
    ∧ ∃ t, exec (.addroundkey 0) State.reset = .next t ∧ State.reset.kvalid = false :=
  ⟨⟨_, exec_after _ _, by decide +kernel⟩, _, exec_after _ _, rfl⟩

/-- Two cores with KEYLEN 16 that differ in `KEY[31]`. -/
theorem witness_KeyBytesAboveLengthIgnored :
    let s : State := withKey 16 0
    let u : State := { s with key := s.key.set 31 0xff }
    s.keyLen.toNat ∈ [16, 24, 32] ∧ u.keyLen = s.keyLen ∧ (∀ i, i < s.keyLen.toNat → keyAt u i = keyAt s i) ∧ u.key ≠ s.key := by
  decide +kernel

theorem witness_ValidRoundKeysAreCurrent : busy.Inv ∧ busy.kvalid = true := ⟨inv_busy, busy_expanded.1⟩

theorem witness_RowRotationCommands : ∃ r c d e : Fin 4, d.val = (c.val + r.val) % 4 ∧ e.val = (c.val + 4 - r.val) % 4 :=
  ⟨3, 1, 0, 2, by decide, by decide⟩

/-- Round 0, round NR and the round above it. -/
theorem witness_AddRoundKeyCommand : State.reset.kvalid = false ∧ busy.kvalid = true ∧ (0 : Byte).toNat ≤ busy.nr.toNat
    ∧ (10 : Byte).toNat ≤ busy.nr.toNat ∧ busy.nr.toNat < (11 : Byte).toNat := by decide +kernel

theorem witness_PrimitivesAreInversePairs : busy.kvalid = true ∧ (10 : Byte).toNat ≤ busy.nr.toNat := by decide +kernel

theorem witness_BlockCommands : State.reset.kvalid = false ∧ busy.kvalid = true := by decide +kernel

theorem witness_KnownAnswerVector :
    let s : State := { withKey 16 0x000102030405060708090a0b0c0d0e0f with blk := Block.ofList (hex 16 0x00112233445566778899aabbccddeeff) }
    s.keyLen = 16 ∧ s.keyBytes 16 = hex 16 0x000102030405060708090a0b0c0d0e0f
      ∧ s.blk.toList = hex 16 0x00112233445566778899aabbccddeeff := by decide +kernel

theorem witness_PrimitiveSequencesEqualBlockCommands : busy.Inv ∧ busy.kvalid = true := ⟨inv_busy, busy_expanded.1⟩

theorem witness_DecblkInvertsEncblk : busy.kvalid = true := busy_expanded.1

theorem witness_CompositeCommandsZeroiseState :
    ∃ t, Instr.ecbenc ∈ composite ∧ exec .ecbenc busy = .next t ∧ t.errCode = 0 :=
  ⟨_, by decide, exec_after _ _, by decide +kernel⟩

/-- `State.reset` with a length in MSGLEN. -/
def withMsgLen (n : Nat) : State := { State.reset with msgLen := BitVec.ofNat 32 n }

theorem inv_withMsgLen (n : Nat) : (withMsgLen n).Inv :=
  let h := inv_reset_state
  ⟨h.1, h.2, h.3, h.4, h.5, h.6, h.7, h.8, h.9, h.10, h.11⟩

/-- Beyond MSG, all of it, one byte less, and empty. -/
theorem witness_PadCommand : (∀ n, (withMsgLen n).Inv) ∧ 16 * (withMsgLen 129).nblkMax < (withMsgLen 129).msgLen.toNat
    ∧ (withMsgLen 128).msgLen.toNat = 16 * (withMsgLen 128).nblkMax ∧ (withMsgLen 127).msgLen.toNat < 16 * (withMsgLen 127).nblkMax
    ∧ (withMsgLen 0).msgLen.toNat < 16 * (withMsgLen 0).nblkMax := ⟨inv_withMsgLen, by decide⟩

/-- `State.reset` with a sequence in RAW. -/
def rawState (x : List Byte) : State := withRaw State.reset x

theorem inv_rawState {x : List Byte} (h : x.length ≤ 128) : (rawState x).Inv :=
  let h0 := inv_reset_state
  ⟨h0.1, h0.2, Memory.wf_store h0.3 0 x, h0.4, h0.5, Memory.below_store h0.6 (by show 0 + x.length ≤ 128; omega), h0.7, h0.8, h0.9,
    h0.10, h0.11⟩

/-- `State.reset` with a length in RAWLEN. -/
def withRawLen (n : Nat) : State := { State.reset with rawLen := BitVec.ofNat 32 n }

theorem inv_withRawLen (n : Nat) : (withRawLen n).Inv :=
  let h := inv_reset_state
  ⟨h.1, h.2, h.3, h.4, h.5, h.6, h.7, h.8, h.9, h.10, h.11⟩

/-- The last byte of RAW[0..RAWLEN), as UNPAD reads it. -/
def lastByte (s : State) : Nat := (s.raw.read (s.rawLen.toNat - 1)).toNat

/-- Beyond RAW; nothing; in strict mode a last byte of 0 and of 17; a last byte beyond the data; unequal last bytes; and
padding of one byte and of sixteen. -/
theorem witness_UnpadCommand :
    ((withRawLen 129).Inv ∧ 16 * 8 < (withRawLen 129).rawLen.toNat) ∧ ((rawState []).Inv ∧ (rawState []).rawLen = 0)
    ∧ (∀ b ∈ ([0, 17] : List Byte), (rawState [b]).Inv ∧ (rawState [b]).padchk = true ∧ (rawState [b]).rawLen = 1
      ∧ (lastByte (rawState [b]) = 0 ∨ 16 < lastByte (rawState [b])))
    ∧ ((rawState [2]).Inv ∧ (rawState [2]).rawLen.toNat < lastByte (rawState [2]) ∧ lastByte (rawState [2]) ≤ 16)
    ∧ ((rawState [1, 2]).Inv ∧ lastByte (rawState [1, 2]) = 2 ∧ (rawState [1, 2]).rawLen = 2
      ∧ ((rawState [1, 2]).raw.read 0).toNat ≠ 2)
    ∧ ((rawState [1]).Inv ∧ lastByte (rawState [1]) = 1 ∧ (rawState [1]).rawLen = 1)
    ∧ (rawState (List.replicate 16 16)).Inv ∧ lastByte (rawState (List.replicate 16 16)) = 16
      ∧ ∀ j, j < 16 → ((rawState (List.replicate 16 16)).raw.read j).toNat = 16 :=
  ⟨⟨inv_withRawLen _, by decide⟩, ⟨inv_rawState (by decide), rfl⟩,
    fun b hb => ⟨inv_rawState (by simp), rfl, rfl, by rcases (by simpa using hb : b = 0 ∨ b = 17) with rfl | rfl <;> decide +kernel⟩, ⟨inv_rawState (by decide), by decide +kernel⟩,
    ⟨inv_rawState (by decide), by decide +kernel⟩, ⟨inv_rawState (by decide), by decide +kernel⟩, inv_rawState (by decide),
    by decide +kernel, by decide +kernel⟩

/-- Round keys of a schedule, and any length in RAWLEN: no round keys; beyond RAW; part of a block; empty and full. -/
theorem witness_EcbCommands : (∀ n, State.Inv { busy with rawLen := BitVec.ofNat 32 n }) ∧ State.reset.Inv
    ∧ State.reset.kvalid = false ∧ busy.kvalid = true ∧ 16 * busy.nblkMax < 129 ∧ 17 ≤ 16 * busy.nblkMax ∧ 17 % 16 ≠ 0
    ∧ 0 % 16 = 0 ∧ 128 ≤ 16 * busy.nblkMax ∧ 128 % 16 = 0 :=
  let h := inv_busy
  ⟨fun _ => ⟨h.1, h.2, h.3, h.4, h.5, h.6, h.7, h.8, h.9, h.10, h.11⟩, inv_reset_state, by decide +kernel⟩

/-- Two runs of ECBENC over one zero block, with the same round keys. -/
theorem witness_EcbBlocksAreIndependent : ∃ t, busy.Inv ∧ exec .ecbenc busy = .next t ∧ t.errCode = 0 ∧ 0 < busy.rawLen.toNat / 16 :=
  ⟨_, inv_busy, exec_after _ _, by decide +kernel⟩

theorem witness_EcbdecInvertsEcbenc : busy.Inv ∧ busy.kvalid = true ∧ busy.rawLen.toNat ≤ 16 * busy.nblkMax
    ∧ busy.rawLen.toNat % 16 = 0 := ⟨inv_busy, by decide +kernel⟩

/-- One full group, and one and two bytes after it. -/
theorem witness_Base64TextOfBytes : 0 < ([1, 2, 3] : List Byte).length / 3 ∧ ([1, 2, 3, 4] : List Byte).length % 3 = 1
    ∧ ([1, 2, 3, 4, 5] : List Byte).length % 3 = 2 := by decide

/-- R198's examples: a success, and causes 1, 2 and 3 in turn. -/
theorem witness_Base64DecodesCanonicalTexts :
    (ascii "QQ==" = b64enc [0x41] ∧ (ascii "QQ==").length % 4 = 0 ∧ shapeHolds (ascii "QQ==") 2 ∧ bitsZero (ascii "QQ==") 2)
    ∧ (ascii "abc").length % 4 ≠ 0
    ∧ ((ascii "A=AA").length % 4 = 0 ∧ ∀ npad, npad ≤ 2 → ¬ shapeHolds (ascii "A=AA") npad)
    ∧ (ascii "QR==").length % 4 = 0 ∧ shapeHolds (ascii "QR==") 2 ∧ ¬ bitsZero (ascii "QR==") 2 := by
  decide +kernel

theorem witness_B64encCommand : (∀ n, (withRawLen n).Inv) ∧ 16 * 8 < (withRawLen 129).rawLen.toNat
    ∧ (withRawLen 128).rawLen.toNat ≤ 16 * 8 ∧ (withRawLen 0).rawLen.toNat ≤ 16 * 8 := ⟨inv_withRawLen, by decide⟩

/-- `State.reset` with a text in FRAME. -/
def frameState (f : List Byte) : State := State.reset.setFrame f

theorem inv_frameState {f : List Byte} (h : f.length ≤ 172) : (frameState f).Inv :=
  let h0 := inv_reset_state
  ⟨h0.1, h0.2, h0.3, Memory.wf_store h0.4 0 f, h0.5, h0.6, Memory.below_store h0.7 (by show 0 + f.length ≤ 172; omega), h0.8, h0.9,
    h0.10, h0.11⟩

/-- `State.reset` with a length in FRAMELEN. -/
def withFrameLen (n : Nat) : State := { State.reset with frameLen := BitVec.ofNat 32 n }

theorem inv_withFrameLen (n : Nat) : (withFrameLen n).Inv :=
  let h := inv_reset_state
  ⟨h.1, h.2, h.3, h.4, h.5, h.6, h.7, h.8, h.9, h.10, h.11⟩

/-- What decoding FRAME gives: the number of bytes, or the cause. -/
def decoded (s : State) : Nat ⊕ CommandFailure :=
  match b64dec s.frameText with
  | .ok x => .inl x.length
  | .error e => .inr e

/-- Beyond FRAME; the three EncodingErrors; 129 bytes, which RAW cannot hold; and one byte. -/
theorem witness_B64decCommand : ((withFrameLen 173).Inv ∧ 172 < (withFrameLen 173).frameLen.toNat)
    ∧ ((frameState (ascii "abc")).Inv ∧ decoded (frameState (ascii "abc")) = .inr .frameLength)
    ∧ ((frameState (ascii "ab!d")).Inv ∧ decoded (frameState (ascii "ab!d")) = .inr .frameCharacter)
    ∧ ((frameState (ascii "QR==")).Inv ∧ decoded (frameState (ascii "QR==")) = .inr .frameDiscardedBits)
    ∧ ((frameState (List.replicate 172 0x41)).Inv ∧ decoded (frameState (List.replicate 172 0x41)) = .inl 129)
    ∧ (frameState (ascii "QQ==")).Inv ∧ decoded (frameState (ascii "QQ==")) = .inl 1 :=
  ⟨⟨inv_withFrameLen _, by decide⟩, ⟨inv_frameState (by decide), by decide +kernel⟩, ⟨inv_frameState (by decide), by decide +kernel⟩,
    ⟨inv_frameState (by decide), by decide +kernel⟩, ⟨inv_frameState (Nat.le_of_eq List.length_replicate), by decide +kernel⟩, inv_frameState (by decide),
    by decide +kernel⟩

theorem witness_Base64CommandsRoundTrip : (State.reset.Inv ∧ State.reset.rawLen.toNat ≤ 16 * State.reset.nblkMax)
    ∧ ∃ t, (frameState (ascii "QQ==")).Inv ∧ exec .b64dec (frameState (ascii "QQ==")) = .next t ∧ t.errCode = 0 :=
  ⟨⟨inv_reset_state, by decide⟩, _, inv_frameState (by decide), exec_after _ _, by decide +kernel⟩

/-- An illegal KEYLEN, and with a legal one a message beyond MSG, of all of it, of one byte less, and empty. -/
theorem witness_EncryptCommand : (∀ n, State.Inv { keyKA with msgLen := BitVec.ofNat 32 n }) ∧ State.reset.Inv
    ∧ State.reset.keyLen.toNat ∉ [16, 24, 32] ∧ keyKA.keyLen.toNat ∈ [16, 24, 32] ∧ 16 * keyKA.nblkMax < 129
    ∧ 128 = 16 * keyKA.nblkMax ∧ 127 < 16 * keyKA.nblkMax ∧ 0 < 16 * keyKA.nblkMax :=
  let h := inv_keyKA
  ⟨fun _ => ⟨h.1, h.2, h.3, h.4, h.5, h.6, h.7, h.8, h.9, h.10, h.11⟩, inv_reset_state, by decide +kernel⟩

/-- The key KA with a text in FRAME. -/
def keyFrame (f : List Byte) : State := keyKA.setFrame f

theorem inv_keyFrame {f : List Byte} (h : f.length ≤ 172) : (keyFrame f).Inv :=
  let h0 := inv_keyKA
  ⟨h0.1, h0.2, h0.3, Memory.wf_store h0.4 0 f, h0.5, h0.6, Memory.below_store h0.7 (by show 0 + f.length ≤ 172; omega), h0.8, h0.9,
    h0.10, h0.11⟩

/-- The frames of P3 and of P6 line 2. -/
def frameP3 : List Byte := ascii "HSWCHD4xHuotTdhjOiXBtQ=="
def frameP6 : List Byte := ascii "Nz29iKmgK9Y1Lmr+i4OMew=="

/-- An illegal KEYLEN; beyond FRAME; a malformed text; one byte, which is no whole block; the frames of P6 line 2, whose
padding is rejected, and of P3, which decrypts. -/
theorem witness_DecryptCommand : (State.reset.Inv ∧ State.reset.keyLen.toNat ∉ [16, 24, 32])
    ∧ (∀ f, (keyFrame f).keyLen.toNat ∈ [16, 24, 32]) ∧ (∀ f, f.length ≤ 172 → (keyFrame f).Inv)
    ∧ (State.Inv { keyKA with frameLen := 173 } ∧ 172 < (173 : Word).toNat)
    ∧ decoded (keyFrame (ascii "abc")) = .inr .frameLength ∧ decoded (keyFrame (ascii "QQ==")) = .inl 1
    ∧ decoded (keyFrame frameP6) = .inl 16 ∧ (after .decrypt (keyFrame frameP6)).errCode = 3
    ∧ decoded (keyFrame frameP3) = .inl 16 ∧ (after .decrypt (keyFrame frameP3)).errCode = 0 :=
  let h := inv_keyKA
  ⟨⟨inv_reset_state, by decide⟩, fun _ => by show (16 : Word).toNat ∈ _; decide, fun _ => inv_keyFrame,
    ⟨⟨h.1, h.2, h.3, h.4, h.5, h.6, h.7, h.8, h.9, h.10, h.11⟩, by decide⟩, by decide +kernel⟩

/-- The key KA with the message of P3. -/
def keyMessage : State := keyKA.setMessage (hex 3 0x616263)

theorem inv_keyMessage : keyMessage.Inv := inv_of_check (by decide +kernel)

theorem encrypt_keyMessage : (after .encrypt keyMessage).errCode = 0 ∧ (after .encrypt keyMessage).frameText = frameP3
    ∧ (after .encrypt keyMessage).frameLen = 24 := by decide +kernel

theorem witness_EncryptEqualsItsStages : ∃ t, keyMessage.Inv ∧ exec .encrypt keyMessage = .next t ∧ t.errCode = 0 :=
  ⟨_, inv_keyMessage, exec_after _ _, encrypt_keyMessage.1⟩

theorem witness_DecryptEqualsItsStages : ∃ t, (keyFrame frameP3).Inv ∧ exec .decrypt (keyFrame frameP3) = .next t ∧ t.errCode = 0 :=
  ⟨_, inv_keyFrame (by decide), exec_after _ _, by decide +kernel⟩

/-- The encryption of P3, and a core that holds its frame, in lenient mode. -/
theorem witness_DecryptUndoesEncrypt : ∃ t, keyMessage.Inv ∧ State.Inv { keyFrame frameP3 with padchk := false }
    ∧ exec .encrypt keyMessage = .next t ∧ t.errCode = 0 ∧ (keyFrame frameP3).nblkMax = keyMessage.nblkMax
    ∧ (keyFrame frameP3).keyLen = keyMessage.keyLen ∧ (∀ i, keyAt (keyFrame frameP3) i = keyAt keyMessage i)
    ∧ (keyFrame frameP3).frameLen = t.frameLen ∧ (keyFrame frameP3).frameText = t.frameText :=
  let h := inv_keyFrame (f := frameP3) (by decide)
  ⟨_, inv_keyMessage, ⟨h.1, h.2, h.3, h.4, h.5, h.6, h.7, h.8, h.9, h.10, h.11⟩, exec_after _ _, encrypt_keyMessage.1, rfl, rfl,
    fun _ => rfl, by rw [encrypt_keyMessage.2.2]; decide, by rw [encrypt_keyMessage.2.1]; decide +kernel⟩

/-- Two cores with the same key and message, and different padding modes. -/
theorem witness_EncryptDependsOnKeyAndMessageOnly : ∃ t, keyMessage.Inv ∧ State.Inv { keyMessage with padchk := false }
    ∧ exec .encrypt keyMessage = .next t ∧ t.errCode = 0 :=
  let h := inv_keyMessage
  ⟨_, h, ⟨h.1, h.2, h.3, h.4, h.5, h.6, h.7, h.8, h.9, h.10, h.11⟩, exec_after _ _, encrypt_keyMessage.1⟩

theorem witness_CorruptFramesFailAsInput : (keyFrame frameP6).keyLen.toNat ∈ [16, 24, 32]
    ∧ (keyFrame frameP6).frameLen.toNat ≤ 4 * ((16 * (keyFrame frameP6).nblkMax + 2) / 3) := by decide +kernel

theorem witness_ErrorsChangeOnlyStatus : ∃ t, runCommand 0 State.reset = .next t ∧ t.errCode ≠ 0 := ⟨_, rfl, by decide⟩

theorem witness_CommandsRaiseOnlyTheirErrors : ∃ t, exec .encblk State.reset = .next t := ⟨_, exec_after _ _⟩

/-- A command word that succeeds, and one that ends in an error. -/
theorem witness_StatusIsNotReadByCommands : (∃ t, runCommand 0x22 State.reset = .next t ∧ t.errCode = 0)
    ∧ ∃ t, runCommand 0x30 State.reset = .next t ∧ t.errCode ≠ 0 := ⟨⟨_, rfl, rfl⟩, _, rfl, by decide⟩

theorem witness_CommandsWriteOnlyTheirStorage : ∃ t, exec .keyexp busy = .next t ∧ Instr.keyexp ∈ expandsKey
    ∧ Instr.keyexp ∉ [Instr.ststate, .encblk, .decblk] := ⟨_, exec_after _ _, by decide⟩

/-! ## Host scripts (R88) -/

/-- `setkey` of two bytes, and a command with operands (R87, R88): the transactions R88 expands them to. -/
theorem test_script_setkey : scriptEvents [.setkey [0x30, 0x31], .command (.gfmul 0x57 0x83)]
    = [.memWrite8 0x000100 0x30, .memWrite8 0x000101 0x31, .memWrite32 0x00000c 2, .memWrite32 0x000000 0x00835701] := by
  decide

/-- A key of 33 bytes: 32 writes of KEY and KEYLEN 33 (R88). -/
theorem test_script_longKey : (scriptEvents [.setkey (List.replicate 33 0)]).length = 33
    ∧ (scriptEvents [.setkey (List.replicate 33 0)]).getLast? = some (.memWrite32 0x00000c 33) := by decide

end Sys2Proof.Tests
end

/-! ## The opcode table and the decoder (R80 to R84)

A row of the table is a command's mask and opcode (`row`), and the table lists one row for each command. So an opcode is in
the table exactly when `commandOf` reads a command from it, and a word that decodes is selected by the row of its command.
Facts about the bits of a word are said of its four fields, which together are the word (`fieldsOf_injective`). -/

namespace Sys2Proof.Encoding

open Sys2Proof Sys2Proof.Machine Sys2Proof.Claims

/-! ### The fields of a word -/

theorem fieldsOf_injective : Function.Injective fieldsOf := by
  intro c d h
  have fieldEq (k : Nat) (e : c.extractLsb' k 8 = d.extractLsb' k 8) : c.toNat / 2 ^ k % 256 = d.toNat / 2 ^ k % 256 := by
    simpa [Nat.shiftRight_eq_div_pow] using congrArg BitVec.toNat e
  have hopc := fieldEq 0 (congrArg CommandFields.opc h)
  have ha := fieldEq 8 (congrArg CommandFields.a h)
  have hb := fieldEq 16 (congrArg CommandFields.b h)
  have hz := fieldEq 24 (congrArg CommandFields.z h)
  exact BitVec.eq_of_toNat_eq (by omega)

theorem fieldsOf_and (c d : Word) :
    fieldsOf (c &&& d) = ⟨(fieldsOf c).opc &&& (fieldsOf d).opc, (fieldsOf c).a &&& (fieldsOf d).a,
      (fieldsOf c).b &&& (fieldsOf d).b, (fieldsOf c).z &&& (fieldsOf d).z⟩ := by
  simp [fieldsOf, BitVec.extractLsb'_and]

theorem fieldsOf_setWidth (x : Byte) : fieldsOf (x.setWidth 32) = ⟨x, 0, 0, 0⟩ := by
  have low : (x.setWidth 32).extractLsb' 0 8 = x := by
    ext j hj
    simp [show j < 32 by omega, BitVec.getLsbD_eq_getElem hj]
  have high (k : Nat) (hk : 8 ≤ k) : (x.setWidth 32).extractLsb' k 8 = 0 := by
    ext j hj
    simp [BitVec.getLsbD_of_ge x (k + j) (by omega)]
  rw [fieldsOf, low, high 8 (by decide), high 16 (by decide), high 24 (by decide)]

theorem setWidth_byte_inj {x y : Byte} : x.setWidth 32 = y.setWidth 32 ↔ x = y := by
  refine ⟨fun h => ?_, congrArg _⟩
  simpa [fieldsOf_setWidth] using congrArg fieldsOf h

@[simp] theorem byte_and_ff (x : Byte) : x &&& 0xff#8 = x := BitVec.and_allOnes

/-- The low byte of a word, in place, is its opcode (R80). -/
theorem word_and_ff (c : Word) : c &&& 0xff = (fieldsOf c).opc.setWidth 32 := by
  apply fieldsOf_injective
  rw [fieldsOf_and, fieldsOf_setWidth, show fieldsOf 0xff = ⟨0xff, 0, 0, 0⟩ from rfl]
  simp

/-! ### The rows of the table -/

/-- The mask of a row of R82: 0 in the operand fields the command uses, 1 elsewhere. -/
def shapeMask : OperandShape → Word
  | .neither => 0xffffffff
  | .fieldA => 0xffff00ff
  | .fieldsAB => 0xff0000ff

/-- The row of R82 for a command: the mask of its shape, and its opcode. -/
def row (i : Instr) : Word × Word := (shapeMask i.shape, i.fields.opc.setWidth 32)

/-- The commands in the order of `opcodeTable`; a row does not depend on the operands. -/
def commands : List Instr :=
  [.gfmul 0 0, .addroundkey 0, .keyexp, .ldstate, .ststate, .subbytes, .shiftrows, .mixcolumns, .invsubbytes,
    .invshiftrows, .invmixcolumns, .encblk, .decblk, .pad, .unpad, .ecbenc, .ecbdec, .b64enc, .b64dec, .encrypt, .decrypt]

theorem opcodeTable_eq_map_row : opcodeTable = commands.map row := rfl

theorem exists_row_of_mem_opcodeTable {r : Word × Word} (h : r ∈ opcodeTable) : ∃ i, r = row i := by
  rw [opcodeTable_eq_map_row, List.mem_map] at h
  obtain ⟨i, -, rfl⟩ := h
  exact ⟨i, rfl⟩

theorem row_mem_opcodeTable (i : Instr) : row i ∈ opcodeTable := by
  rw [opcodeTable_eq_map_row]
  cases i with
  | gfmul a b => exact List.mem_map.mpr ⟨.gfmul 0 0, by decide, rfl⟩
  | addroundkey r => exact List.mem_map.mpr ⟨.addroundkey 0, by decide, rfl⟩
  | _ => exact List.mem_map_of_mem (by decide)

/-- A word's low byte is that of a row's match exactly when the row's command has the word's opcode. -/
theorem and_ff_eq_row_iff (c : Word) (i : Instr) : c &&& 0xff = (row i).2 &&& 0xff ↔ (fieldsOf c).opc = i.fields.opc := by
  rw [word_and_ff, word_and_ff, row, fieldsOf_setWidth]
  exact setWidth_byte_inj

/-- A word with no reserved or unused field set holds, under the mask of the shape, its opcode alone (R81 step 2). -/
theorem word_and_shapeMask_of_wellFormed {c : Word} {shape : OperandShape} (h : (fieldsOf c).wellFormed shape = true) :
    c &&& shapeMask shape = (fieldsOf c).opc.setWidth 32 := by
  apply fieldsOf_injective
  rw [fieldsOf_and, fieldsOf_setWidth]
  simp only [CommandFields.wellFormed, CommandFields.reservedClear, Bool.and_eq_true, beq_iff_eq] at h
  obtain ⟨⟨hz, hb⟩, ha⟩ := h
  cases shape with
  | neither =>
    have hb0 : (fieldsOf c).b = 0 := beq_iff_eq.mp hb
    have ha0 : (fieldsOf c).a = 0 := beq_iff_eq.mp ha
    rw [show fieldsOf (shapeMask .neither) = ⟨0xff, 0xff, 0xff, 0xff⟩ from rfl]
    simp [hz, hb0, ha0]
  | fieldA =>
    have hb0 : (fieldsOf c).b = 0 := beq_iff_eq.mp hb
    rw [show fieldsOf (shapeMask .fieldA) = ⟨0xff, 0, 0xff, 0xff⟩ from rfl]
    simp [hz, hb0]
  | fieldsAB =>
    rw [show fieldsOf (shapeMask .fieldsAB) = ⟨0xff, 0, 0, 0xff⟩ from rfl]
    simp [hz]

/-! ### The decoder against the table -/

/-- The command read from a word has the word's opcode (R82). -/
theorem opc_of_commandOf {f : CommandFields} {i : Instr} (h : commandOf f = some i) : f.opc = i.fields.opc := by
  unfold commandOf at h
  split at h <;> cases h <;> exact BitVec.eq_of_toNat_eq ‹_›

/-- The opcode of a command is assigned (R82). -/
theorem exists_commandOf_of_opc {f : CommandFields} {i : Instr} (h : f.opc = i.fields.opc) :
    ∃ j, commandOf f = some j := by
  cases i <;> simp [commandOf, h, Instr.fields]

theorem decode_of_commandOf_none {c : Word} (h : commandOf (fieldsOf c) = none) : decode c = .error .unassignedOpcode := by
  simp [decode, h]

theorem decode_of_commandOf_some {c : Word} {i : Instr} (h : commandOf (fieldsOf c) = some i) :
    decode c = if (fieldsOf c).wellFormed i.shape then .ok i else .error .fieldNotZero := by
  simp [decode, h]

/-- A word with a well-formed command in it is selected by the row of that command (R82). -/
theorem row_selects_of_commandOf {c : Word} {i : Instr} (h : commandOf (fieldsOf c) = some i)
    (hwf : (fieldsOf c).wellFormed i.shape = true) : c &&& (row i).1 = (row i).2 := by
  rw [row, word_and_shapeMask_of_wellFormed hwf, opc_of_commandOf h]

/-- R81 step 1: an opcode of no row is unassigned. -/
theorem decode_of_no_opcode {c : Word} (h : ∀ r ∈ opcodeTable, c &&& 0xff ≠ r.2 &&& 0xff) :
    decode c = .error .unassignedOpcode := by
  cases hc : commandOf (fieldsOf c) with
  | none => exact decode_of_commandOf_none hc
  | some i => exact absurd ((and_ff_eq_row_iff c i).mpr (opc_of_commandOf hc)) (h (row i) (row_mem_opcodeTable i))

/-- R81 step 2: a word with an assigned opcode that no row selects has a reserved or unused field set. -/
theorem decode_of_no_row {c : Word} (hopc : ∃ r ∈ opcodeTable, c &&& 0xff = r.2 &&& 0xff)
    (hrow : ∀ r ∈ opcodeTable, c &&& r.1 ≠ r.2) : decode c = .error .fieldNotZero := by
  obtain ⟨r, hr, hc⟩ := hopc
  obtain ⟨i, rfl⟩ := exists_row_of_mem_opcodeTable hr
  obtain ⟨j, hj⟩ := exists_commandOf_of_opc ((and_ff_eq_row_iff c i).mp hc)
  have hwf : ¬ (fieldsOf c).wellFormed j.shape = true :=
    fun hwf => hrow (row j) (row_mem_opcodeTable j) (row_selects_of_commandOf hj hwf)
  rw [decode_of_commandOf_some hj, if_neg hwf]

/-! ### Illegal words (R84) -/

/-- A word the decoder rejects raises its error and does nothing else (R81, R226). -/
theorem runCommand_of_decode_error {c : Word} {e : DecodeError} (h : decode c = .error e) (s : State) :
    runCommand c s = .next (s.raise (failureOf e)) := by
  rw [runCommand_eq_complete, wordResult, h, State.complete_error]

/-- Settles O3: the two hypotheses are the decoder's two errors, and an error of the decoder writes only STATUS. -/
theorem illegalWordsRaiseCommandError : Obligations.IllegalWordsRaiseCommandError := by
  intro c s
  constructor
  · intro hopc
    exact runCommand_of_decode_error (decode_of_no_opcode hopc) s
  · intro hopc hrow
    exact runCommand_of_decode_error (decode_of_no_row hopc hrow) s

end Sys2Proof.Encoding

/-! ## The multiplier (R100, R101)

Both the multiplier and the carry-less product are additive in each factor. So "`gmul(a, b)` is the remainder of the product
of `a` and `b`" passes from two pairs of factors to their XOR, the quotients adding up, and it is enough to divide the
products of single bits. -/

namespace Sys2Proof.GaloisField

open Sys2Proof Sys2Proof.Machine Sys2Proof.Claims

/-! ### The carry-less product -/

/-- What bit `i` of the second factor adds to the product so far. -/
def polyMulStep (a b acc i : Nat) : Nat := if b.testBit i then acc ^^^ (a <<< i) else acc

theorem polyMul_eq_foldl (a b : Nat) : polyMul a b = (List.range 9).foldl (polyMulStep a b) 0 := rfl

/-- A product is the XOR of two others when it is so after each bit. -/
theorem polyMul_eq_xor {a b c d e f : Nat}
    (h : ∀ x y i, polyMulStep a b (x ^^^ y) i = polyMulStep c d x i ^^^ polyMulStep e f y i) :
    polyMul a b = polyMul c d ^^^ polyMul e f := by
  have fold (l : List Nat) (x y : Nat) : l.foldl (polyMulStep a b) (x ^^^ y)
      = l.foldl (polyMulStep c d) x ^^^ l.foldl (polyMulStep e f) y := by
    induction l generalizing x y with
    | nil => rfl
    | cons i l ih => rw [List.foldl_cons, h, ih, List.foldl_cons, List.foldl_cons]
  simp only [polyMul_eq_foldl]
  exact fold (List.range 9) 0 0

theorem polyMul_xor_left (a b c : Nat) : polyMul (a ^^^ b) c = polyMul a c ^^^ polyMul b c := by
  refine polyMul_eq_xor fun x y i => ?_
  simp only [polyMulStep, Nat.shiftLeft_xor_distrib]
  cases c.testBit i with
  | true => simp only [if_true]; ac_rfl
  | false => rfl

theorem polyMul_xor_right (a b c : Nat) : polyMul a (b ^^^ c) = polyMul a b ^^^ polyMul a c := by
  refine polyMul_eq_xor fun x y i => ?_
  simp only [polyMulStep, Nat.testBit_xor]
  generalize a <<< i = d
  cases b.testBit i <;> cases c.testBit i
  case false.false => rfl
  case false.true => exact Nat.xor_assoc x y d
  case true.false => show x ^^^ y ^^^ d = x ^^^ d ^^^ y; ac_rfl
  case true.true =>
    calc x ^^^ y = x ^^^ y ^^^ (d ^^^ d) := by rw [Nat.xor_self, Nat.xor_zero]
      _ = x ^^^ d ^^^ (y ^^^ d) := by ac_rfl

/-! ### Division with remainder -/

/-- A property of bytes that XOR keeps holds of every byte when it holds of the single bits. -/
theorem byte_xor_induction {P : Byte → Prop} (xor : ∀ x y, P x → P y → P (x ^^^ y)) (bits : ∀ b ∈ singleBits, P b)
    (x : Byte) : P x := by
  obtain ⟨ys, hys, rfl⟩ := exists_singleBits x
  induction ys with
  | nil => exact xor 1 1 (bits 1 (by decide)) (bits 1 (by decide))
  | cons y ys ih =>
    exact xor _ _ (bits y (hys y List.mem_cons_self)) (ih fun z hz => hys z (List.mem_cons_of_mem y hz))

/-- The number `n` leaves the remainder `r` on division by `x^8+x^4+x^3+x+1`, with a quotient of degree below 7 (R100). -/
def LeavesRemainder (n : Nat) (r : Byte) : Prop := ∃ q, q < 2 ^ 7 ∧ n = polyMul q 0x11b ^^^ r.toNat

theorem LeavesRemainder.xor {m n : Nat} {r t : Byte} (hm : LeavesRemainder m r) (hn : LeavesRemainder n t) :
    LeavesRemainder (m ^^^ n) (r ^^^ t) := by
  obtain ⟨p, hp, rfl⟩ := hm
  obtain ⟨q, hq, rfl⟩ := hn
  refine ⟨p ^^^ q, Nat.xor_lt_two_pow hp hq, ?_⟩
  rw [polyMul_xor_left, BitVec.toNat_xor]
  ac_rfl

/-- The products of two single bits, `x^0` to `x^14`, divided. -/
theorem gmul_remainder_on_bits : ∀ a ∈ singleBits, ∀ b ∈ singleBits,
    LeavesRemainder (polyMul a.toNat b.toNat) (gmul a b) := by
  unfold LeavesRemainder
  decide +kernel

theorem polyMul_leavesRemainder_gmul (a b : Byte) : LeavesRemainder (polyMul a.toNat b.toNat) (gmul a b) := by
  induction a using byte_xor_induction with
  | xor x y hx hy =>
    rw [BitVec.toNat_xor, polyMul_xor_left, gmul_xor_left]
    exact hx.xor hy
  | bits a ha =>
    induction b using byte_xor_induction with
    | xor x y hx hy =>
      rw [BitVec.toNat_xor, polyMul_xor_right, gmul_xor_right]
      exact hx.xor hy
    | bits b hb => exact gmul_remainder_on_bits a ha b hb

/-- Settles O18: the division is checked on single bits, and additivity carries it to all bytes. -/
theorem gmulIsRemainderOfProduct : Obligations.GmulIsRemainderOfProduct := polyMul_leavesRemainder_gmul

/-! ### The corner cases of the product (R101) -/

@[simp] theorem gmul_zero_left (b : Byte) : gmul 0 b = 0 := by simpa using gmul_xor_left 0 0 b

@[simp] theorem gmul_zero_right (a : Byte) : gmul a 0 = 0 := by simpa using gmul_xor_right a 0 0

@[simp] theorem gmul_one_left (b : Byte) : gmul 1 b = b :=
  byte_additive_ext (f := gmul 1) (g := id) (gmul_xor_right 1) (fun _ _ => rfl) (by decide) b

/-! ### The command (R101) -/

/-- A word is known from its bytes: its four fields, least significant first (R80). -/
theorem fieldsOf_eq_of_toNat {w : Word} {o a b z : Byte}
    (h : w.toNat = o.toNat + 2 ^ 8 * a.toNat + 2 ^ 16 * b.toNat + 2 ^ 24 * z.toNat) : fieldsOf w = ⟨o, a, b, z⟩ := by
  have field (k : Nat) (x : Byte) (hx : w.toNat / 2 ^ k % 256 = x.toNat) : w.extractLsb' k 8 = x := by
    apply BitVec.eq_of_toNat_eq
    rw [BitVec.extractLsb'_toNat, Nat.shiftRight_eq_div_pow]
    exact hx
  rw [fieldsOf, field 0 o (by omega), field 8 a (by omega), field 16 b (by omega), field 24 z (by omega)]

theorem toNat_encode (i : Instr) : (encode i).toNat = i.fields.opc.toNat + 2 ^ 8 * i.fields.a.toNat
    + 2 ^ 16 * i.fields.b.toNat + 2 ^ 24 * i.fields.z.toNat := by
  simp only [encode, BitVec.toNat_add, BitVec.toNat_shiftLeft, BitVec.toNat_setWidth, Nat.shiftLeft_eq]
  omega

theorem fieldsOf_encode (i : Instr) : fieldsOf (encode i) = i.fields :=
  fieldsOf_eq_of_toNat (toNat_encode i)

/-- Decoding undoes encoding (R82, R87). -/
theorem decode_encode (i : Instr) : decode (encode i) = .ok i := by
  rw [decode, fieldsOf_encode]
  cases i <;> rfl

/-- The word of GFMUL (R82). -/
theorem encode_gfmul (a b : Byte) :
    encode (.gfmul a b) = 0x01 + (a.setWidth 32 <<< 8) + (b.setWidth 32 <<< 16) := by
  simp [encode, Instr.fields]

/-- What GFMUL writes (R101). -/
theorem exec_gfmul (a b : Byte) (s : State) : exec (.gfmul a b) s =
    .next { s with result := BitVec.ofNat 32 (gmul a b).toNat, errCode := 0, errInfo := 0 } := by
  rw [exec_eq_complete, commandResult, State.complete_ok, BitVec.ofNat_toNat]
  rfl

/-- Settles O17: the word is the encoder's, and the product's corner cases follow from its additivity. -/
theorem gfmulWritesProduct : Obligations.GfmulWritesProduct := by
  refine ⟨fun a b s => ⟨?_, exec_gfmul a b s⟩, fun b => ⟨gmul_zero_left b, gmul_zero_right b, gmul_one_left b⟩, ?_⟩
  · rw [← encode_gfmul]
    exact decode_encode (.gfmul a b)
  · decide

end Sys2Proof.GaloisField

/-! ## The product is commutative and associative (R102)

Both laws compare maps that are additive in each factor, so they are checked on the single bits. -/

namespace Sys2Proof.GaloisField

open Sys2Proof.Machine

theorem gmul_comm_on_bits : ∀ a ∈ singleBits, ∀ b ∈ singleBits, gmul a b = gmul b a := by decide +kernel

theorem gmul_comm (a b : Byte) : gmul a b = gmul b a := by
  induction a using byte_xor_induction with
  | xor x y hx hy => rw [gmul_xor_left, gmul_xor_right, hx, hy]
  | bits a ha =>
    induction b using byte_xor_induction with
    | xor x y hx hy => rw [gmul_xor_left, gmul_xor_right, hx, hy]
    | bits b hb => exact gmul_comm_on_bits a ha b hb

theorem gmul_assoc_on_bits : ∀ a ∈ singleBits, ∀ b ∈ singleBits, ∀ c ∈ singleBits,
    gmul (gmul a b) c = gmul a (gmul b c) := by
  decide +kernel

theorem gmul_assoc (a b c : Byte) : gmul (gmul a b) c = gmul a (gmul b c) := by
  induction a using byte_xor_induction with
  | xor x y hx hy => rw [gmul_xor_left, gmul_xor_left, gmul_xor_left, hx, hy]
  | bits a ha =>
    induction b using byte_xor_induction with
    | xor x y hx hy => rw [gmul_xor_right, gmul_xor_left, gmul_xor_left, gmul_xor_right, hx, hy]
    | bits b hb =>
      induction c using byte_xor_induction with
      | xor x y hx hy => rw [gmul_xor_right, gmul_xor_right, gmul_xor_right, hx, hy]
      | bits c hc => exact gmul_assoc_on_bits a ha b hb c hc

@[simp] theorem gmul_one_right (a : Byte) : gmul a 1 = a := by rw [gmul_comm, gmul_one_left]

/-- A byte has at most one multiplicative inverse (R116). -/
theorem gmul_inverse_unique {x y z : Byte} (hy : gmul x y = 1) (hz : gmul x z = 1) : y = z :=
  calc y = gmul (gmul z x) y := by rw [gmul_comm z x, hz, gmul_one_left]
    _ = gmul z (gmul x y) := gmul_assoc z x y
    _ = z := by rw [hy, gmul_one_right]

end Sys2Proof.GaloisField

/-! ## The substitution tables (R111 to R116)

The affine map of R116 can be undone, so each entry of SBOX names the byte it is the affine image of. Going through the
table once shows that byte to be the inverse of the index; and an index has no other inverse. -/

namespace Sys2Proof.SubstitutionTables

open Sys2Proof Sys2Proof.Machine Sys2Proof.GaloisField

/-- The affine map of R116. -/
def affineMap (y : Byte) : Byte :=
  y ^^^ y.rotateLeft 1 ^^^ y.rotateLeft 2 ^^^ y.rotateLeft 3 ^^^ y.rotateLeft 4 ^^^ 0x63

/-- The map that undoes `affineMap`. -/
def affineUnmap (b : Byte) : Byte := b.rotateLeft 1 ^^^ b.rotateLeft 3 ^^^ b.rotateLeft 6 ^^^ 0x05

theorem affineMap_affineUnmap : ∀ b, affineMap (affineUnmap b) = b := by decide +kernel

/-- Every entry of SBOX but the first is the affine image of the inverse of its index (R116). -/
theorem gmul_affineUnmap_sbox : ∀ x, x ≠ 0 → gmul x (affineUnmap (sbox x)) = 1 := by decide +kernel

/-- INV_SBOX undoes SBOX (R114). -/
theorem invSbox_sbox : ∀ x, invSbox (sbox x) = x := by decide +kernel

theorem sbox_eq_affineMap_of_inverse {x y : Byte} (hx : x ≠ 0) (hxy : gmul x y = 1) : sbox x = affineMap y := by
  have hy : y = affineUnmap (sbox x) := gmul_inverse_unique hxy (gmul_affineUnmap_sbox x hx)
  rw [hy, affineMap_affineUnmap]

theorem sbox_zero : sbox 0 = affineMap 0 := by decide

/-- Settles O21: the inverse of `x` is unique, so it is the byte that the entry of SBOX names. -/
theorem sboxIsAffineOfInverse : Obligations.SboxIsAffineOfInverse := by
  intro x y hzero hinverse
  have hsbox : sbox x = affineMap y := by
    by_cases hx : x = 0
    · rw [hzero hx, hx, sbox_zero]
    · exact sbox_eq_affineMap_of_inverse hx (hinverse hx)
  have hinv : invSbox (affineMap y) = x := by rw [← hsbox, invSbox_sbox]
  exact ⟨hsbox, hinv⟩

/-! ### The round constants (R115) -/

theorem rcon_succ : ∀ j, j < 9 → rcon (j + 1) = gmul (rcon j) 2 := by decide

/-- A word before word `nk * (m + 2)` of the schedule reads a constant of index at most `m` (R124). -/
theorem rcon_index_le {nk m i : Nat} (h : i < nk * (m + 2)) : i / nk - 1 ≤ m := by
  have hdiv : i / nk < m + 2 := Nat.div_lt_of_lt_mul h
  omega

/-- Settles O22: the table is read off, and the indices are bounded by the number of words of W that each key length fills. -/
theorem rconIsPowersOfX : Obligations.RconIsPowersOfX := by
  refine ⟨rfl, rfl, rcon_succ, fun i _ hi _ => ?_, fun i _ hi _ => ?_, fun i _ hi _ => ?_⟩
  · exact rcon_index_le (nk := 4) (by omega)
  · exact rcon_index_le (nk := 6) (by omega)
  · exact rcon_index_le (nk := 8) (by omega)

end Sys2Proof.SubstitutionTables

/-! ## The key schedule (R121, R122)

The laws of `expandKey` give every word of the schedule; what is left is to read W after KEYEXP as that schedule, and the
recurrence of the model as the rule written out byte by byte. -/

namespace Sys2Proof.KeyExpansion

open Sys2Proof Sys2Proof.Machine Sys2Proof.Claims

/-! ### The words of the schedule -/

/-- The model's recurrence is the rule of R122: each branch gives the same four bytes. -/
theorem scheduleWord_eq_rule (nk i : Nat) (w : List Quad) :
    scheduleWord nk i w = scheduleWordRule nk i (w.getD · .zero) := by
  unfold scheduleWord scheduleTerm scheduleWordRule
  by_cases hmod : i % nk = 0
  · rw [if_pos hmod, if_pos hmod]
    simp [subWord, rotWord, Quad.map, Quad.xor]
  · rw [if_neg hmod, if_neg hmod]
    by_cases hsub : 6 < nk ∧ i % nk = 4
    · rw [if_pos hsub, if_pos hsub]
      rfl
    · rw [if_neg hsub, if_neg hsub]
      rfl

/-- The key sequence that is expanded reads as the key register file below the key length (R22, R121). -/
theorem getD_keyBytes (s : State) {n i : Nat} (hi : i < n) : (s.keyBytes n).getD i 0 = keyAt s i := by
  rw [State.keyBytes, keyAt, List.getD_eq_getElem?_getD, List.getElem?_take_of_lt hi, List.getD_eq_getElem?_getD]

/-- The first `Nk` words of the current key's schedule (R122). -/
theorem schedule_first_words (s : State) {i : Nat} (hi : i < s.keyLen.toNat / 4) : s.schedule.words.getD i .zero =
    ⟨keyAt s (4 * i), keyAt s (4 * i + 1), keyAt s (4 * i + 2), keyAt s (4 * i + 3)⟩ := by
  rw [State.schedule, expandKey_first _ _ hi, getD_keyWords _ hi]
  rw [getD_keyBytes, getD_keyBytes, getD_keyBytes, getD_keyBytes] <;> omega

theorem length_schedule (s : State) : s.schedule.words.length = 4 * (s.keyLen.toNat / 4 + 7) := length_expandKey _ _

/-! ### The command -/

/-- The state in which KEYEXP ends with a legal key length (R121). -/
def expanded (s : State) : State := (s.commitSchedule s.schedule).withStatus 0 0

theorem exec_keyexp_of_legal {s : State} (h : s.keyLen.toNat ∈ [16, 24, 32]) : exec .keyexp s = .next (expanded s) := by
  rw [exec_eq_complete, commandResult, if_pos (legalKeyLength_iff.mpr (by simpa using h))]
  rfl

theorem exec_keyexp_of_illegal {s : State} (h : s.keyLen.toNat ∉ [16, 24, 32]) :
    exec .keyexp s = .next { s with errCode := 1, errInfo := 0 } := by
  rw [exec_eq_complete, commandResult, if_neg fun hl => h (by simpa using legalKeyLength_iff.mp hl)]
  rfl

theorem toNat_expanded_nk (s : State) : (expanded s).nk.toNat = s.keyLen.toNat / 4 := by
  have hlt := s.keyLen.isLt
  show (BitVec.ofNat 32 (s.keyLen.toNat / 4)).toNat = _
  rw [BitVec.toNat_ofNat, Nat.mod_eq_of_lt (by omega)]

theorem toNat_expanded_nr (s : State) : (expanded s).nr.toNat = s.keyLen.toNat / 4 + 6 := by
  have hlt := s.keyLen.isLt
  show (BitVec.ofNat 32 (s.keyLen.toNat / 4 + 6)).toNat = _
  rw [BitVec.toNat_ofNat, Nat.mod_eq_of_lt (by omega)]

/-- With at most 32 key bytes the schedule fits W, so W reads as the schedule, and as zero above it (R24, R121). -/
theorem wordAt_expanded {s : State} (h : s.keyLen.toNat ≤ 32) (i : Nat) :
    wordAt (expanded s) i = s.schedule.words.getD i .zero :=
  getD_roundKeyMemory (by rw [length_schedule]; omega) i

theorem wordAt_expanded_next {s : State} (h4 : 4 ≤ s.keyLen.toNat) (h32 : s.keyLen.toNat ≤ 32) {i : Nat}
    (hi : s.keyLen.toNat / 4 ≤ i) (hi' : i < 4 * (s.keyLen.toNat / 4 + 7)) :
    wordAt (expanded s) i = scheduleWordRule (s.keyLen.toNat / 4) i (wordAt (expanded s)) := by
  have hw : wordAt (expanded s) = (s.schedule.words.getD · .zero) := funext (wordAt_expanded h32)
  rw [hw, ← scheduleWord_eq_rule]
  exact expandKey_next _ h4 hi hi'

theorem wordAt_expanded_unused {s : State} (h32 : s.keyLen.toNat ≤ 32) {i : Nat} (hi : 4 * (s.keyLen.toNat / 4 + 7) ≤ i) :
    wordAt (expanded s) i = ⟨0, 0, 0, 0⟩ := by
  have hnone : s.schedule.words[i]? = none := List.getElem?_eq_none (by rw [length_schedule]; exact hi)
  rw [wordAt_expanded h32, List.getD_eq_getElem?_getD, hnone]
  rfl

/-- Settles O23: each range of W is read from the schedule by the law of its words. -/
theorem keyexpWritesSchedule : Obligations.KeyexpWritesSchedule := by
  refine fun s => ⟨fun hlegal => ?_, exec_keyexp_of_illegal⟩
  have hlen : 4 ≤ s.keyLen.toNat ∧ s.keyLen.toNat ≤ 32 := by
    simp only [List.mem_cons, List.not_mem_nil, or_false] at hlegal
    omega
  obtain ⟨h4, h32⟩ := hlen
  refine ⟨expanded s, exec_keyexp_of_legal hlegal, rfl, ?_⟩
  rw [toNat_expanded_nr, toNat_expanded_nk]
  refine ⟨rfl, rfl, fun i hi => ?_, fun i hi hi' => ?_, fun i hi _ => ?_⟩
  · rw [wordAt_expanded h32, schedule_first_words s hi]
  · exact wordAt_expanded_next h4 h32 hi hi'
  · exact wordAt_expanded_unused h32 hi

end Sys2Proof.KeyExpansion

/-! ## The round primitives and the block commands (R142 to R154)

Each command computes one new value of S or BLK, or raises an error, before the wrapper ends it. So a statement needs
only that value, and the law of the primitive behind it read byte by byte. -/

namespace Sys2Proof.BlockTransform

open Sys2Proof Sys2Proof.Machine Sys2Proof.Claims Sys2Proof.GaloisField

/-! ### How the commands end -/

/-- A command that computes a new S and BLK commits them, with STATUS cleared, and changes nothing else (R89). -/
theorem exec_of_ok {i : Instr} {s : State} {x b : Block}
    (h : commandResult i s = .ok { s with cipherState := x, blk := b }) :
    exec i s = .next { s with cipherState := x, blk := b, errCode := 0, errInfo := 0 } := by
  rw [exec_eq_complete, h, State.complete_ok]
  rfl

/-- A command that computes an error writes its code and cause, and nothing else (R226). -/
theorem exec_of_error {i : Instr} {s : State} {e : CommandFailure} (h : commandResult i s = .error e) :
    exec i s = .next { s with errCode := e.code, errInfo := e.info } := by
  rw [exec_eq_complete, h, State.complete_error]
  rfl

/-! ### Adding a round key (R147) -/

theorem at_addRoundKey (k x : Block) (r c : Fin 4) : (addRoundKey k x).at r c = x.at r c ^^^ k.at r c :=
  match c with
  | 0 | 1 | 2 | 3 => Quad.get_xor _ _ r

/-- Column `c` of round key `r` is word `4r + c` of the round-key memory (R126). -/
theorem col_roundKey (s : State) (r : Nat) (c : Fin 4) : (roundKey s.w.toList r).col c = wordAt s (4 * r + c.val) :=
  match c with
  | 0 | 1 | 2 | 3 => rfl

theorem commandResult_addroundkey_invalid {s : State} (r : Byte) (hk : s.kvalid = false) :
    commandResult (.addroundkey r) s = .error .noRoundKeys :=
  if_pos hk

theorem commandResult_addroundkey_valid {s : State} (r : Byte) (hk : s.kvalid = true) :
    commandResult (.addroundkey r) s = if s.nr.toNat < r.toNat then .error .roundNumber
      else .ok { s with cipherState := addRoundKey (roundKey s.w.toList r.toNat) s.cipherState } :=
  if_neg (by simp [hk])

/-- Settles O31: KVALID is checked before the round number, and column `c` of the round key is word `4r + c`. -/
theorem addRoundKeyCommand : Obligations.AddRoundKeyCommand := by
  refine fun r s => ⟨fun hk => ?_, fun hk hr => ?_, fun hk hr => ?_⟩
  · exact exec_of_error (commandResult_addroundkey_invalid r hk)
  · exact exec_of_error ((commandResult_addroundkey_valid r hk).trans (if_pos hr))
  · refine ⟨addRoundKey (roundKey s.w.toList r.toNat) s.cipherState,
      exec_of_ok ((commandResult_addroundkey_valid r hk).trans (if_neg (by omega))), fun row c => ?_⟩
    rw [at_addRoundKey, ← col_roundKey]
    rfl

/-! ### Loading and storing (R142, R143) -/

/-- Settles O27: S and BLK hold their bytes alike, and block order puts row `r`, column `c` at byte `4c + r`. -/
theorem loadAndStoreState : Obligations.LoadAndStoreState := fun s =>
  ⟨⟨s.blk, exec_of_ok rfl, fun r c => (s.blk.getD_toList r c).symm⟩,
    s.cipherState, exec_of_ok rfl, s.cipherState.getD_toList⟩

/-! ### Substitution (R144, R148) -/

/-- Settles O28: each primitive maps its table over the State. -/
theorem substitutionCommands : Obligations.SubstitutionCommands := fun s =>
  ⟨⟨subBytes s.cipherState, exec_of_ok rfl, s.cipherState.at_map sbox⟩,
    invSubBytes s.cipherState, exec_of_ok rfl, s.cipherState.at_map invSbox⟩

/-! ### Row rotation (R145, R149) -/

theorem at_shiftRows (x : Block) {r c d : Fin 4} (h : d.val = (c.val + r.val) % 4) :
    (shiftRows x).at r c = x.at r d := by
  have hd : d = c + r := Fin.ext (by rw [h, Fin.val_add])
  rw [shiftRows, Block.at_ofRowCol, hd]

theorem at_invShiftRows (x : Block) {r c d : Fin 4} (h : d.val = (c.val + 4 - r.val) % 4) :
    (invShiftRows x).at r c = x.at r d := by
  have hd : d = c - r := Fin.ext (by rw [h, Fin.val_sub]; omega)
  rw [invShiftRows, Block.at_ofRowCol, hd]

/-- Settles O29: `Fin 4` addition and subtraction are the rotations modulo 4. -/
theorem rowRotationCommands : Obligations.RowRotationCommands := fun s =>
  ⟨⟨shiftRows s.cipherState, exec_of_ok rfl, fun _ _ _ => at_shiftRows s.cipherState⟩,
    invShiftRows s.cipherState, exec_of_ok rfl, fun _ _ _ => at_invShiftRows s.cipherState⟩

/-! ### Column mixing (R146, R150) -/

/-- One column of MixColumns with every coefficient of `M` written: a coefficient 1 leaves its byte as it is. -/
theorem mixColumn_eq_products (a : Quad) : mixColumn a = {
    b0 := gmul 2 a.b0 ^^^ gmul 3 a.b1 ^^^ gmul 1 a.b2 ^^^ gmul 1 a.b3
    b1 := gmul 1 a.b0 ^^^ gmul 2 a.b1 ^^^ gmul 3 a.b2 ^^^ gmul 1 a.b3
    b2 := gmul 1 a.b0 ^^^ gmul 1 a.b1 ^^^ gmul 2 a.b2 ^^^ gmul 3 a.b3
    b3 := gmul 3 a.b0 ^^^ gmul 1 a.b1 ^^^ gmul 1 a.b2 ^^^ gmul 2 a.b3 } := by
  simp only [mixColumn, gmul_one_left]

theorem at_mixColumns (x : Block) (r c : Fin 4) : (mixColumns x).at r c = matrixTimes mixMatrix x r c := by
  rw [mixColumns, Block.at_mapCols, mixColumn_eq_products]
  match r with
  | 0 | 1 | 2 | 3 => rfl

theorem at_invMixColumns (x : Block) (r c : Fin 4) : (invMixColumns x).at r c = matrixTimes invMixMatrix x r c := by
  rw [invMixColumns, Block.at_mapCols]
  match r with
  | 0 | 1 | 2 | 3 => rfl

/-- Settles O30: each byte of a mixed column is its row of the matrix times the column. -/
theorem columnMixingCommands : Obligations.ColumnMixingCommands := fun s =>
  ⟨⟨mixColumns s.cipherState, exec_of_ok rfl, at_mixColumns s.cipherState⟩,
    invMixColumns s.cipherState, exec_of_ok rfl, at_invMixColumns s.cipherState⟩

/-! ### The block commands (R153, R154) -/

theorem commandResult_encblk (s : State) : commandResult .encblk s = if s.kvalid = false then .error .noRoundKeys
    else .ok { s with cipherState := Block.zero, blk := encryptBlock s.w.toList s.nr.toNat s.blk } := rfl

theorem commandResult_decblk (s : State) : commandResult .decblk s = if s.kvalid = false then .error .noRoundKeys
    else .ok { s with cipherState := Block.zero, blk := decryptBlock s.w.toList s.nr.toNat s.blk } := rfl

/-- Settles O33: KVALID decides between the error and the block transform. -/
theorem blockCommands : Obligations.BlockCommands := by
  refine fun s => ⟨fun hk => ?_, fun hk => ?_⟩
  · exact ⟨exec_of_error ((commandResult_encblk s).trans (if_pos hk)),
      exec_of_error ((commandResult_decblk s).trans (if_pos hk))⟩
  · have hvalid : ¬ s.kvalid = false := by simp [hk]
    exact ⟨exec_of_ok ((commandResult_encblk s).trans (if_neg hvalid)),
      exec_of_ok ((commandResult_decblk s).trans (if_neg hvalid))⟩

end Sys2Proof.BlockTransform

/-! ## Buffers after a command (R30 to R32, R89)

A command of the padding and mode wrapper stores a sequence at the start of a buffer, in canonical form. So every statement
about a buffer byte by byte is a read inside or above the stored sequence. -/

namespace Sys2Proof.MessageBuffers

open Sys2Proof Sys2Proof.Machine

/-- A command that computes a state commits it, with STATUS cleared (R89). -/
theorem exec_of_computed {i : Instr} {s u : State} (h : commandResult i s = .ok u) :
    exec i s = .next (u.withStatus 0 0) := by
  rw [exec_eq_complete, h, State.complete_ok]

theorem read_store_inside {m : Memory} (h : m.wf = true) {bs : List Byte} {j : Nat} (hj : j < bs.length) :
    (m.store 0 bs).read j = bs.getD j 0 := by
  rw [Memory.read_store h, if_pos (by omega), Nat.sub_zero]

theorem read_store_above {m : Memory} (h : m.wf = true) {bs : List Byte} {j : Nat} (hj : bs.length ≤ j) :
    (m.store 0 bs).read j = m.read j := by
  rw [Memory.read_store h, if_neg (by omega)]

theorem nblkMax_le {s : State} (h : s.Inv) : s.nblkMax ≤ 49152 := h.nblkMax_range.2

/-- A length that fits a register is what the register then holds (R40). -/
theorem toNat_ofNat_length {xs : List Byte} (h : xs.length < 2 ^ 32) : (BitVec.ofNat 32 xs.length).toNat = xs.length := by
  rw [BitVec.toNat_ofNat, Nat.mod_eq_of_lt h]

theorem getD_eq_getElem_of_lt {xs : List Byte} {i : Nat} (h : i < xs.length) : xs.getD i 0 = xs[i] := by
  rw [List.getD_eq_getElem?_getD, List.getElem?_eq_getElem h, Option.getD_some]

theorem getD_message {s : State} {i : Nat} (hi : i < s.msgLen.toNat) : s.message.getD i 0 = s.msg.read i :=
  s.msg.getD_take hi

theorem getD_rawBytes {s : State} {i : Nat} (hi : i < s.rawLen.toNat) : s.rawBytes.getD i 0 = s.raw.read i :=
  s.raw.getD_take hi

theorem getD_take_rawBytes {s : State} {i n : Nat} (hn : i < n) (hi : i < s.rawLen.toNat) :
    (s.rawBytes.take n).getD i 0 = s.raw.read i := by
  rw [List.getD_eq_getElem?_getD, List.getElem?_take_of_lt hn, ← List.getD_eq_getElem?_getD, getD_rawBytes hi]

end Sys2Proof.MessageBuffers

/-! ## Padding (R181 to R188) -/

namespace Sys2Proof.Padding

open Sys2Proof Sys2Proof.Machine Sys2Proof.BlockTransform Sys2Proof.MessageBuffers

/-! ### The padded message -/

theorem getD_pad_inside (m : List Byte) {i : Nat} (hi : i < m.length) : (pad m).getD i 0 = m.getD i 0 := by
  rw [pad, List.getD_eq_getElem?_getD, List.getElem?_append_left hi, ← List.getD_eq_getElem?_getD]

/-- Every byte of the padding is the number of them (R181). -/
theorem getD_pad_above (m : List Byte) {i : Nat} (hi : m.length ≤ i) (hi' : i < paddedLength m.length) :
    (pad m).getD i 0 = BitVec.ofNat 8 (padLength m.length) := by
  have hcount : i - m.length < padLength m.length := by
    simp only [paddedLength, padLength] at hi' ⊢
    omega
  rw [pad, List.getD_eq_getElem?_getD, List.getElem?_append_right hi, List.getElem?_replicate_of_lt hcount,
    Option.getD_some]

/-- Settles O38: the bounds are those of `padLength`, and the length is the law of `pad`. -/
theorem paddedLengthBounds : Obligations.PaddedLengthBounds := by
  intro m
  have hlen : (pad m).length = 16 * (m.length / 16 + 1) := length_pad m
  refine ⟨padLength m.length, padLength_pos _, padLength_le _, rfl, rfl, hlen, by omega, by omega, fun h0 => ?_⟩
  have hp : padLength m.length = 16 := by rw [padLength, h0]
  rw [pad, hp]
  rfl

/-! ### PAD (R186) -/

theorem commandResult_pad (s : State) : commandResult .pad s =
    if 16 * s.nblkMax < s.msgLen.toNat then .error .sourceLength
    else if 16 * s.nblkMax < 16 * (s.msgLen.toNat / 16 + 1) then .error .resultTooLong
    else .ok (s.setRaw (pad s.message)) := rfl

theorem length_pad_message (s : State) : (pad s.message).length = 16 * (s.msgLen.toNat / 16 + 1) := by
  rw [length_pad, State.length_message, paddedLength]

theorem getD_pad_message_inside {s : State} {i : Nat} (hi : i < s.msgLen.toNat) :
    (pad s.message).getD i 0 = s.msg.read i := by
  rw [getD_pad_inside _ (by rwa [State.length_message]), getD_message hi]

theorem getD_pad_message_above {s : State} {i : Nat} (hi : s.msgLen.toNat ≤ i)
    (hi' : i < 16 * (s.msgLen.toNat / 16 + 1)) :
    (pad s.message).getD i 0 = BitVec.ofNat 8 (16 - s.msgLen.toNat % 16) := by
  rw [getD_pad_above _ (by rwa [State.length_message]) (by rwa [State.length_message]), State.length_message, padLength]

/-- Settles O40: a message below the capacity leaves room for its padding, and RAW is read inside the message, inside the
padding, and above both. -/
theorem padCommand : Obligations.PadCommand := by
  intro s hs len cap n
  refine ⟨fun hlong => ?_, fun hfull => ?_, fun hfits => ?_⟩
  · exact exec_of_error ((commandResult_pad s).trans (if_pos hlong))
  · exact exec_of_error ((commandResult_pad s).trans ((if_neg (by omega)).trans (if_pos (by omega))))
  · have hresult : commandResult .pad s = .ok (s.setRaw (pad s.message)) :=
      (commandResult_pad s).trans ((if_neg (by omega)).trans (if_neg (by omega)))
    have hn : (pad s.message).length = n := length_pad_message s
    have hcap := nblkMax_le hs
    refine ⟨_, exec_of_computed hresult, rfl, ?_, fun i hi => ?_, fun i hi hi' => ?_, fun i hi => ?_⟩
    · exact (toNat_ofNat_length (by omega)).trans hn
    · exact (read_store_inside hs.raw_wf (by omega)).trans (getD_pad_message_inside hi)
    · exact (read_store_inside hs.raw_wf (by omega)).trans (getD_pad_message_above hi hi')
    · exact read_store_above hs.raw_wf (by omega)

/-! ### Unpadding (R187) -/

/-- `unpad` of a sequence with a last byte: the checks of R187 in order. -/
theorem unpad_of_getLast? {x : List Byte} {p : Byte} (strict : Bool) (h : x.getLast? = some p) : unpad x strict =
    if strict && (p.toNat == 0 || decide (16 < p.toNat)) then .error .paddingRange
    else if x.length < p.toNat then .error .paddingUnderflow
    else if strict && (x.drop (x.length - p.toNat)).any (· != p) then .error .paddingBytes
    else .ok (x.take (x.length - p.toNat)) := by
  unfold unpad
  rw [h]

theorem any_drop_ne_iff {x : List Byte} {k : Nat} {p : Byte} :
    (x.drop k).any (· != p) = true ↔ ∃ j, k ≤ j ∧ j < x.length ∧ x.getD j 0 ≠ p := by
  rw [List.any_eq_true]
  constructor
  · rintro ⟨c, hc, hne⟩
    obtain ⟨i, hi, rfl⟩ := List.getElem_of_mem hc
    rw [List.length_drop] at hi
    refine ⟨k + i, by omega, by omega, ?_⟩
    rw [List.getElem_drop] at hne
    rw [getD_eq_getElem_of_lt (by omega)]
    exact bne_iff_ne.mp hne
  · rintro ⟨j, hkj, hj, hne⟩
    rw [getD_eq_getElem_of_lt hj] at hne
    refine ⟨x[j], ?_, bne_iff_ne.mpr hne⟩
    rw [List.mem_drop_iff_getElem]
    exact ⟨j - k, by omega, by simp only [Nat.add_sub_cancel' hkj]⟩

/-- The last byte of `RAW[0..RAWLEN)`. -/
theorem getLast?_rawBytes {s : State} (h : s.rawLen.toNat ≠ 0) :
    s.rawBytes.getLast? = some (s.raw.read (s.rawLen.toNat - 1)) := by
  have hlt : s.rawLen.toNat - 1 < s.rawBytes.length := by rw [State.length_rawBytes]; omega
  rw [List.getLast?_eq_getElem?, State.length_rawBytes, List.getElem?_eq_getElem hlt, ← getD_eq_getElem_of_lt hlt,
    getD_rawBytes (by omega)]

/-- What UNPAD finds in RAW when there is a last byte: the checks of R187 said of RAW itself. -/
theorem unpad_rawBytes_cases {s : State} (h : s.rawLen.toNat ≠ 0) :
    let n := s.rawLen.toNat
    let p := (s.raw.read (n - 1)).toNat
    let outOfRange := s.padchk = true ∧ (p = 0 ∨ 16 < p)
    let inconsistent := s.padchk = true ∧ ∃ j, n - p ≤ j ∧ j < n ∧ (s.raw.read j).toNat ≠ p
    (outOfRange → unpad s.rawBytes s.padchk = .error .paddingRange)
    ∧ (¬ outOfRange → n < p → unpad s.rawBytes s.padchk = .error .paddingUnderflow)
    ∧ (¬ outOfRange → p ≤ n → inconsistent → unpad s.rawBytes s.padchk = .error .paddingBytes)
    ∧ (¬ outOfRange → p ≤ n → ¬ inconsistent → unpad s.rawBytes s.padchk = .ok (s.rawBytes.take (n - p))) := by
  intro n p outOfRange inconsistent
  have hrange : (s.padchk && (p == 0 || decide (16 < p))) = true ↔ outOfRange := by simp [outOfRange]
  have hbytes : (s.padchk && (s.rawBytes.drop (n - p)).any (· != s.raw.read (n - 1))) = true ↔ inconsistent := by
    rw [Bool.and_eq_true, any_drop_ne_iff, State.length_rawBytes]
    refine and_congr_right fun _ => exists_congr fun j => and_congr_right fun _ => and_congr_right fun hj => ?_
    rw [getD_rawBytes hj, Ne, BitVec.toNat_inj.symm]
  rw [unpad_of_getLast? _ (getLast?_rawBytes h), State.length_rawBytes]
  refine ⟨fun hr => ?_, fun hr hp => ?_, fun hr hp hb => ?_, fun hr hp hb => ?_⟩
  · exact if_pos (hrange.mpr hr)
  · exact (if_neg (mt hrange.mp hr)).trans (if_pos hp)
  · exact (if_neg (mt hrange.mp hr)).trans ((if_neg (Nat.not_lt.mpr hp)).trans (if_pos (hbytes.mpr hb)))
  · exact (if_neg (mt hrange.mp hr)).trans ((if_neg (Nat.not_lt.mpr hp)).trans (if_neg (mt hbytes.mp hb)))

/-! ### UNPAD (R188) -/

theorem commandResult_unpad_tooLong {s : State} (h : 16 * s.nblkMax < s.rawLen.toNat) :
    commandResult .unpad s = .error .sourceLength :=
  if_pos h

theorem commandResult_unpad_of_error {s : State} {e : CommandFailure} (h : s.rawLen.toNat ≤ 16 * s.nblkMax)
    (he : unpad s.rawBytes s.padchk = .error e) : commandResult .unpad s = .error e := by
  rw [commandResult, rawCap, if_neg (by omega), he]

theorem commandResult_unpad_of_ok {s : State} {m : List Byte} (h : s.rawLen.toNat ≤ 16 * s.nblkMax)
    (hm : unpad s.rawBytes s.padchk = .ok m) : commandResult .unpad s = .ok (s.setMessage m) := by
  rw [commandResult, rawCap, if_neg (by omega), hm]

/-- Settles O41: UNPAD raises what `unpad` finds in RAW, or stores the bytes before the padding in MSG. -/
theorem unpadCommand : Obligations.UnpadCommand := by
  intro s hs n p strict outOfRange inconsistent
  refine ⟨fun hlong => exec_of_error (commandResult_unpad_tooLong hlong), fun hn => ⟨fun h0 => ?_, fun h0 hr => ?_,
    fun h0 hr hp => ?_, fun h0 hr hp hb => ?_, fun h0 hr hp hb => ?_⟩⟩
  · have hnil : s.rawBytes = [] := List.length_eq_zero_iff.mp (by rw [State.length_rawBytes]; exact h0)
    exact exec_of_error (commandResult_unpad_of_error hn (by rw [hnil]; rfl))
  all_goals obtain ⟨hrange, hunderflow, hbytes, hok⟩ := unpad_rawBytes_cases h0
  · exact exec_of_error (commandResult_unpad_of_error hn (hrange hr))
  · exact exec_of_error (commandResult_unpad_of_error hn (hunderflow hr hp))
  · exact exec_of_error (commandResult_unpad_of_error hn (hbytes hr hp hb))
  · have hlen : (s.rawBytes.take (n - p)).length = n - p := by
      rw [List.length_take, State.length_rawBytes]; omega
    refine ⟨_, exec_of_computed (commandResult_unpad_of_ok hn (hok hr hp hb)), rfl, ?_, fun i hi => ?_, fun i hi => ?_⟩
    · exact (toNat_ofNat_length (by rw [hlen]; omega)).trans hlen
    · exact (read_store_inside hs.msg_wf (by rwa [hlen])).trans (getD_take_rawBytes hi (by omega))
    · exact read_store_above hs.msg_wf (by rwa [hlen])

end Sys2Proof.Padding

/-! ## The ECB sequencer (R189 to R192) -/

namespace Sys2Proof.Ecb

open Sys2Proof Sys2Proof.Machine Sys2Proof.Claims Sys2Proof.BlockTransform Sys2Proof.MessageBuffers

/-! ### Blocks of a buffer -/

/-- Block `k` of the first `n` bytes of a buffer (R141, R189). -/
theorem ofList_take_eq_blockAt (m : Memory) {n k : Nat} (hk : k < n / 16) :
    Block.ofList (((m.take n).drop (16 * k)).take 16) = blockAt m k := by
  refine Block.ext_at fun r c => ?_
  have hj : 4 * c.val + r.val < 16 := by omega
  rw [Block.ofList, blockAt, Block.at_ofRowCol, Block.at_ofRowCol, List.getD_eq_getElem?_getD,
    List.getElem?_take_of_lt hj, List.getElem?_drop, ← List.getD_eq_getElem?_getD, Memory.getD_take _ (by omega)]

/-- The sequencer's output, stored in place, holds in each block the transform of that block (R189). -/
theorem blockAt_store_ecbMap {m : Memory} (hm : m.wf = true) (f : Block → Block) {n k : Nat} (hn : n % 16 = 0)
    (hk : k < n / 16) : blockAt (m.store 0 (ecbMap f (m.take n))) k = f (blockAt m k) := by
  have hlen : (m.take n).length = n := m.length_take n
  have hout : (ecbMap f (m.take n)).length = n := (length_ecbMap f (by rwa [hlen])).trans hlen
  refine Block.ext_at fun r c => ?_
  have hj : 4 * c.val + r.val < 16 := by omega
  rw [blockAt, Block.at_ofRowCol, read_store_inside hm (by omega),
    getD_ecbMap f hj (by rwa [hlen]) (by rwa [hlen]), Block.getD_toList, ofList_take_eq_blockAt m hk]

/-! ### ECBENC and ECBDEC (R190, R191) -/

/-- The two commands, each with the transform of its blocks. -/
def ecbPairs : List (Instr × (List Quad → Nat → Block → Block)) := [(.ecbenc, encryptBlock), (.ecbdec, decryptBlock)]

/-- The state with the blocks of RAW transformed and S zeroised. -/
def transformed (f : List Quad → Nat → Block → Block) (s : State) : State :=
  { s with raw := s.raw.store 0 (ecbMap (f s.w.toList s.nr.toNat) s.rawBytes), cipherState := Block.zero }

theorem commandResult_ecb {p : Instr × (List Quad → Nat → Block → Block)} (hp : p ∈ ecbPairs) (s : State) :
    commandResult p.1 s =
      if s.kvalid = false then .error .noRoundKeys
      else if 16 * s.nblkMax < s.rawLen.toNat then .error .sourceLength
      else if s.rawLen.toNat % 16 ≠ 0 then .error .rawPartialBlock
      else .ok (transformed p.2 s) := by
  simp only [ecbPairs, List.mem_cons, List.not_mem_nil, or_false] at hp
  rcases hp with rfl | rfl <;> rfl

theorem blockAt_transformed (f : List Quad → Nat → Block → Block) {s : State} (hs : s.Inv)
    (hn : s.rawLen.toNat % 16 = 0) {k : Nat} (hk : k < s.rawLen.toNat / 16) :
    blockAt (transformed f s).raw k = f s.w.toList s.nr.toNat (blockAt s.raw k) :=
  blockAt_store_ecbMap hs.raw_wf _ hn hk

theorem read_transformed_above (f : List Quad → Nat → Block → Block) {s : State} (hs : s.Inv)
    (hn : s.rawLen.toNat % 16 = 0) {j : Nat} (hj : s.rawLen.toNat ≤ j) :
    (transformed f s).raw.read j = s.raw.read j := by
  refine read_store_above hs.raw_wf ?_
  rwa [length_ecbMap _ (by rwa [State.length_rawBytes]), State.length_rawBytes]

/-- Settles O42: the checks in order, and then each block of RAW is transformed in its place. -/
theorem ecbCommands : Obligations.EcbCommands := by
  intro s hs p hp n
  have hresult := commandResult_ecb hp s
  have hvalid (hk : s.kvalid = true) : ¬ s.kvalid = false := by simp [hk]
  refine ⟨fun hk => ?_, fun hk hlong => ?_, fun hk hn hpart => ?_, fun hk hn hwhole => ?_⟩
  · exact exec_of_error (hresult.trans (if_pos hk))
  · exact exec_of_error (hresult.trans ((if_neg (hvalid hk)).trans (if_pos hlong)))
  · exact exec_of_error (hresult.trans ((if_neg (hvalid hk)).trans ((if_neg (Nat.not_lt.mpr hn)).trans (if_pos hpart))))
  · have hok : commandResult p.1 s = .ok (transformed p.2 s) :=
      hresult.trans ((if_neg (hvalid hk)).trans ((if_neg (Nat.not_lt.mpr hn)).trans (if_neg (Decidable.not_not.mpr hwhole))))
    exact ⟨_, exec_of_computed hok, rfl, fun k => blockAt_transformed p.2 hs hwhole,
      fun j => read_transformed_above p.2 hs hwhole⟩

/-! ### Independence of the blocks (R192) -/

/-- An ECB command that succeeds has transformed whole blocks. -/
theorem ecb_success {p : Instr × (List Quad → Nat → Block → Block)} (hp : p ∈ ecbPairs) {s t : State}
    (h : exec p.1 s = .next t) (h0 : t.errCode = 0) :
    s.rawLen.toNat % 16 = 0 ∧ t = (transformed p.2 s).withStatus 0 0 := by
  rw [exec_eq_complete] at h
  obtain ⟨u, hu, rfl⟩ := State.complete_success h h0
  rw [commandResult_ecb hp] at hu
  split at hu
  · cases hu
  · split at hu
    · cases hu
    · split at hu
      · cases hu
      · next hwhole => exact ⟨Decidable.not_not.mp hwhole, by rw [Except.ok.inj hu]⟩

/-- An output block is the transform of its input block under W and NR, and of nothing else (R192). -/
theorem blockAt_of_ecb_success {p : Instr × (List Quad → Nat → Block → Block)} (hp : p ∈ ecbPairs) {s t : State}
    (hs : s.Inv) (h : exec p.1 s = .next t) (h0 : t.errCode = 0) {k : Nat} (hk : k < s.rawLen.toNat / 16) :
    blockAt t.raw k = p.2 s.w.toList s.nr.toNat (blockAt s.raw k) := by
  obtain ⟨hwhole, rfl⟩ := ecb_success hp h h0
  exact blockAt_transformed p.2 hs hwhole hk

theorem exists_mem_ecbPairs {i : Instr} (hi : i ∈ [Instr.ecbenc, Instr.ecbdec]) : ∃ f, (i, f) ∈ ecbPairs := by
  simp only [List.mem_cons, List.not_mem_nil, or_false] at hi
  rcases hi with rfl | rfl
  · exact ⟨encryptBlock, by simp [ecbPairs]⟩
  · exact ⟨decryptBlock, by simp [ecbPairs]⟩

/-- Settles O43: both output blocks are one function of equal input blocks and equal round keys. -/
theorem ecbBlocksAreIndependent : Obligations.EcbBlocksAreIndependent := by
  intro i hi s u t v hs hu hw hnr ht ht0 hv hv0 k l hk hl hblock
  obtain ⟨f, hp⟩ := exists_mem_ecbPairs hi
  rw [blockAt_of_ecb_success hp hs ht ht0 hk, blockAt_of_ecb_success hp hu hv hv0 hl, hblock, hw, hnr]

end Sys2Proof.Ecb

/-! ## Base64 texts (R193 to R198)

A text is read group by group: `b64enc` and `b64dec` take three bytes and four characters off the front, and only the last
group can hold padding. Bytes and digits of a group are two ways to cut the same 24 bits. -/

namespace Sys2Proof.Base64

open Sys2Proof Sys2Proof.Machine Sys2Proof.Claims Sys2Proof.BlockTransform Sys2Proof.MessageBuffers

/-! ### The 24 bits of a group -/

theorem toNat_append_eq_add {m n : Nat} (x : BitVec m) (y : BitVec n) : (x ++ y).toNat = x.toNat * 2 ^ n + y.toNat := by
  rw [BitVec.toNat_append, Nat.shiftLeft_eq, Nat.mul_comm, ← Nat.two_pow_add_eq_or_of_lt y.isLt]

theorem toNat_extract_eq_mod {m : Nat} (v : BitVec m) (i n : Nat) :
    (v.extractLsb' i n).toNat = v.toNat / 2 ^ i % 2 ^ n := by
  rw [BitVec.extractLsb'_toNat, Nat.shiftRight_eq_div_pow]

/-- Three bytes as one value, the first byte most significant (R195). -/
theorem toNat_three_bytes (x0 x1 x2 : Byte) :
    (x0 ++ x1 ++ x2).toNat = x0.toNat * 65536 + x1.toNat * 256 + x2.toNat := by
  rw [toNat_append_eq_add, toNat_append_eq_add]
  omega

/-- Four digits as one value, the first digit most significant (R197). -/
theorem toNat_four_digits (d0 d1 d2 d3 : BitVec 6) :
    (d0 ++ d1 ++ d2 ++ d3).toNat = d0.toNat * 262144 + d1.toNat * 4096 + d2.toNat * 64 + d3.toNat := by
  rw [toNat_append_eq_add, toNat_append_eq_add, toNat_append_eq_add]
  omega

theorem bytesOfGroup_append (x0 x1 x2 : Byte) : bytesOfGroup (x0 ++ x1 ++ x2) = [x0, x1, x2] := by
  have h := toNat_three_bytes x0 x1 x2
  rw [bytesOfGroup]
  congr 2
  · exact BitVec.eq_of_toNat_eq (by rw [toNat_extract_eq_mod, h]; omega)
  · exact BitVec.eq_of_toNat_eq (by rw [toNat_extract_eq_mod, h]; omega)
  · congr 1
    exact BitVec.eq_of_toNat_eq (by rw [toNat_extract_eq_mod, h]; omega)

/-- The bytes of a group, put together, are the group. -/
theorem append_extract_bytes (v : BitVec 24) :
    v.extractLsb' 16 8 ++ v.extractLsb' 8 8 ++ v.extractLsb' 0 8 = v := by
  refine BitVec.eq_of_toNat_eq ((toNat_three_bytes _ _ _).trans ?_)
  rw [toNat_extract_eq_mod, toNat_extract_eq_mod, toNat_extract_eq_mod]
  omega

/-- The digits of a group, put together, are the group. -/
theorem append_extract_digits (v : BitVec 24) :
    v.extractLsb' 18 6 ++ v.extractLsb' 12 6 ++ v.extractLsb' 6 6 ++ v.extractLsb' 0 6 = v := by
  refine BitVec.eq_of_toNat_eq ((toNat_four_digits _ _ _ _).trans ?_)
  rw [toNat_extract_eq_mod, toNat_extract_eq_mod, toNat_extract_eq_mod, toNat_extract_eq_mod]
  omega

theorem b64Group_append (d0 d1 d2 d3 : BitVec 6) :
    b64Group (d0 ++ d1 ++ d2 ++ d3) = [b64Char d0, b64Char d1, b64Char d2, b64Char d3] := by
  have h := toNat_four_digits d0 d1 d2 d3
  have digit (i : Nat) (d : BitVec 6) (hd : (d0 ++ d1 ++ d2 ++ d3).toNat / 2 ^ i % 2 ^ 6 = d.toNat) :
      (d0 ++ d1 ++ d2 ++ d3).extractLsb' i 6 = d :=
    BitVec.eq_of_toNat_eq ((toNat_extract_eq_mod _ _ _).trans hd)
  rw [b64Group, digit 18 d0 (by omega), digit 12 d1 (by omega), digit 6 d2 (by omega), digit 0 d3 (by omega)]

/-- Decoding the characters of a group gives the group. -/
theorem digits_of_b64Group {v : BitVec 24} {f0 f1 f2 f3 : Byte} (h : b64Group v = [f0, f1, f2, f3]) :
    b64Digit f0 ++ b64Digit f1 ++ b64Digit f2 ++ b64Digit f3 = v := by
  simp only [b64Group, List.cons.injEq, and_true] at h
  obtain ⟨rfl, rfl, rfl, rfl⟩ := h
  simp only [b64Digit_b64Char]
  exact append_extract_digits v

theorem b64Group_digits {f0 f1 f2 f3 : Byte} (h0 : inAlphabet f0 = true) (h1 : inAlphabet f1 = true)
    (h2 : inAlphabet f2 = true) (h3 : inAlphabet f3 = true) :
    b64Group (b64Digit f0 ++ b64Digit f1 ++ b64Digit f2 ++ b64Digit f3) = [f0, f1, f2, f3] := by
  rw [b64Group_append, b64Char_b64Digit h0, b64Char_b64Digit h1, b64Char_b64Digit h2, b64Char_b64Digit h3]

/-! ### The alphabet (R193) -/

theorem b64Char_eq_charOf : ∀ v : BitVec 6, b64Char v = charOf v.toNat := by decide +kernel

theorem mem_alphabet_iff : ∀ c : Byte, c ∈ alphabet ↔ inAlphabet c = true := by decide +kernel

theorem b64Pad_not_mem_alphabet : b64Pad ∉ alphabet := by simp [mem_alphabet_iff]

/-- A character's place in the alphabet is its value, where it has one; elsewhere both count as 0 modulo 64. -/
theorem idxOf_alphabet_mod : ∀ c : Byte, alphabet.idxOf c % 64 = (b64Digit c).toNat := by decide +kernel

/-- The characters of a group of bytes by their values (R195). -/
theorem b64Group_bytes_eq_charOf (x0 x1 x2 : Byte) :
    let v := x0.toNat * 65536 + x1.toNat * 256 + x2.toNat
    b64Group (x0 ++ x1 ++ x2) = [charOf (v / 262144), charOf (v / 4096 % 64), charOf (v / 64 % 64), charOf (v % 64)] := by
  intro v
  have h : (x0 ++ x1 ++ x2).toNat = v := toNat_three_bytes x0 x1 x2
  have hv : v < 16777216 := h ▸ (x0 ++ x1 ++ x2).isLt
  have digit (i w : Nat) (hw : v / 2 ^ i % 2 ^ 6 = w) : b64Char ((x0 ++ x1 ++ x2).extractLsb' i 6) = charOf w := by
    rw [b64Char_eq_charOf, toNat_extract_eq_mod, h, hw]
  rw [b64Group, digit 18 (v / 262144) (by omega), digit 12 (v / 4096 % 64) (by omega), digit 6 (v / 64 % 64) (by omega),
    digit 0 (v % 64) (by omega)]

/-! ### The text group by group (R195) -/

/-- The text from its group `g` on is the text of the bytes from the group `g` on. -/
theorem drop_b64enc (x : List Byte) {g : Nat} (hg : g ≤ x.length / 3) :
    (b64enc x).drop (4 * g) = b64enc (x.drop (3 * g)) := by
  induction g generalizing x with
  | zero => rfl
  | succ g ih =>
    match x, hg with
    | x0 :: x1 :: x2 :: rest, hg =>
      have hrest : g ≤ rest.length / 3 := by simp only [List.length_cons] at hg; omega
      exact ih rest hrest
    | [], hg | [_], hg | [_, _], hg => simp at hg

/-- The four characters of group `g` of a text are the first four of the text that is left from there on. -/
theorem getD_b64enc_of_group {x rest : List Byte} {g : Nat} {c0 c1 c2 c3 : Byte} (hg : g ≤ x.length / 3)
    (h : b64enc (x.drop (3 * g)) = c0 :: c1 :: c2 :: c3 :: rest) :
    (b64enc x).getD (4 * g) 0 = c0 ∧ (b64enc x).getD (4 * g + 1) 0 = c1
      ∧ (b64enc x).getD (4 * g + 2) 0 = c2 ∧ (b64enc x).getD (4 * g + 3) 0 = c3 := by
  have hchar (j : Nat) : (b64enc x).getD (4 * g + j) 0 = (c0 :: c1 :: c2 :: c3 :: rest).getD j 0 := by
    rw [← h, ← drop_b64enc x hg, List.getD_eq_getElem?_getD, List.getD_eq_getElem?_getD, List.getElem?_drop]
  exact ⟨hchar 0, hchar 1, hchar 2, hchar 3⟩

/-- The text of one last byte: two characters and `==` (R195). -/
theorem b64enc_one_byte (x0 : Byte) :
    let v := x0.toNat * 65536
    b64enc [x0] = [charOf (v / 262144), charOf (v / 4096 % 64), 0x3d, 0x3d] := by
  have h := b64Group_bytes_eq_charOf x0 0 0
  simp only [BitVec.ofNat_eq_ofNat, BitVec.toNat_zero, Nat.zero_mul, Nat.add_zero] at h
  rw [b64enc, BitVec.ofNat_eq_ofNat, h]
  rfl

/-- The text of two last bytes: three characters and `=` (R195). -/
theorem b64enc_two_bytes (x0 x1 : Byte) :
    let v := x0.toNat * 65536 + x1.toNat * 256
    b64enc [x0, x1] = [charOf (v / 262144), charOf (v / 4096 % 64), charOf (v / 64 % 64), 0x3d] := by
  have h := b64Group_bytes_eq_charOf x0 x1 0
  simp only [BitVec.ofNat_eq_ofNat, BitVec.toNat_zero, Nat.add_zero] at h
  rw [b64enc, BitVec.ofNat_eq_ofNat, h]
  rfl

theorem drop_eq_getD_cons {x : List Byte} {k : Nat} (hk : k < x.length) : x.drop k = x.getD k 0 :: x.drop (k + 1) := by
  rw [List.drop_eq_getElem_cons hk, getD_eq_getElem_of_lt hk]

/-- Settles O45: each clause reads the group that comes first in the text of the bytes from there on. -/
theorem base64TextOfBytes : Obligations.Base64TextOfBytes := by
  intro x n byte text
  refine ⟨length_b64enc x, fun g hg => ?_, fun hn => ?_, fun hn => ?_⟩
  · have hdrop : x.drop (3 * g) = x.getD (3 * g) 0 :: x.getD (3 * g + 1) 0 :: x.getD (3 * g + 2) 0 :: x.drop (3 * g + 3) := by
      rw [drop_eq_getD_cons (by omega), drop_eq_getD_cons (by omega), drop_eq_getD_cons (by omega)]
    exact getD_b64enc_of_group (Nat.le_of_lt hg) (by rw [hdrop, b64enc, b64Group_bytes_eq_charOf]; rfl)
  · have hdrop : x.drop (3 * (n / 3)) = [x.getD (n - 1) 0] := by
      rw [drop_eq_getD_cons (by omega), List.drop_eq_nil_of_le (by omega), show 3 * (n / 3) = n - 1 by omega]
    exact getD_b64enc_of_group (Nat.le_refl _) (by rw [hdrop, b64enc_one_byte])
  · have hdrop : x.drop (3 * (n / 3)) = [x.getD (n - 2) 0, x.getD (n - 1) 0] := by
      rw [drop_eq_getD_cons (by omega), drop_eq_getD_cons (by omega), List.drop_eq_nil_of_le (by omega),
        show 3 * (n / 3) = n - 2 by omega, show n - 2 + 1 = n - 1 by omega]
    exact getD_b64enc_of_group (Nat.le_refl _) (by rw [hdrop, b64enc_two_bytes])

/-! ### The shape of a text (R197) -/

/-- A text with no more padding than its tail holds: its first character is in the alphabet, and the tail has the shape. -/
theorem textShape_cons {c : Byte} {f : List Byte} {npad : Nat} (h : npad ≤ f.length) :
    textShape (c :: f) npad ↔ inAlphabet c = true ∧ textShape f npad := by
  rw [← mem_alphabet_iff]
  constructor
  · rintro ⟨h2, -, halpha, hpad⟩
    rw [List.length_cons] at halpha hpad
    refine ⟨halpha 0 (by omega), h2, h, fun i hi => halpha (i + 1) (by omega), fun i hi hi' => ?_⟩
    exact hpad (i + 1) (by omega) (by omega)
  · rintro ⟨hc, h2, -, halpha, hpad⟩
    refine ⟨h2, Nat.le_succ_of_le h, fun i hi => ?_, fun i hi hi' => ?_⟩
    all_goals rw [List.length_cons] at hi
    · cases i with
      | zero => exact hc
      | succ i => exact halpha i (by omega)
    · rw [List.length_cons] at hi'
      cases i with
      | zero => omega
      | succ i => exact hpad i (by omega) (by omega)

/-- The two shapes without a character before the padding. -/
theorem textShape_one_pad {z : Byte} : textShape [z] 1 ↔ z = b64Pad := by
  simp [textShape, b64Pad]

theorem textShape_two_pads {y z : Byte} : textShape [y, z] 2 ↔ y = b64Pad ∧ z = b64Pad := by
  constructor
  · rintro ⟨-, -, -, hpad⟩
    exact ⟨hpad 0 (by simp) (by simp), hpad 1 (by simp) (by simp)⟩
  · rintro ⟨rfl, rfl⟩
    refine ⟨Nat.le_refl _, Nat.le_refl _, fun i hi => absurd hi (Nat.not_lt_zero i), fun i _ hi => ?_⟩
    match i, hi with
    | 0, _ | 1, _ => rfl

theorem textShape_nil {npad : Nat} : textShape [] npad ↔ npad = 0 := by
  constructor
  · rintro ⟨-, hlen, -⟩
    exact Nat.le_zero.mp hlen
  · rintro rfl
    exact ⟨by decide, Nat.le_refl _, fun i hi => absurd hi (Nat.not_lt_zero i), fun i _ hi => absurd hi (Nat.not_lt_zero i)⟩

/-- The three shapes of the last two characters. -/
theorem textShape_pair {y z : Byte} {npad : Nat} : textShape [y, z] npad ↔
    npad = 0 ∧ inAlphabet y = true ∧ inAlphabet z = true ∨ npad = 1 ∧ inAlphabet y = true ∧ z = b64Pad
      ∨ npad = 2 ∧ y = b64Pad ∧ z = b64Pad := by
  match npad with
  | 0 => simp [textShape_cons, textShape_nil]
  | 1 => simp [textShape_cons, textShape_one_pad]
  | 2 => simp [textShape_two_pads]
  | n + 3 => exact iff_of_false (fun h => by have := h.1; omega) (by omega)

/-! `framePadding` reads the shape: it looks at the last two characters, and asks the alphabet of all before them. -/

theorem framePadding_pair (y z : Byte) : framePadding [y, z] =
    if inAlphabet y && inAlphabet z then some 0
    else if inAlphabet y && z == b64Pad then some 1
    else if y == b64Pad && z == b64Pad then some 2
    else none := rfl

theorem framePadding_cons {c : Byte} {f : List Byte} (h : 2 ≤ f.length) :
    framePadding (c :: f) = if inAlphabet c then framePadding f else none := by
  have hlen : (c :: f).length - 2 = f.length - 2 + 1 := by rw [List.length_cons]; omega
  unfold framePadding
  rw [hlen, List.take_succ_cons, List.drop_succ_cons, List.all_cons]
  cases inAlphabet c <;> rfl

theorem framePadding_pair_eq_some_iff {y z : Byte} {npad : Nat} :
    framePadding [y, z] = some npad ↔ textShape [y, z] npad := by
  have hpad {c : Byte} (hc : c = b64Pad) : inAlphabet c = false := hc ▸ inAlphabet_b64Pad
  rw [framePadding_pair, textShape_pair]
  by_cases hy : inAlphabet y = true
  · have hne : y ≠ b64Pad := fun he => by simp [hpad he] at hy
    by_cases hz : inAlphabet z = true
    · have hne' : z ≠ b64Pad := fun he => by simp [hpad he] at hz
      simp [hy, hz, hne, hne', @eq_comm _ npad]
    · simp [hy, hz, hne, and_comm, @eq_comm _ npad]
  · simp [hy, and_comm, @eq_comm _ npad]

theorem framePadding_eq_some_iff {f : List Byte} (h : 2 ≤ f.length) {npad : Nat} :
    framePadding f = some npad ↔ textShape f npad := by
  match f, h with
  | [y, z], _ => exact framePadding_pair_eq_some_iff
  | c :: d :: e :: f, _ =>
    have hlen : 2 ≤ (d :: e :: f).length := by simp only [List.length_cons]; omega
    have ih := framePadding_eq_some_iff hlen (npad := npad)
    rw [framePadding_cons hlen]
    constructor
    · intro hsome
      by_cases hc : inAlphabet c = true
      · rw [if_pos hc, ih] at hsome
        exact (textShape_cons (Nat.le_trans hsome.1 hlen)).mpr ⟨hc, hsome⟩
      · rw [if_neg hc] at hsome
        cases hsome
    · intro hshape
      obtain ⟨hc, hshape⟩ := (textShape_cons (Nat.le_trans hshape.1 hlen)).mp hshape
      rw [if_pos hc, ih]
      exact hshape

/-! ### The bits the padding discards (R197) -/

theorem discardedBitsZero_iff (f : List Byte) (npad : Nat) : discardedBitsZero f npad = true ↔ discardedZero f npad := by
  have low (c : Byte) (k : Nat) (hk : k ≤ 6) :
      ((b64Digit c).extractLsb' 0 k == 0) = true ↔ alphabet.idxOf c % 2 ^ k = 0 := by
    rw [beq_iff_eq, ← BitVec.toNat_inj, toNat_extract_eq_mod, ← idxOf_alphabet_mod, Nat.pow_zero, Nat.div_one,
      Nat.mod_mod_of_dvd _ (show 2 ^ k ∣ 64 from Nat.pow_dvd_pow 2 hk)]
    rfl
  match npad with
  | 0 => simp [discardedBitsZero, discardedZero]
  | 1 => simp only [discardedBitsZero, discardedZero, low _ 2 (by decide)]; simp
  | 2 => simp only [discardedBitsZero, discardedZero, low _ 4 (by decide)]; simp
  | n + 3 => simp [discardedBitsZero, discardedZero]

/-! ### Decoding (R197) -/

/-- `b64dec` on a text whose length and shape are right. -/
theorem b64dec_of_textShape {f : List Byte} {npad : Nat} (h4 : f.length % 4 = 0) (h : textShape f npad) :
    b64dec f = if discardedBitsZero f npad then .ok ((decodeGroups f).take (3 * (f.length / 4) - npad))
      else .error .frameDiscardedBits := by
  by_cases h0 : f.length = 0
  · obtain rfl := List.length_eq_zero_iff.mp h0
    obtain rfl := textShape_nil.mp h
    rfl
  · unfold b64dec
    rw [if_neg (Decidable.not_not.mpr h4), if_neg h0, (framePadding_eq_some_iff (by omega)).mpr h]

theorem b64dec_of_no_textShape {f : List Byte} (h4 : f.length % 4 = 0) (h : ∀ npad, ¬ textShape f npad) :
    b64dec f = .error .frameCharacter := by
  by_cases h0 : f.length = 0
  · obtain rfl := List.length_eq_zero_iff.mp h0
    exact absurd (textShape_nil.mpr rfl) (h 0)
  · have hnone : framePadding f = none :=
      Option.eq_none_iff_forall_ne_some.mpr fun npad hsome => h npad ((framePadding_eq_some_iff (by omega)).mp hsome)
    unfold b64dec
    rw [if_neg (Decidable.not_not.mpr h4), if_neg h0, hnone]

/-- The text has length and shape of a text with `npad` padding characters, discards only zeros, and decodes to `x`. -/
def decodesWith (f : List Byte) (npad : Nat) (x : List Byte) : Prop :=
  f.length % 4 = 0 ∧ textShape f npad ∧ discardedZero f npad
    ∧ x = (decodeGroups f).take (3 * (f.length / 4) - npad)

theorem b64dec_eq_ok_iff {f x : List Byte} : b64dec f = .ok x ↔ ∃ npad, decodesWith f npad x := by
  constructor
  · intro h
    have h4 : f.length % 4 = 0 := Decidable.byContradiction fun h4 => by
      rw [b64dec, if_pos h4] at h
      cases h
    by_cases hshape : ∃ npad, textShape f npad
    · obtain ⟨npad, hshape⟩ := hshape
      rw [b64dec_of_textShape h4 hshape] at h
      by_cases hzero : discardedBitsZero f npad = true
      · rw [if_pos hzero] at h
        exact ⟨npad, h4, hshape, (discardedBitsZero_iff f npad).mp hzero, (Except.ok.inj h).symm⟩
      · rw [if_neg hzero] at h
        cases h
    · rw [b64dec_of_no_textShape h4 (not_exists.mp hshape)] at h
      cases h
  · rintro ⟨npad, h4, hshape, hzero, rfl⟩
    rw [b64dec_of_textShape h4 hshape, if_pos ((discardedBitsZero_iff f npad).mpr hzero)]

/-! A text that holds its padding after the first group: the first group decodes by itself. -/

theorem textShape_group {f0 f1 f2 f3 : Byte} {f : List Byte} {npad : Nat} (h : npad ≤ f.length) :
    textShape (f0 :: f1 :: f2 :: f3 :: f) npad ↔ (inAlphabet f0 = true ∧ inAlphabet f1 = true
      ∧ inAlphabet f2 = true ∧ inAlphabet f3 = true) ∧ textShape f npad := by
  rw [textShape_cons (by simp only [List.length_cons]; omega), textShape_cons (by simp only [List.length_cons]; omega),
    textShape_cons (by simp only [List.length_cons]; omega), textShape_cons h]
  simp only [and_assoc]

theorem discardedZero_group {f0 f1 f2 f3 : Byte} {f : List Byte} {npad : Nat} (h4 : f.length % 4 = 0)
    (h : npad ≤ f.length) : discardedZero (f0 :: f1 :: f2 :: f3 :: f) npad ↔ discardedZero f npad := by
  have hget {k : Nat} (hk : k ≤ f.length) :
      (f0 :: f1 :: f2 :: f3 :: f).getD ((f0 :: f1 :: f2 :: f3 :: f).length - k) 0 = f.getD (f.length - k) 0 := by
    rw [show (f0 :: f1 :: f2 :: f3 :: f).length - k = f.length - k + 4 by simp only [List.length_cons]; omega]
    rfl
  refine and_congr (imp_congr_right fun hn => ?_) (imp_congr_right fun hn => ?_) <;> rw [hget (by omega)]

theorem decodesWith_group {f0 f1 f2 f3 : Byte} {f x : List Byte} {npad : Nat} (h : npad ≤ f.length) :
    decodesWith (f0 :: f1 :: f2 :: f3 :: f) npad x ↔ (inAlphabet f0 = true ∧ inAlphabet f1 = true
      ∧ inAlphabet f2 = true ∧ inAlphabet f3 = true) ∧ ∃ y, decodesWith f npad y
      ∧ x = bytesOfGroup (b64Digit f0 ++ b64Digit f1 ++ b64Digit f2 ++ b64Digit f3) ++ y := by
  have hlen : (f0 :: f1 :: f2 :: f3 :: f).length = f.length + 4 := rfl
  have htake (h4 : f.length % 4 = 0) (h2 : npad ≤ 2) :
      (decodeGroups (f0 :: f1 :: f2 :: f3 :: f)).take (3 * ((f0 :: f1 :: f2 :: f3 :: f).length / 4) - npad)
        = bytesOfGroup (b64Digit f0 ++ b64Digit f1 ++ b64Digit f2 ++ b64Digit f3)
          ++ (decodeGroups f).take (3 * (f.length / 4) - npad) := by
    rw [show 3 * ((f0 :: f1 :: f2 :: f3 :: f).length / 4) - npad = 3 * (f.length / 4) - npad + 3 by omega]
    rfl
  constructor
  · rintro ⟨h4, hshape, hzero, rfl⟩
    have h4 : f.length % 4 = 0 := by omega
    obtain ⟨halpha, hshape⟩ := (textShape_group h).mp hshape
    exact ⟨halpha, _, ⟨h4, hshape, (discardedZero_group h4 h).mp hzero, rfl⟩, htake h4 hshape.1⟩
  · rintro ⟨halpha, y, ⟨h4, hshape, hzero, rfl⟩, rfl⟩
    exact ⟨by omega, (textShape_group h).mpr ⟨halpha, hshape⟩, (discardedZero_group h4 h).mpr hzero,
      (htake h4 hshape.1).symm⟩

theorem decodesWith_one_pad {f0 f1 f2 f3 : Byte} {x : List Byte} : decodesWith [f0, f1, f2, f3] 1 x ↔
    (inAlphabet f0 = true ∧ inAlphabet f1 = true ∧ inAlphabet f2 = true ∧ f3 = b64Pad) ∧ (b64Digit f2).toNat % 4 = 0
      ∧ x = (bytesOfGroup (b64Digit f0 ++ b64Digit f1 ++ b64Digit f2 ++ b64Digit f3)).take 2 := by
  have hzero : discardedZero [f0, f1, f2, f3] 1 ↔ (b64Digit f2).toNat % 4 = 0 := by
    rw [← idxOf_alphabet_mod, Nat.mod_mod_of_dvd _ (by decide)]
    simp [discardedZero]
  have hshape : textShape [f0, f1, f2, f3] 1 ↔
      inAlphabet f0 = true ∧ inAlphabet f1 = true ∧ inAlphabet f2 = true ∧ f3 = b64Pad := by
    rw [textShape_cons (by simp), textShape_cons (by simp), textShape_cons (by simp), textShape_one_pad]
  simp [decodesWith, hzero, hshape, decodeGroups]

theorem decodesWith_two_pads {f0 f1 f2 f3 : Byte} {x : List Byte} : decodesWith [f0, f1, f2, f3] 2 x ↔
    (inAlphabet f0 = true ∧ inAlphabet f1 = true ∧ f2 = b64Pad ∧ f3 = b64Pad) ∧ (b64Digit f1).toNat % 16 = 0
      ∧ x = (bytesOfGroup (b64Digit f0 ++ b64Digit f1 ++ b64Digit f2 ++ b64Digit f3)).take 1 := by
  have hzero : discardedZero [f0, f1, f2, f3] 2 ↔ (b64Digit f1).toNat % 16 = 0 := by
    rw [← idxOf_alphabet_mod, Nat.mod_mod_of_dvd _ (by decide)]
    simp [discardedZero]
  have hshape : textShape [f0, f1, f2, f3] 2 ↔
      inAlphabet f0 = true ∧ inAlphabet f1 = true ∧ f2 = b64Pad ∧ f3 = b64Pad := by
    rw [textShape_cons (by simp), textShape_cons (by simp), textShape_two_pads]
  simp [decodesWith, hzero, hshape, decodeGroups]

/-! ### Texts and their bytes (R195, R197) -/

/-- Two bytes leave the last digit and the low bits of the one before it zero. -/
theorem digits_of_two_bytes (x0 x1 : Byte) :
    (x0 ++ x1 ++ (0 : Byte)).extractLsb' 0 6 = 0 ∧ ((x0 ++ x1 ++ (0 : Byte)).extractLsb' 6 6).toNat % 4 = 0 := by
  have h : (x0 ++ x1 ++ (0 : Byte)).toNat = x0.toNat * 65536 + x1.toNat * 256 :=
    (toNat_three_bytes _ _ _).trans (by simp)
  refine ⟨BitVec.eq_of_toNat_eq ?_, ?_⟩
  · rw [toNat_extract_eq_mod, h, BitVec.ofNat_eq_ofNat, BitVec.toNat_zero]; omega
  · rw [toNat_extract_eq_mod, h]; omega

/-- One byte leaves the last two digits and the low bits of the one before them zero. -/
theorem digits_of_one_byte (x0 : Byte) :
    (x0 ++ (0 : Byte) ++ (0 : Byte)).extractLsb' 0 6 = 0 ∧ (x0 ++ (0 : Byte) ++ (0 : Byte)).extractLsb' 6 6 = 0
      ∧ ((x0 ++ (0 : Byte) ++ (0 : Byte)).extractLsb' 12 6).toNat % 16 = 0 := by
  have h : (x0 ++ (0 : Byte) ++ (0 : Byte)).toNat = x0.toNat * 65536 :=
    (toNat_three_bytes _ _ _).trans (by simp)
  refine ⟨BitVec.eq_of_toNat_eq ?_, BitVec.eq_of_toNat_eq ?_, ?_⟩
  · rw [toNat_extract_eq_mod, h, BitVec.ofNat_eq_ofNat, BitVec.toNat_zero]; omega
  · rw [toNat_extract_eq_mod, h, BitVec.ofNat_eq_ofNat, BitVec.toNat_zero]; omega
  · rw [toNat_extract_eq_mod, h]; omega

/-- Three digits with the discarded bits zero fill two bytes. -/
theorem bytes_of_three_digits (d0 d1 : BitVec 6) {d2 : BitVec 6} (h : d2.toNat % 4 = 0) :
    (d0 ++ d1 ++ d2 ++ (0 : BitVec 6)).extractLsb' 0 8 = 0 := by
  have hv : (d0 ++ d1 ++ d2 ++ (0 : BitVec 6)).toNat = d0.toNat * 262144 + d1.toNat * 4096 + d2.toNat * 64 :=
    (toNat_four_digits _ _ _ _).trans (by simp)
  refine BitVec.eq_of_toNat_eq ?_
  rw [toNat_extract_eq_mod, hv, BitVec.ofNat_eq_ofNat, BitVec.toNat_zero]; omega

/-- Two digits with the discarded bits zero fill one byte. -/
theorem bytes_of_two_digits (d0 : BitVec 6) {d1 : BitVec 6} (h : d1.toNat % 16 = 0) :
    (d0 ++ d1 ++ (0 : BitVec 6) ++ (0 : BitVec 6)).extractLsb' 0 8 = 0
      ∧ (d0 ++ d1 ++ (0 : BitVec 6) ++ (0 : BitVec 6)).extractLsb' 8 8 = 0 := by
  have hv : (d0 ++ d1 ++ (0 : BitVec 6) ++ (0 : BitVec 6)).toNat = d0.toNat * 262144 + d1.toNat * 4096 :=
    (toNat_four_digits _ _ _ _).trans (by simp)
  refine ⟨BitVec.eq_of_toNat_eq ?_, BitVec.eq_of_toNat_eq ?_⟩
  · rw [toNat_extract_eq_mod, hv, BitVec.ofNat_eq_ofNat, BitVec.toNat_zero]; omega
  · rw [toNat_extract_eq_mod, hv, BitVec.ofNat_eq_ofNat, BitVec.toNat_zero]; omega

/-- Decoding the text of a sequence gives the sequence back (R197). -/
theorem exists_decodesWith_b64enc (x : List Byte) : ∃ npad, decodesWith (b64enc x) npad x := by
  induction x using b64enc.induct with
  | case1 x0 x1 x2 rest ih =>
    obtain ⟨npad, h⟩ := ih
    obtain ⟨-, ⟨-, hlen, -⟩, -⟩ := id h
    refine ⟨npad, (decodesWith_group hlen).mpr ⟨by simp, rest, h, ?_⟩⟩
    rw [digits_of_b64Group rfl, bytesOfGroup_append]
    rfl
  | case2 x0 x1 =>
    obtain ⟨hlast, hlow⟩ := digits_of_two_bytes x0 x1
    have hv := append_extract_digits (x0 ++ x1 ++ (0 : Byte))
    rw [hlast] at hv
    refine ⟨1, decodesWith_one_pad.mpr ⟨by simp, by rwa [b64Digit_b64Char], ?_⟩⟩
    rw [b64Digit_b64Char, b64Digit_b64Char, b64Digit_b64Char, b64Digit_b64Pad, hv, bytesOfGroup_append]
    rfl
  | case3 x0 =>
    obtain ⟨hlast, hlast', hlow⟩ := digits_of_one_byte x0
    have hv := append_extract_digits (x0 ++ (0 : Byte) ++ (0 : Byte))
    rw [hlast, hlast'] at hv
    refine ⟨2, decodesWith_two_pads.mpr ⟨by simp, by rwa [b64Digit_b64Char], ?_⟩⟩
    rw [b64Digit_b64Char, b64Digit_b64Char, b64Digit_b64Pad, hv, bytesOfGroup_append]
    rfl
  | case4 => exact ⟨0, rfl, textShape_nil.mpr rfl, by simp [discardedZero], rfl⟩

/-- A text that decodes is the text of what it decodes to (R197). -/
theorem b64enc_of_decodesWith {f x : List Byte} {npad : Nat} (h : decodesWith f npad x) : b64enc x = f := by
  induction f using decodeGroups.induct generalizing x with
  | case1 f0 f1 f2 f3 rest ih =>
    obtain ⟨h4, ⟨h2, -⟩, -⟩ := id h
    by_cases hlen : npad ≤ rest.length
    · obtain ⟨⟨h0, h1, h2, h3⟩, y, hy, rfl⟩ := (decodesWith_group hlen).mp h
      rw [bytesOfGroup, List.cons_append, List.cons_append, List.cons_append, List.nil_append, b64enc,
        append_extract_bytes, b64Group_digits h0 h1 h2 h3, ih hy]
      rfl
    · obtain rfl : rest = [] := List.length_eq_zero_iff.mp (by simp only [List.length_cons] at h4; omega)
      match npad, h2, hlen with
      | 0, _, hlen => exact absurd (Nat.zero_le _) hlen
      | 1, _, _ =>
        obtain ⟨⟨h0, h1, h2, rfl⟩, hlow, rfl⟩ := decodesWith_one_pad.mp h
        have hv := append_extract_bytes (b64Digit f0 ++ b64Digit f1 ++ b64Digit f2 ++ (0 : BitVec 6))
        rw [bytes_of_three_digits _ _ hlow] at hv
        rw [b64Digit_b64Pad, bytesOfGroup, List.take_succ_cons, List.take_succ_cons, List.take_zero, b64enc, hv,
          b64Group_append, b64Char_b64Digit h0, b64Char_b64Digit h1, b64Char_b64Digit h2]
        rfl
      | 2, _, _ =>
        obtain ⟨⟨h0, h1, rfl, rfl⟩, hlow, rfl⟩ := decodesWith_two_pads.mp h
        have hv := append_extract_bytes (b64Digit f0 ++ b64Digit f1 ++ (0 : BitVec 6) ++ (0 : BitVec 6))
        obtain ⟨hlast, hlast'⟩ := bytes_of_two_digits (b64Digit f0) hlow
        rw [hlast, hlast'] at hv
        rw [b64Digit_b64Pad, bytesOfGroup, List.take_succ_cons, List.take_zero, b64enc, hv,
          b64Group_append, b64Char_b64Digit h0, b64Char_b64Digit h1]
        rfl
  | case2 f hshort =>
    obtain ⟨h4, ⟨-, hlen, -⟩, -, rfl⟩ := h
    have hnil : f = [] := by
      match f, hshort, h4 with
      | [], _, _ => rfl
      | [_], _, h4 | [_, _], _, h4 | [_, _, _], _, h4 => simp at h4
      | f0 :: f1 :: f2 :: f3 :: rest, hshort, _ => exact absurd rfl (hshort f0 f1 f2 f3 rest)
    simp [hnil, decodeGroups, b64enc]

theorem b64dec_eq_ok_iff_eq_b64enc {f x : List Byte} : b64dec f = .ok x ↔ f = b64enc x := by
  rw [b64dec_eq_ok_iff]
  constructor
  · rintro ⟨npad, h⟩
    exact (b64enc_of_decodesWith h).symm
  · rintro rfl
    exact exists_decodesWith_b64enc x

/-- Settles O46: success is `decodesWith`, and the causes are the checks of length, shape and discarded bits in order. -/
theorem base64DecodesCanonicalTexts : Obligations.Base64DecodesCanonicalTexts := by
  refine fun f => ⟨fun x => b64dec_eq_ok_iff_eq_b64enc, fun h4 => ?_, b64dec_of_no_textShape, fun npad h4 hshape hbits => ?_,
    fun npad h4 hshape hzero => ?_⟩
  · rw [b64dec, if_pos h4]
  · rw [b64dec_of_textShape h4 hshape, if_neg (mt (discardedBitsZero_iff f npad).mp hbits)]
  · refine ⟨_, b64dec_eq_ok_iff.mpr ⟨npad, h4, hshape, hzero, rfl⟩, ?_⟩
    rw [List.length_take, length_decodeGroups]
    omega

/-! ### B64ENC (R196) -/

theorem commandResult_b64enc (s : State) : commandResult .b64enc s =
    if 16 * s.nblkMax < s.rawLen.toNat then .error .sourceLength else .ok (s.setFrame (b64enc s.rawBytes)) := rfl

/-- Settles O47: the text of as many bytes as RAW can hold fits FRAME. -/
theorem b64encCommand : Obligations.B64encCommand := by
  intro s hs
  refine ⟨fun hlong => exec_of_error ((commandResult_b64enc s).trans (if_pos hlong)), fun hn => ?_⟩
  have hcap := nblkMax_le hs
  have hlen : (b64enc s.rawBytes).length = 4 * ((s.rawLen.toNat + 2) / 3) := by
    rw [length_b64enc, State.length_rawBytes]
  have hfits : (b64enc s.rawBytes).length < 2 ^ 32 := by omega
  have hreg : ((s.setFrame (b64enc s.rawBytes)).withStatus 0 0).frameLen.toNat = (b64enc s.rawBytes).length :=
    toNat_ofNat_length hfits
  refine ⟨_, exec_of_computed ((commandResult_b64enc s).trans (if_neg (Nat.not_lt.mpr hn))), rfl, hreg.trans hlen,
    by rw [hreg, hlen]; omega, Memory.take_store_ofNat hs.frame_wf _ hfits, fun i hi => ?_⟩
  rw [hreg] at hi
  exact read_store_above hs.frame_wf hi

/-! ### B64DEC (R198) -/

theorem commandResult_b64dec_tooLong {s : State} (h : 4 * ((16 * s.nblkMax + 2) / 3) < s.frameLen.toNat) :
    commandResult .b64dec s = .error .sourceLength :=
  if_pos h

theorem commandResult_b64dec_of_error {s : State} {e : CommandFailure}
    (h : s.frameLen.toNat ≤ 4 * ((16 * s.nblkMax + 2) / 3)) (he : b64dec s.frameText = .error e) :
    commandResult .b64dec s = .error e := by
  rw [commandResult, frameCap, rawCap, if_neg (by omega), he]

theorem commandResult_b64dec_of_ok {s : State} {x : List Byte}
    (h : s.frameLen.toNat ≤ 4 * ((16 * s.nblkMax + 2) / 3)) (hx : b64dec s.frameText = .ok x) :
    commandResult .b64dec s =
      if 16 * s.nblkMax < x.length then .error .resultTooLong else .ok (s.setRaw x) := by
  rw [commandResult, frameCap, rawCap, if_neg (by omega), hx]

/-- A frame within its buffer decodes to at most three bytes for each group of the buffer (R197). -/
theorem length_b64dec_frameText_le {s : State} {x : List Byte} (h : s.frameLen.toNat ≤ 4 * ((16 * s.nblkMax + 2) / 3))
    (hx : b64dec s.frameText = .ok x) : x.length ≤ 3 * ((16 * s.nblkMax + 2) / 3) := by
  have hle := length_b64dec_le hx
  rw [State.length_frameText] at hle
  omega

/-- Settles O48: the error or the bytes that `b64dec` gives, and the bound of the decoded length for CommandError 6. -/
theorem b64decCommand : Obligations.B64decCommand := by
  intro s hs cap
  have hcap := nblkMax_le hs
  refine ⟨fun hlong => exec_of_error (commandResult_b64dec_tooLong hlong), fun hn => ⟨fun he => ?_, fun he => ?_,
    fun he => ?_, fun x hx hlong => ?_, fun x hx hfits => ?_⟩⟩
  · exact exec_of_error (commandResult_b64dec_of_error hn he)
  · exact exec_of_error (commandResult_b64dec_of_error hn he)
  · exact exec_of_error (commandResult_b64dec_of_error hn he)
  · have hle := length_b64dec_frameText_le hn hx
    exact ⟨by omega, exec_of_error ((commandResult_b64dec_of_ok hn hx).trans (if_pos hlong))⟩
  · have hok := (commandResult_b64dec_of_ok hn hx).trans (if_neg (Nat.not_lt.mpr hfits))
    exact ⟨_, exec_of_computed hok, rfl, toNat_ofNat_length (by omega),
      Memory.take_store_ofNat hs.raw_wf _ (by omega), fun i hi => read_store_above hs.raw_wf hi⟩

end Sys2Proof.Base64

/-! ## Whole messages (R200, R201) -/

namespace Sys2Proof.WholeMessage

open Sys2Proof Sys2Proof.Machine Sys2Proof.Claims Sys2Proof.KeyExpansion Sys2Proof.BlockTransform
  Sys2Proof.MessageBuffers Sys2Proof.Base64

/-! ### The round keys of both commands (R125) -/

theorem legalKeyLength_iff_mem {n : Nat} : legalKeyLength n = true ↔ n ∈ [16, 24, 32] := by
  rw [legalKeyLength_iff]
  simp

/-- The round keys that KEYEXP commits are those of the schedule that ENCRYPT and DECRYPT use (R121, R125). -/
theorem roundKey_expanded {s : State} (h : s.keyLen.toNat ∈ [16, 24, 32]) (r : Nat) :
    roundKey (expanded s).w.toList r = roundKey s.schedule.words r := by
  refine roundKey_roundKeyMemory ?_ r
  simp only [List.mem_cons, List.not_mem_nil, or_false] at h
  rw [length_schedule]
  omega

theorem toNat_expanded_nr_eq_schedule (s : State) : (expanded s).nr.toNat = s.schedule.nr := toNat_expanded_nr s

theorem ecbEncrypt_expanded {s : State} (h : s.keyLen.toNat ∈ [16, 24, 32]) (x : List Byte) :
    ecbEncrypt (expanded s).w.toList (expanded s).nr.toNat x = ecbEncrypt s.schedule.words s.schedule.nr x := by
  rw [ecbEncrypt, encryptBlock_congr (roundKey_expanded h), toNat_expanded_nr_eq_schedule, ecbEncrypt]

theorem ecbDecrypt_expanded {s : State} (h : s.keyLen.toNat ∈ [16, 24, 32]) (x : List Byte) :
    ecbDecrypt (expanded s).w.toList (expanded s).nr.toNat x = ecbDecrypt s.schedule.words s.schedule.nr x := by
  rw [ecbDecrypt, decryptBlock_congr (roundKey_expanded h), toNat_expanded_nr_eq_schedule, ecbDecrypt]

/-! ### ENCRYPT (R200) -/

/-- The ECB encryption of the padded message under the current key. -/
def encryptedBytes (s : State) : List Byte := ecbEncrypt s.schedule.words s.schedule.nr (pad s.message)

/-- What ENCRYPT commits when it succeeds. -/
def encrypted (s : State) : State :=
  (((s.commitSchedule s.schedule).setRaw (encryptedBytes s)).setFrame (b64enc (encryptedBytes s))).zeroiseState

theorem commandResult_encrypt_of_illegal {s : State} (h : s.keyLen.toNat ∉ [16, 24, 32]) :
    commandResult .encrypt s = .error .keyLength :=
  if_pos (by rw [Bool.not_eq_true', ← Bool.not_eq_true, legalKeyLength_iff_mem]; exact h)

theorem commandResult_encrypt_of_legal {s : State} (h : s.keyLen.toNat ∈ [16, 24, 32]) : commandResult .encrypt s =
    if 16 * s.nblkMax < s.msgLen.toNat then .error .sourceLength
    else if 16 * s.nblkMax < 16 * (s.msgLen.toNat / 16 + 1) then .error .resultTooLong
    else .ok (encrypted s) :=
  if_neg (by rw [legalKeyLength_iff_mem.mpr h]; decide)

theorem length_encryptedBytes (s : State) : (encryptedBytes s).length = 16 * (s.msgLen.toNat / 16 + 1) := by
  have hpad : (pad s.message).length = 16 * (s.msgLen.toNat / 16 + 1) := Padding.length_pad_message s
  rw [encryptedBytes, ecbEncrypt, length_ecbMap _ (by omega), hpad]

/-- Settles O50: the checks in order, and then RAW and FRAME are read back from what ENCRYPT stores in them. -/
theorem encryptCommand : Obligations.EncryptCommand := by
  intro s hs len n
  have hcap := nblkMax_le hs
  refine ⟨fun hkey => exec_of_error (commandResult_encrypt_of_illegal hkey), fun hkey => ⟨fun hlong => ?_, fun hfull => ?_,
    fun hfits => ?_⟩⟩
  all_goals have hresult := commandResult_encrypt_of_legal hkey
  · exact exec_of_error (hresult.trans (if_pos hlong))
  · exact exec_of_error (hresult.trans ((if_neg (by omega)).trans (if_pos (by omega))))
  · have hok := hresult.trans ((if_neg (by omega)).trans (if_neg (by omega)))
    have hraw : (encryptedBytes s).length = n := length_encryptedBytes s
    have hframe : (b64enc (encryptedBytes s)).length = 4 * ((n + 2) / 3) := by rw [length_b64enc, hraw]
    have hrawBytes : ((encrypted s).withStatus 0 0).rawBytes = encryptedBytes s :=
      Memory.take_store_ofNat hs.raw_wf _ (by omega)
    have hframeText : ((encrypted s).withStatus 0 0).frameText = b64enc (encryptedBytes s) :=
      Memory.take_store_ofNat hs.frame_wf _ (by omega)
    have hframeLen : ((encrypted s).withStatus 0 0).frameLen.toNat = (b64enc (encryptedBytes s)).length :=
      toNat_ofNat_length (by omega)
    refine ⟨expanded s, _, exec_keyexp_of_legal hkey, exec_of_computed hok, rfl, ?_, ?_, ?_, hframeLen.trans hframe,
      fun i hi => ?_, fun i hi => ?_⟩
    · rw [hrawBytes, ecbEncrypt_expanded hkey, encryptedBytes]
    · exact (toNat_ofNat_length (by omega)).trans hraw
    · rw [hframeText, hrawBytes]
    · exact read_store_above hs.raw_wf (by omega)
    · exact read_store_above hs.frame_wf (by omega)

/-! ### DECRYPT (R201) -/

/-- The ECB decryption of a decoded frame under the current key. -/
def decryptedBlocks (s : State) (y : List Byte) : List Byte := ecbDecrypt s.schedule.words s.schedule.nr y

/-- What DECRYPT commits when it succeeds, from the decrypted blocks `x` and the unpadded message `m`. -/
def decrypted (s : State) (x m : List Byte) : State :=
  (((s.commitSchedule s.schedule).setRaw x).setMessage m).zeroiseState

theorem commandResult_decrypt_of_illegal {s : State} (h : s.keyLen.toNat ∉ [16, 24, 32]) :
    commandResult .decrypt s = .error .keyLength :=
  if_pos (by rw [Bool.not_eq_true', ← Bool.not_eq_true, legalKeyLength_iff_mem]; exact h)

/-- A frame within its buffer that decodes to whole blocks decodes to no more than RAW holds (R201). -/
theorem length_le_of_whole_blocks {s : State} {y : List Byte}
    (hlen : s.frameLen.toNat ≤ 4 * ((16 * s.nblkMax + 2) / 3)) (hy : b64dec s.frameText = .ok y)
    (h16 : y.length % 16 = 0) : y.length ≤ 16 * s.nblkMax := by
  have hle := length_b64dec_frameText_le hlen hy
  omega

section
variable {s : State} (hkey : s.keyLen.toNat ∈ [16, 24, 32])
include hkey

theorem commandResult_decrypt_tooLong (h : 4 * ((16 * s.nblkMax + 2) / 3) < s.frameLen.toNat) :
    commandResult .decrypt s = .error .sourceLength :=
  (if_neg (by rw [legalKeyLength_iff_mem.mpr hkey]; decide)).trans (if_pos h)

variable (hlen : s.frameLen.toNat ≤ 4 * ((16 * s.nblkMax + 2) / 3))
include hlen

theorem commandResult_decrypt_of_b64dec_error {e : CommandFailure} (he : b64dec s.frameText = .error e) :
    commandResult .decrypt s = .error e := by
  rw [commandResult, legalKeyLength_iff_mem.mpr hkey, if_neg (by decide), frameCap, rawCap, if_neg (by omega), he]

theorem commandResult_decrypt_of_partial_block {y : List Byte} (hy : b64dec s.frameText = .ok y)
    (h16 : y.length % 16 ≠ 0) : commandResult .decrypt s = .error .framePartialBlock := by
  rw [commandResult, legalKeyLength_iff_mem.mpr hkey, if_neg (by decide), frameCap, rawCap, if_neg (by omega), hy]
  exact if_pos h16

/-- With whole blocks decoded, the check against RAW_CAP passes, and what is left is unpadding (R201). -/
theorem commandResult_decrypt_of_whole_blocks {y : List Byte} (hy : b64dec s.frameText = .ok y)
    (h16 : y.length % 16 = 0) : commandResult .decrypt s =
      (unpad (decryptedBlocks s y) s.padchk).map (decrypted s (decryptedBlocks s y)) := by
  have hfits := length_le_of_whole_blocks hlen hy h16
  rw [commandResult, legalKeyLength_iff_mem.mpr hkey, if_neg (by decide), frameCap, rawCap, if_neg (by omega), hy]
  refine (if_neg (Decidable.not_not.mpr h16)).trans ((if_neg (Nat.not_lt.mpr hfits)).trans ?_)
  rw [decryptedBlocks]
  cases unpad (ecbDecrypt s.schedule.words s.schedule.nr y) s.padchk <;> rfl

end

/-- Settles O51: the errors in order, the key and the frame first, and then RAW and MSG are read back from what DECRYPT
stores in them. -/
theorem decryptCommand : Obligations.DecryptCommand := by
  intro s hs
  have hcap := nblkMax_le hs
  refine ⟨fun hkey => exec_of_error (commandResult_decrypt_of_illegal hkey), fun hkey => ⟨fun hlong => ?_,
    fun hlen => ⟨fun e he => ?_, fun y hy h16 => ?_, fun y hy h16 => ?_⟩⟩⟩
  · exact exec_of_error (commandResult_decrypt_tooLong hkey hlong)
  · exact exec_of_error (commandResult_decrypt_of_b64dec_error hkey hlen he)
  · exact exec_of_error (commandResult_decrypt_of_partial_block hkey hlen hy h16)
  · have hresult := commandResult_decrypt_of_whole_blocks hkey hlen hy h16
    have hfits := length_le_of_whole_blocks hlen hy h16
    refine ⟨expanded s, exec_keyexp_of_legal hkey, ?_⟩
    have hx : (decryptedBlocks s y).length = y.length := length_ecbMap _ h16
    rw [ecbDecrypt_expanded hkey, ← decryptedBlocks]
    refine ⟨fun e he => ?_, fun m hm => ?_⟩
    · rw [he] at hresult
      exact exec_of_error hresult
    · rw [hm] at hresult
      have hmx := length_unpad_le hm
      exact ⟨(decrypted s (decryptedBlocks s y) m).withStatus 0 0, exec_of_computed hresult, rfl,
        Memory.take_store_ofNat hs.raw_wf _ (by omega), (toNat_ofNat_length (by omega)).trans hx,
        Memory.take_store_ofNat hs.msg_wf _ (by omega), toNat_ofNat_length (by omega),
        fun i hi => read_store_above hs.raw_wf (by omega), fun i hi => read_store_above hs.msg_wf hi⟩

end Sys2Proof.WholeMessage

/-! ## Errors and STATUS (R221, R226, R228)

A command is a chain of checks, each of which raises its own error or hands on to the next, and what the last one commits.
So what is said of a command's result is said of each check of its chain, and the wrapper's two endings do the rest. -/

namespace Sys2Proof.Exceptions

open Sys2Proof Sys2Proof.Machine Sys2Proof.Claims Sys2Proof.BlockTransform Sys2Proof.WholeMessage

/-! ### Errors are precise (R226) -/

/-- A command that ends with an error: the state before it, with that error's code and cause. -/
theorem complete_failure {s t : State} {r : Except CommandFailure State} (h : s.complete r = .next t)
    (h0 : t.errCode ≠ 0) : ∃ e, r = .error e ∧ t = s.raise e := by
  rcases State.complete_cases h with ⟨u, -, rfl⟩ | hfail
  · exact absurd rfl h0
  · exact hfail

theorem runCommand_failure {c : Word} {s t : State} (h : runCommand c s = .next t) (h0 : t.errCode ≠ 0) :
    ∃ e, wordResult c s = .error e ∧ t = s.raise e :=
  complete_failure ((runCommand_eq_complete c s).symm.trans h) h0

/-- Settles O57: the wrapper discards what a failing command computed. -/
theorem errorsChangeOnlyStatus : Obligations.ErrorsChangeOnlyStatus := by
  intro c s t h h0
  obtain ⟨e, -, rfl⟩ := runCommand_failure h h0
  rfl

/-! ### KeyLengthError (R221) -/

/-- ERRCODE 1 is KeyLengthError's alone. -/
theorem code_eq_one_iff {e : CommandFailure} : e.code = 1 ↔ e = .keyLength := by
  cases e <;> decide

theorem unpad_error_ne_keyLength {x : List Byte} {strict : Bool} {e : CommandFailure} (h : unpad x strict = .error e) :
    e ≠ .keyLength := by
  rintro rfl
  exact absurd (unpad_error_code h) (by decide)

theorem b64dec_error_ne_keyLength {f : List Byte} {e : CommandFailure} (h : b64dec f = .error e) : e ≠ .keyLength := by
  rcases b64dec_error_cases h with rfl | rfl | rfl <;> decide

/-- A check of another error passes an error on only from what follows it. -/
theorem check_ne_error {α : Type} {p : Prop} [Decidable p] {e f : CommandFailure} {r : Except CommandFailure α}
    (he : e ≠ f) (hr : r ≠ .error f) : (if p then .error e else r) ≠ .error f := by
  split
  · exact fun h => he (Except.error.inj h)
  · exact hr

/-- No check raises KeyLengthError but that of KEYLEN, and that one passes a legal length. -/
theorem commandResult_ne_keyLength {i : Instr} {s : State} (h : i ∈ expandsKey → s.keyLen.toNat ∈ [16, 24, 32]) :
    commandResult i s ≠ .error .keyLength :=
  match i with
  | .gfmul .. | .ldstate | .ststate | .subbytes | .shiftrows | .mixcolumns | .invsubbytes | .invshiftrows
  | .invmixcolumns => nofun
  | .keyexp => by
    rw [commandResult, if_pos (legalKeyLength_iff_mem.mpr (h (by decide)))]
    nofun
  | .addroundkey _ | .pad => check_ne_error nofun (check_ne_error nofun nofun)
  | .encblk | .decblk | .b64enc => check_ne_error nofun nofun
  | .ecbenc | .ecbdec => check_ne_error nofun (check_ne_error nofun (check_ne_error nofun nofun))
  | .unpad => by
    refine check_ne_error nofun ?_
    cases hm : unpad s.rawBytes s.padchk with
    | error e => exact mt Except.error.inj (unpad_error_ne_keyLength hm)
    | ok m => nofun
  | .b64dec => by
    refine check_ne_error nofun ?_
    cases hx : b64dec s.frameText with
    | error e => exact mt Except.error.inj (b64dec_error_ne_keyLength hx)
    | ok x => exact check_ne_error nofun nofun
  | .encrypt => by
    rw [commandResult_encrypt_of_legal (h (by decide))]
    exact check_ne_error nofun (check_ne_error nofun nofun)
  | .decrypt => by
    rw [commandResult, if_neg (by rw [legalKeyLength_iff_mem.mpr (h (by decide))]; decide)]
    refine check_ne_error nofun ?_
    cases hy : b64dec s.frameText with
    | error e => exact mt Except.error.inj (b64dec_error_ne_keyLength hy)
    | ok y =>
      refine check_ne_error nofun (check_ne_error nofun ?_)
      cases hm : unpad (ecbDecrypt s.schedule.words s.schedule.nr y) s.padchk with
      | error e => exact mt Except.error.inj (unpad_error_ne_keyLength hm)
      | ok m => nofun

theorem commandResult_of_illegal_key {i : Instr} (hi : i ∈ expandsKey) {s : State} (h : s.keyLen.toNat ∉ [16, 24, 32]) :
    commandResult i s = .error .keyLength := by
  simp only [expandsKey, List.mem_cons, List.not_mem_nil, or_false] at hi
  rcases hi with rfl | rfl | rfl
  · exact if_neg (by rwa [legalKeyLength_iff_mem])
  · exact commandResult_encrypt_of_illegal h
  · exact commandResult_decrypt_of_illegal h

theorem commandResult_eq_keyLength_iff (i : Instr) (s : State) :
    commandResult i s = .error .keyLength ↔ i ∈ expandsKey ∧ s.keyLen.toNat ∉ [16, 24, 32] := by
  refine ⟨fun h => ?_, fun ⟨hi, hkey⟩ => commandResult_of_illegal_key hi hkey⟩
  rw [← Decidable.not_imp_iff_and_not]
  exact fun hlegal => commandResult_ne_keyLength hlegal h

/-- The commands that only use W check KVALID before anything else (R258). -/
theorem commandResult_of_no_round_keys {i : Instr} (hi : i ∈ needsRoundKeys ∨ ∃ r, i = .addroundkey r) {s : State}
    (hk : s.kvalid = false) : commandResult i s = .error .noRoundKeys := by
  simp only [needsRoundKeys, List.mem_cons, List.not_mem_nil, or_false] at hi
  rcases hi with (rfl | rfl | rfl | rfl) | ⟨r, rfl⟩ <;> exact if_pos hk

theorem errCode_eq_one_iff {s t : State} {r : Except CommandFailure State} (h : s.complete r = .next t) :
    t.errCode = 1 ↔ r = .error .keyLength := by
  rcases State.complete_cases h with ⟨u, rfl, rfl⟩ | ⟨e, rfl, rfl⟩
  · simp
  · rw [State.raise_errCode, code_eq_one_iff, Except.error.injEq]

/-- Settles O24: no check of a command but the one of KEYLEN raises KeyLengthError, and it comes first. -/
theorem keyLengthErrorExactly : Obligations.KeyLengthErrorExactly := by
  intro i s t h
  refine ⟨?_, fun hi hkey => ?_, fun hi hk => ?_⟩
  · rw [exec_eq_complete] at h
    rw [errCode_eq_one_iff h, commandResult_eq_keyLength_iff]
  · exact Host.Outcome.next.inj (h.symm.trans (exec_of_error (commandResult_of_illegal_key hi hkey)))
  · exact Host.Outcome.next.inj (h.symm.trans (exec_of_error (commandResult_of_no_round_keys hi hk)))

/-! ### STATUS is not read (R228) -/

@[simp] theorem withStatus_rawBytes (s : State) (c d : BitVec 4) : (s.withStatus c d).rawBytes = s.rawBytes := rfl

@[simp] theorem withStatus_frameText (s : State) (c d : BitVec 4) : (s.withStatus c d).frameText = s.frameText := rfl

@[simp] theorem withStatus_schedule (s : State) (c d : BitVec 4) : (s.withStatus c d).schedule = s.schedule := rfl

/-- Mapping what follows a check leaves the check as it is. -/
theorem check_map {α β : Type} {p : Prop} [Decidable p] {e : CommandFailure} {r : Except CommandFailure α} {f : α → β}
    {r' : Except CommandFailure β} (h : r' = r.map f) :
    (if p then .error e else r') = Except.map f (if p then .error e else r) := by
  rw [h]
  split <;> rfl

/-- A command computes the same whatever STATUS holds, and leaves in it what it held (R228). -/
theorem commandResult_withStatus (i : Instr) (s : State) (c d : BitVec 4) :
    commandResult i (s.withStatus c d) = (commandResult i s).map (State.withStatus · c d) :=
  match i with
  | .gfmul .. | .ldstate | .ststate | .subbytes | .shiftrows | .mixcolumns | .invsubbytes | .invshiftrows
  | .invmixcolumns => rfl
  | .keyexp => by
    rw [commandResult, commandResult, apply_ite (Except.map _)]
    rfl
  | .addroundkey _ | .pad => check_map (check_map rfl)
  | .encblk | .decblk | .b64enc => check_map rfl
  | .ecbenc | .ecbdec | .encrypt => check_map (check_map (check_map rfl))
  | .unpad => by
    refine check_map ?_
    rw [withStatus_rawBytes, State.withStatus_padchk]
    cases unpad s.rawBytes s.padchk <;> rfl
  | .b64dec => by
    refine check_map ?_
    rw [withStatus_frameText]
    cases b64dec s.frameText with
    | error e => rfl
    | ok x => exact check_map rfl
  | .decrypt => by
    refine check_map (check_map ?_)
    rw [withStatus_frameText]
    cases b64dec s.frameText with
    | error e => rfl
    | ok y =>
      refine check_map (check_map ?_)
      rw [withStatus_schedule, State.withStatus_padchk]
      cases unpad (ecbDecrypt s.schedule.words s.schedule.nr y) s.padchk <;> rfl

theorem wordResult_withStatus (w : Word) (s : State) (c d : BitVec 4) :
    wordResult w (s.withStatus c d) = (wordResult w s).map (·.withStatus c d) := by
  unfold wordResult
  cases decode w with
  | ok i => exact commandResult_withStatus i s c d
  | error e => rfl

/-- The wrapper overwrites STATUS in both of its endings. -/
theorem complete_withStatus (s : State) (r : Except CommandFailure State) (c d : BitVec 4) :
    (s.withStatus c d).complete (r.map (·.withStatus c d)) = s.complete r := by
  cases r <;> rfl

theorem runCommand_withStatus (w : Word) (s : State) (c d : BitVec 4) :
    runCommand w (s.withStatus c d) = runCommand w s := by
  rw [runCommand_eq_complete, wordResult_withStatus, complete_withStatus, ← runCommand_eq_complete]

/-- Settles O59: an error leaves a state that differs in STATUS only, in which the same word ends the same way. -/
theorem statusIsNotReadByCommands : Obligations.StatusIsNotReadByCommands := by
  refine ⟨runCommand_withStatus, fun w s t h => ⟨fun h0 => ?_, fun h0 => ?_⟩⟩
  · rw [runCommand_eq_complete] at h
    obtain ⟨u, -, rfl⟩ := State.complete_success h h0
    rfl
  · obtain ⟨e, -, rfl⟩ := runCommand_failure h h0
    exact (runCommand_withStatus w s e.code e.info).trans h

end Sys2Proof.Exceptions

/-! ## Decode and encode agree (R80 to R82, R87)

A well-formed word is its fields, which the command that is read from it gives back; and a word is selected by the row whose
match is its low byte, so that no two rows select it. -/

namespace Sys2Proof.Encoding

open Sys2Proof Sys2Proof.Machine Sys2Proof.Claims Sys2Proof.GaloisField

/-! ### The words of the commands -/

/-- The command read from well-formed fields has those fields: its operands are read, and the rest is zero (R81, R82). -/
theorem fields_of_commandOf {f : CommandFields} {i : Instr} (h : commandOf f = some i)
    (hwf : f.wellFormed i.shape = true) : i.fields = f := by
  obtain ⟨o, a, b, z⟩ := f
  have hopc : o = i.fields.opc := opc_of_commandOf h
  simp only [CommandFields.wellFormed, CommandFields.reservedClear, Bool.and_eq_true, beq_iff_eq] at hwf
  obtain ⟨⟨rfl, hb⟩, ha⟩ := hwf
  unfold commandOf at h
  split at h <;> cases h <;> simp_all [Instr.fields, Instr.shape, CommandFields.unusedAClear, CommandFields.unusedBClear]

theorem decode_eq_ok_iff {c : Word} {i : Instr} :
    decode c = .ok i ↔ commandOf (fieldsOf c) = some i ∧ (fieldsOf c).wellFormed i.shape = true := by
  cases h : commandOf (fieldsOf c) with
  | none => simp [decode_of_commandOf_none h]
  | some j =>
    rw [decode_of_commandOf_some h, Option.some.injEq]
    split
    · next hwf => exact ⟨fun e => by cases e; exact ⟨rfl, hwf⟩, fun e => by rw [e.1]⟩
    · next hwf => exact ⟨nofun, fun ⟨e, hwf'⟩ => absurd (e ▸ hwf') hwf⟩

theorem runCommand_of_decode_ok {c : Word} {i : Instr} (h : decode c = .ok i) (s : State) :
    runCommand c s = exec i s := by
  unfold runCommand
  rw [h]

/-- Settles O1: the fields of a word that decodes are those of its command, and a word is known from its fields. -/
theorem decodeInvertsEncode : Obligations.DecodeInvertsEncode := by
  refine fun c i => ⟨fun h => fieldsOf_injective ?_, fun h => h ▸ decode_encode i⟩
  obtain ⟨hi, hwf⟩ := decode_eq_ok_iff.mp h
  rw [fieldsOf_encode, fields_of_commandOf hi hwf]

theorem encode_eq_tableWord (i : Instr) : encode i = tableWord i := by
  cases i with
  | gfmul a b => exact encode_gfmul a b
  | addroundkey r => simp [encode, Instr.fields, tableWord]
  | _ => rfl

/-! ### The rows select the words that decode -/

/-- Every row's mask covers the opcode byte, and its match lies in that byte (R82). -/
theorem row_opcode_byte (i : Instr) : (row i).1 &&& 0xff = 0xff ∧ (row i).2 &&& 0xff = (row i).2 := by
  constructor
  · show shapeMask i.shape &&& 0xff = 0xff
    cases i.shape <;> rfl
  · rw [word_and_ff, row, fieldsOf_setWidth]

/-- A row that selects a word has the word's opcode as its match. -/
theorem match_of_selected {c : Word} {r : Word × Word} (hr : r ∈ opcodeTable) (h : c &&& r.1 = r.2) :
    r.2 = c &&& 0xff := by
  obtain ⟨i, rfl⟩ := exists_row_of_mem_opcodeTable hr
  obtain ⟨hmask, hmatch⟩ := row_opcode_byte i
  rw [← hmatch, ← h, BitVec.and_assoc, hmask]

theorem row_eq_of_match_eq {p q : Word × Word} (hp : p ∈ opcodeTable) (hq : q ∈ opcodeTable) (h : p.2 = q.2) :
    p = q := by
  have distinct : (opcodeTable.all fun p => opcodeTable.all fun q => p.2 != q.2 || p == q) = true := by decide +kernel
  have hpq := List.all_eq_true.mp (List.all_eq_true.mp distinct p hp) q hq
  simpa only [h, bne_self_eq_false, Bool.false_or, beq_iff_eq] using hpq

theorem row_unique {c : Word} {p q : Word × Word} (hp : p ∈ opcodeTable) (hq : q ∈ opcodeTable) (h : c &&& p.1 = p.2)
    (h' : c &&& q.1 = q.2) : p = q :=
  row_eq_of_match_eq hp hq ((match_of_selected hp h).trans (match_of_selected hq h').symm)

theorem fieldsOf_shapeMask : fieldsOf (shapeMask .neither) = ⟨0xff, 0xff, 0xff, 0xff⟩
    ∧ fieldsOf (shapeMask .fieldA) = ⟨0xff, 0, 0xff, 0xff⟩ ∧ fieldsOf (shapeMask .fieldsAB) = ⟨0xff, 0, 0, 0xff⟩ :=
  ⟨rfl, rfl, rfl⟩

/-- A word that a row selects has no reserved or unused field set: the mask keeps those fields (R81 step 2). -/
theorem wellFormed_of_selected {c : Word} {i : Instr} (h : c &&& (row i).1 = (row i).2) :
    (fieldsOf c).wellFormed i.shape = true := by
  have hf := congrArg fieldsOf h
  rw [fieldsOf_and, row, fieldsOf_setWidth, CommandFields.mk.injEq] at hf
  obtain ⟨-, ha, hb, hz⟩ := hf
  obtain ⟨hneither, hA, hAB⟩ := fieldsOf_shapeMask
  simp only [CommandFields.wellFormed, CommandFields.reservedClear, Bool.and_eq_true, beq_iff_eq]
  cases hs : i.shape <;> simp only [hs, hneither, hA, hAB, BitVec.ofNat_eq_ofNat, byte_and_ff] at ha hb hz
  case neither => exact ⟨⟨hz, beq_iff_eq.mpr hb⟩, beq_iff_eq.mpr ha⟩
  case fieldA => exact ⟨⟨hz, beq_iff_eq.mpr hb⟩, rfl⟩
  case fieldsAB => exact ⟨⟨hz, rfl⟩, rfl⟩

theorem exists_decode_of_selected {c : Word} {r : Word × Word} (hr : r ∈ opcodeTable) (h : c &&& r.1 = r.2) :
    ∃ i, decode c = .ok i := by
  obtain ⟨i, rfl⟩ := exists_row_of_mem_opcodeTable hr
  obtain ⟨j, hj⟩ := exists_commandOf_of_opc ((and_ff_eq_row_iff c i).mp (by
    rw [← match_of_selected hr h, (row_opcode_byte i).2]))
  have hrow : row i = row j := row_eq_of_match_eq hr (row_mem_opcodeTable j) (by
    rw [match_of_selected hr h, word_and_ff, opc_of_commandOf hj, row])
  rw [hrow] at h
  exact ⟨j, decode_eq_ok_iff.mpr ⟨hj, wellFormed_of_selected h⟩⟩

/-- Settles O2: a word is selected by the row of the command it decodes to, and by no other. -/
theorem opcodeTableSelectsCommands : Obligations.OpcodeTableSelectsCommands := by
  refine ⟨fun i => ⟨encode_eq_tableWord i, encode_eq_tableWord i ▸ decode_encode i⟩, fun c => ⟨fun ⟨i, h⟩ => ?_,
    fun ⟨r, hr, h⟩ => exists_decode_of_selected hr h⟩, fun c p hp q hq => row_unique hp hq, rfl⟩
  obtain ⟨hi, hwf⟩ := decode_eq_ok_iff.mp h
  exact ⟨row i, row_mem_opcodeTable i, row_selects_of_commandOf hi hwf⟩

/-- Settles O4: each word is read field by field. -/
theorem sampleWordsDecode : Obligations.SampleWordsDecode :=
  ⟨rfl, rfl, rfl, rfl, rfl, rfl, rfl, rfl, rfl, rfl⟩

end Sys2Proof.Encoding

/-! ## What a command commits and what it raises (R67, R230)

A command ends in one of the errors the spec lists for it, or commits one of a few updates of the state. Both are said once,
for every command (`commandResult_ends`); the frame of the commands, the errors, the zeroised State and the invariant are
read off. -/

namespace Sys2Proof.CommandEffects

open Sys2Proof Sys2Proof.Machine Sys2Proof.Claims Sys2Proof.WholeMessage

/-- A command's result is a state that `P` holds of, or an error that `E` holds of. -/
def Ends (P : State → Prop) (E : CommandFailure → Prop) : Except CommandFailure State → Prop
  | .ok u => P u
  | .error e => E e

/-- A check ends in its own error, or in what follows it. -/
theorem ends_check {P : State → Prop} {E : CommandFailure → Prop} {p : Prop} [Decidable p] {e : CommandFailure}
    {r : Except CommandFailure State} (he : E e) (hr : ¬ p → Ends P E r) : Ends P E (if p then .error e else r) := by
  split
  · exact he
  · exact hr ‹_›

/-- The wrapper around a result: the state it commits with STATUS cleared, or the error raised (R89, R226). -/
theorem Ends.complete {P : State → Prop} {E : CommandFailure → Prop} {r : Except CommandFailure State} (h : Ends P E r)
    {s t : State} (ht : s.complete r = .next t) : (∃ u, P u ∧ t = u.withStatus 0 0) ∨ ∃ e, E e ∧ t = s.raise e := by
  rcases State.complete_cases ht with ⟨u, rfl, rfl⟩ | ⟨e, rfl, rfl⟩
  · exact .inl ⟨u, h, rfl⟩
  · exact .inr ⟨e, h, rfl⟩

/-! ### The updates -/

/-- The commands without an operand that write S alone. -/
def statePrimitives : List Instr :=
  [.ldstate, .subbytes, .shiftrows, .mixcolumns, .invsubbytes, .invshiftrows, .invmixcolumns]

/-- The updates of the state that a command can commit; what is stored in a buffer fits it. -/
inductive Commits (s : State) : Instr → State → Prop
  | result (a b : Byte) : Commits s (.gfmul a b) { s with result := (gmul a b).setWidth 32 }
  | schedule (h : s.keyLen.toNat ∈ [16, 24, 32]) : Commits s .keyexp (s.commitSchedule s.schedule)
  | cipherState {i : Instr} (h : i ∈ statePrimitives ∨ ∃ r, i = .addroundkey r) (x : Block) :
    Commits s i { s with cipherState := x }
  | storedBlock : Commits s .ststate { s with blk := s.cipherState }
  | block {i : Instr} (h : i = .encblk ∨ i = .decblk) (b : Block) :
    Commits s i { s with blk := b, cipherState := Block.zero }
  | message {m : List Byte} (h : m.length ≤ msgCap s.nblkMax) : Commits s .unpad (s.setMessage m)
  | raw {i : Instr} (h : i = .pad ∨ i = .b64dec) {x : List Byte} (hx : x.length ≤ rawCap s.nblkMax) :
    Commits s i (s.setRaw x)
  | rawInPlace {i : Instr} (h : i = .ecbenc ∨ i = .ecbdec) {x : List Byte} (hx : x.length ≤ rawCap s.nblkMax) :
    Commits s i { s with raw := s.raw.store 0 x, cipherState := Block.zero }
  | frame {f : List Byte} (h : f.length ≤ frameCap s.nblkMax) : Commits s .b64enc (s.setFrame f)
  | encrypted (h : s.keyLen.toNat ∈ [16, 24, 32]) {y f : List Byte} (hy : y.length ≤ rawCap s.nblkMax)
    (hf : f.length ≤ frameCap s.nblkMax) :
    Commits s .encrypt (((s.commitSchedule s.schedule).setRaw y).setFrame f).zeroiseState
  | decrypted (h : s.keyLen.toNat ∈ [16, 24, 32]) {x m : List Byte} (hx : x.length ≤ rawCap s.nblkMax)
    (hm : m.length ≤ msgCap s.nblkMax) :
    Commits s .decrypt (((s.commitSchedule s.schedule).setRaw x).setMessage m).zeroiseState

/-! ### The errors -/

/-- The table of R230 lists this error for this command. -/
def Raises (i : Instr) (e : CommandFailure) : Prop := (e.code.toNat, e.info.toNat) ∈ raisable i

/-- A PaddingError has one of the four causes of R223. -/
theorem raises_of_unpad_error {x : List Byte} {strict : Bool} {e : CommandFailure} (h : unpad x strict = .error e) :
    Raises .unpad e ∧ Raises .decrypt e := by
  have hcode := unpad_error_code h
  unfold Raises
  revert hcode
  cases e <;> decide

theorem raises_of_b64dec_error {f : List Byte} {e : CommandFailure} (h : b64dec f = .error e) :
    Raises .b64dec e ∧ Raises .decrypt e := by
  unfold Raises
  rcases b64dec_error_cases h with rfl | rfl | rfl <;> decide

/-! ### Every command -/

/-- The text of bytes that fit RAW fits FRAME (R7, R195). -/
theorem length_b64enc_le {n : Nat} {x : List Byte} (h : x.length ≤ rawCap n) : (b64enc x).length ≤ frameCap n := by
  rw [length_b64enc, frameCap]
  omega

theorem length_ecbMap_rawBytes {s : State} (f : Block → Block) (h : ¬ s.rawLen.toNat % 16 ≠ 0) :
    (ecbMap f s.rawBytes).length = s.rawLen.toNat := by
  rw [length_ecbMap f (by rw [State.length_rawBytes]; omega), State.length_rawBytes]

/-- DECRYPT decodes the frame of `s` to `y`, and unpads its decryption to `m` (R201). -/
structure Decrypts (s : State) (y m : List Byte) : Prop where
  legal : s.keyLen.toNat ∈ [16, 24, 32]
  frame_fits : s.frameLen.toNat ≤ 4 * ((16 * s.nblkMax + 2) / 3)
  decoded : b64dec s.frameText = .ok y
  whole : y.length % 16 = 0
  unpadded : unpad (decryptedBlocks s y) s.padchk = .ok m

theorem length_decryptedBlocks (s : State) {y : List Byte} (h16 : y.length % 16 = 0) :
    (decryptedBlocks s y).length = y.length := length_ecbMap _ h16

theorem Decrypts.blocks_fit {s : State} {y m : List Byte} (h : Decrypts s y m) :
    (decryptedBlocks s y).length ≤ rawCap s.nblkMax := by
  rw [length_decryptedBlocks s h.whole]
  exact length_le_of_whole_blocks h.frame_fits h.decoded h.whole

/-- DECRYPT fails with an error of its row, or every stage of it succeeds (R201). -/
theorem commandResult_decrypt_cases (s : State) :
    (∃ e, Raises .decrypt e ∧ commandResult .decrypt s = .error e)
      ∨ ∃ y m, Decrypts s y m ∧ commandResult .decrypt s = .ok (decrypted s (decryptedBlocks s y) m) := by
  by_cases legal : s.keyLen.toNat ∈ [16, 24, 32]
  case neg => exact .inl ⟨.keyLength, .head _, commandResult_decrypt_of_illegal legal⟩
  by_cases fits : s.frameLen.toNat ≤ 4 * ((16 * s.nblkMax + 2) / 3)
  case neg => exact .inl ⟨.sourceLength, .tail _ (.head _), commandResult_decrypt_tooLong legal (Nat.not_le.mp fits)⟩
  cases hy : b64dec s.frameText with
  | error e =>
    exact .inl ⟨e, (raises_of_b64dec_error hy).2, commandResult_decrypt_of_b64dec_error legal fits hy⟩
  | ok y =>
    by_cases whole : y.length % 16 = 0
    case neg =>
      have hraises : Raises .decrypt .framePartialBlock := by unfold Raises; decide
      exact .inl ⟨_, hraises, commandResult_decrypt_of_partial_block legal fits hy whole⟩
    have hresult := commandResult_decrypt_of_whole_blocks legal fits hy whole
    cases hm : unpad (decryptedBlocks s y) s.padchk with
    | error e =>
      rw [hm] at hresult
      exact .inl ⟨e, (raises_of_unpad_error hm).2, hresult⟩
    | ok m =>
      rw [hm] at hresult
      exact .inr ⟨y, m, ⟨legal, fits, hy, whole, hm⟩, hresult⟩

theorem mem_keyLengths_of_not_illegal {n : Nat} (h : ¬ (!legalKeyLength n) = true) : n ∈ [16, 24, 32] :=
  legalKeyLength_iff_mem.mp (by simpa using h)

/-- A command ends in one of the updates, or in an error that the table lists for it. -/
theorem commandResult_ends (i : Instr) (s : State) : Ends (Commits s i) (Raises i) (commandResult i s) :=
  match i with
  | .gfmul a b => .result a b
  | .keyexp => by
    rw [commandResult]
    split
    · next h => exact .schedule (legalKeyLength_iff_mem.mp h)
    · exact List.Mem.head _
  | .ldstate | .subbytes | .shiftrows | .mixcolumns | .invsubbytes | .invshiftrows | .invmixcolumns =>
    Commits.cipherState (.inl (by decide)) _
  | .ststate => .storedBlock
  | .addroundkey r =>
    ends_check (.head _) fun _ => ends_check (.tail _ (.head _)) fun _ => Commits.cipherState (.inr ⟨r, rfl⟩) _
  | .encblk => ends_check (.head _) fun _ => Commits.block (.inl rfl) _
  | .decblk => ends_check (.head _) fun _ => Commits.block (.inr rfl) _
  | .pad =>
    ends_check (.head _) fun _ => ends_check (.tail _ (.head _)) fun h =>
      Commits.raw (.inl rfl) (by rw [length_pad, State.length_message]; omega)
  | .unpad => by
    refine ends_check (.head _) fun h => ?_
    cases hm : unpad s.rawBytes s.padchk with
    | error e => exact (raises_of_unpad_error hm).1
    | ok m =>
      have hle := length_unpad_le hm
      rw [State.length_rawBytes] at hle
      exact Commits.message (by rw [msgCap]; omega)
  | .ecbenc =>
    ends_check (.head _) fun _ => ends_check (.tail _ (.head _)) fun h => ends_check (.tail _ (.tail _ (.head _))) fun h16 =>
      Commits.rawInPlace (.inl rfl) (by rw [ecbEncrypt, length_ecbMap_rawBytes _ h16]; omega)
  | .ecbdec =>
    ends_check (.head _) fun _ => ends_check (.tail _ (.head _)) fun h => ends_check (.tail _ (.tail _ (.head _))) fun h16 =>
      Commits.rawInPlace (.inr rfl) (by rw [ecbDecrypt, length_ecbMap_rawBytes _ h16]; omega)
  | .b64enc =>
    ends_check (.head _) fun h => Commits.frame (length_b64enc_le (by rw [State.length_rawBytes]; omega))
  | .b64dec => by
    refine ends_check (.head _) fun _ => ?_
    cases hx : b64dec s.frameText with
    | error e => exact (raises_of_b64dec_error hx).1
    | ok x => exact ends_check (by unfold Raises; decide) fun h => Commits.raw (.inr rfl) (Nat.not_lt.mp h)
  | .encrypt => by
    refine ends_check (.head _) fun hkey => ends_check (.tail _ (.head _)) fun _ =>
      ends_check (.tail _ (.tail _ (.head _))) fun h => ?_
    have hlen : (encryptedBytes s).length ≤ rawCap s.nblkMax := by
      rw [length_encryptedBytes, ← paddedLength]
      omega
    exact Commits.encrypted (mem_keyLengths_of_not_illegal hkey) hlen (length_b64enc_le hlen)
  | .decrypt => by
    rcases commandResult_decrypt_cases s with ⟨e, he, hresult⟩ | ⟨y, m, h, hresult⟩
    · rwa [hresult]
    · rw [hresult]
      exact Commits.decrypted h.legal h.blocks_fit (Nat.le_trans (length_unpad_le h.unpadded) h.blocks_fit)

/-- The two endings of a command. -/
theorem exec_cases {i : Instr} {s t : State} (h : exec i s = .next t) :
    (∃ u, Commits s i u ∧ t = u.withStatus 0 0) ∨ ∃ e, Raises i e ∧ t = s.raise e :=
  (commandResult_ends i s).complete ((exec_eq_complete i s).symm.trans h)

/-- Settles O58: both endings of a command are in the table. -/
theorem commandsRaiseOnlyTheirErrors : Obligations.CommandsRaiseOnlyTheirErrors := by
  intro i s t h
  rcases exec_cases h with ⟨u, -, rfl⟩ | ⟨e, he, rfl⟩
  · exact .head _
  · exact .tail _ he

/-! ### The composite commands zeroise S (R27) -/

theorem statePrimitives_not_composite : ∀ i ∈ statePrimitives, i ∉ composite := by decide

theorem Commits.zeroised {i : Instr} {s u : State} (h : Commits s i u) (hi : i ∈ composite) :
    u.cipherState = Block.zero := by
  cases h with
  | block | rawInPlace | encrypted | decrypted => rfl
  | result | schedule | storedBlock | message | frame => simp [composite] at hi
  | raw h => rcases h with rfl | rfl <;> simp [composite] at hi
  | cipherState h =>
    rcases h with h | ⟨r, rfl⟩
    · exact absurd hi (statePrimitives_not_composite i h)
    · simp [composite] at hi

/-- Settles O37: what a composite command commits has S zero, and an error is no success. -/
theorem compositeCommandsZeroiseState : Obligations.CompositeCommandsZeroiseState := by
  intro i hi s t h h0 r c
  rcases exec_cases h with ⟨u, hu, rfl⟩ | ⟨e, -, rfl⟩
  · rw [State.withStatus_cipherState, hu.zeroised hi, Block.at_zero]
  · exact absurd h0 e.code_ne_zero

/-! ### The frame of every command (R67) -/

/-- Settles O60: each update writes the storage of its command's row, and an error writes none of it. -/
theorem commandsWriteOnlyTheirStorage : Obligations.CommandsWriteOnlyTheirStorage := by
  intro i s t hexec
  rcases exec_cases hexec with ⟨u, hu, rfl⟩ | ⟨e, -, rfl⟩
  · clear hexec
    cases hu with
    | result | schedule | storedBlock | message | frame | encrypted | decrypted => simp [expandsKey]
    | block h | raw h | rawInPlace h => rcases h with rfl | rfl <;> simp [expandsKey]
    | cipherState h =>
      rcases h with h | ⟨r, rfl⟩
      · simp only [statePrimitives, List.mem_cons, List.not_mem_nil, or_false] at h
        rcases h with rfl | rfl | rfl | rfl | rfl | rfl | rfl <;> simp
      · simp
  · simp

end Sys2Proof.CommandEffects

/-! ## The invariant (R7, R24 to R34)

Each clause speaks of a few fields. So an update is checked on the clauses of the fields it writes, and the others pass over
unchanged; a step makes one of the updates of `transact_cases`. -/

namespace Sys2Proof.Invariant

open Sys2Proof Sys2Proof.Machine Sys2Proof.Claims Sys2Proof.KeyExpansion Sys2Proof.CommandEffects

/-! ### Reset (R41) -/

theorem inv_resetWith {n : Nat} (h : 1 ≤ n) (h' : n ≤ 49152) : (State.resetWith n).Inv where
  nblkMax_range := ⟨h, h'⟩
  msg_wf := rfl
  raw_wf := rfl
  frame_wf := rfl
  msg_below := rfl
  raw_below := rfl
  frame_below := rfl
  result_byte := (by decide : (0 : Word).toNat < 256)
  status_legal := .inl ⟨rfl, rfl⟩
  round_keys_legal := .inl ⟨rfl, rfl, getD_reset_words⟩
  round_keys_current := nofun

/-- Settles O7: every clause holds of the values of R41. -/
theorem resetMeetsInvariant : Obligations.ResetMeetsInvariant :=
  ⟨inv_resetWith (by decide) (by decide), fun _ => inv_resetWith⟩

/-! ### The updates of a command -/

theorem legalStatus_of_failure (e : CommandFailure) : legalStatus e.code.toNat e.info.toNat := by
  unfold legalStatus
  cases e <;> decide

/-- A key expansion commits a legal size, with the unused words zero (R24, R25). -/
theorem legalRoundKeys_commitSchedule {s : State} (h : s.keyLen.toNat ∈ [16, 24, 32]) :
    legalRoundKeys (s.commitSchedule s.schedule).nk.toNat (s.commitSchedule s.schedule).nr.toNat
      (s.commitSchedule s.schedule).w.toList := by
  have hnk : (s.commitSchedule s.schedule).nk.toNat = s.keyLen.toNat / 4 := toNat_expanded_nk s
  have hnr : (s.commitSchedule s.schedule).nr.toNat = s.keyLen.toNat / 4 + 6 := toNat_expanded_nr s
  rw [hnk, hnr]
  simp only [List.mem_cons, List.not_mem_nil, or_false] at h
  exact .inr ⟨by omega, rfl, fun i hi => wordAt_expanded_unused (by omega) hi⟩

section
variable {s : State} (hs : s.Inv)
include hs

theorem inv_withStatus {c d : BitVec 4} (h : legalStatus c.toNat d.toNat) : (s.withStatus c d).Inv :=
  { hs with status_legal := h }

theorem inv_setRaw {x : List Byte} (h : x.length ≤ rawCap s.nblkMax) : (s.setRaw x).Inv :=
  { hs with
    raw_wf := Memory.wf_store hs.raw_wf 0 x
    raw_below := Memory.below_store hs.raw_below (by omega) }

theorem inv_setMessage {x : List Byte} (h : x.length ≤ msgCap s.nblkMax) : (s.setMessage x).Inv :=
  { hs with
    msg_wf := Memory.wf_store hs.msg_wf 0 x
    msg_below := Memory.below_store hs.msg_below (by omega) }

theorem inv_setFrame {x : List Byte} (h : x.length ≤ frameCap s.nblkMax) : (s.setFrame x).Inv :=
  { hs with
    frame_wf := Memory.wf_store hs.frame_wf 0 x
    frame_below := Memory.below_store hs.frame_below (by omega) }

theorem inv_commitSchedule (h : s.keyLen.toNat ∈ [16, 24, 32]) : (s.commitSchedule s.schedule).Inv :=
  { hs with
    round_keys_legal := legalRoundKeys_commitSchedule h
    round_keys_current := fun _ =>
      ⟨WholeMessage.legalKeyLength_iff_mem.mpr h, rfl, toNat_expanded_nk s, toNat_expanded_nr s⟩ }

/-- What a command commits keeps the invariant. -/
theorem inv_of_commits {i : Instr} {u : State} (h : Commits s i u) : u.Inv := by
  cases h with
  | result a b =>
    refine { hs with result_byte := ?_ }
    rw [BitVec.toNat_setWidth]
    exact Nat.lt_of_le_of_lt (Nat.mod_le _ _) (gmul a b).isLt
  | schedule h => exact inv_commitSchedule hs h
  | cipherState | storedBlock | block => exact { hs with }
  | message h => exact inv_setMessage hs h
  | raw _ hx => exact inv_setRaw hs hx
  | rawInPlace _ hx => exact { inv_setRaw hs hx with }
  | frame h => exact inv_setFrame hs h
  | encrypted h hy hf => exact { inv_setFrame (inv_setRaw (inv_commitSchedule hs h) hy) hf with }
  | decrypted h hx hm => exact { inv_setMessage (inv_setRaw (inv_commitSchedule hs h) hx) hm with }

/-- Every command word keeps the invariant, an illegal one too. -/
theorem inv_of_runCommand {c : Word} {u : State} (h : runCommand c s = .next u) : u.Inv := by
  cases hc : decode c with
  | error e =>
    rw [Encoding.runCommand_of_decode_error hc] at h
    cases h
    exact inv_withStatus hs (legalStatus_of_failure _)
  | ok i =>
    rw [Encoding.runCommand_of_decode_ok hc] at h
    rcases exec_cases h with ⟨v, hv, rfl⟩ | ⟨e, -, rfl⟩
    · exact inv_withStatus (inv_of_commits hs hv) (.inl ⟨rfl, rfl⟩)
    · exact inv_withStatus hs (legalStatus_of_failure e)

/-! ### The host's writes -/

theorem inv_of_writeCell {c : ByteCell} {v : Byte} {u : State} (hc : c.exists s.nblkMax)
    (h : s.writeCell c v = some u) : u.Inv := by
  cases c with
  | key i => cases h; exact { hs with round_keys_current := nofun }
  | blk i | cipherState i => cases h; exact { hs with }
  | roundKey | sbox | invSbox | rcon => cases h
  | msg i =>
    cases h
    exact { hs with msg_wf := Memory.wf_write hs.msg_wf i v, msg_below := Memory.below_write hs.msg_below hc v }
  | raw i =>
    cases h
    exact { hs with raw_wf := Memory.wf_write hs.raw_wf i v, raw_below := Memory.below_write hs.raw_below hc v }
  | frame i =>
    cases h
    exact { hs with frame_wf := Memory.wf_write hs.frame_wf i v, frame_below := Memory.below_write hs.frame_below hc v }

theorem inv_of_writeRegister {r : Register} {v : Word} {u : State} (h : s.writeRegister r v = some u) : u.Inv := by
  cases r with
  | keyLen => cases h; exact { hs with round_keys_current := nofun }
  | ctrl | msgLen | rawLen | frameLen => cases h; exact { hs with }
  | cmd | status | nk | nr | result | nblkMax => cases h

theorem inv_of_transact {e : HostEvent} {t : State} (h : transact e s = .next t) : t.Inv := by
  rcases transact_cases h with ⟨r, rfl⟩ | ⟨_, _, c, u, -, hc, hu, rfl⟩ | ⟨_, _, r, u, -, -, hu, rfl⟩
    | ⟨_, _, u, -, -, hu, rfl⟩ | ⟨-, rfl⟩
  · exact { hs with }
  · exact { inv_of_writeCell hs (offset_of_byteCellAt hc).2 hu with }
  · exact { inv_of_writeRegister hs hu with }
  · exact { inv_of_runCommand hs hu with }
  · exact { inv_resetWith hs.nblkMax_range.1 hs.nblkMax_range.2 with }

end

/-- Settles O8: an idle core keeps its state, and an event makes an update that keeps the invariant. -/
theorem stepKeepsInvariant : Obligations.StepKeepsInvariant := by
  intro s t hs h
  cases hp : s.pending with
  | nil =>
    rw [step_of_idle hp] at h
    cases h
    exact hs
  | cons e rest =>
    rw [step_of_pending hp] at h
    have hqueue : State.Inv { s with pending := rest } := { hs with }
    exact inv_of_transact hqueue h

/-! ### Valid round keys are current (R26) -/

/-- While KVALID is 1, W, NK and NR are what a key expansion would commit. -/
theorem commitSchedule_of_valid {s : State} (hs : s.Inv) (hk : s.kvalid = true) : s.commitSchedule s.schedule = s := by
  obtain ⟨-, hw, hnk, hnr⟩ := hs.round_keys_current hk
  rw [State.commitSchedule, ← hw, ← hnk, ← hnr, ← hk]
  simp only [BitVec.ofNat_toNat, BitVec.setWidth_eq]

/-- Settles O26: KEYEXP commits what is there. -/
theorem validRoundKeysAreCurrent : Obligations.ValidRoundKeysAreCurrent := by
  intro s hs hk
  have hlegal := WholeMessage.legalKeyLength_iff_mem.mp (hs.round_keys_current hk).1
  rw [exec_keyexp_of_legal hlegal, expanded, commitSchedule_of_valid hs hk]
  rfl

end Sys2Proof.Invariant

/-! ## The step and the host bus (R20, R42, R51 to R61, R250)

One lemma for each kind of transaction says what the step answers, for the register or the cell at the offset; the statements
about registers, byte ranges and bus errors name that register or cell. -/

namespace Sys2Proof.HostBus

open Sys2Proof Sys2Proof.Machine Sys2Proof.Claims Sys2Proof.BlockTransform Sys2Proof.Exceptions

/-! ### Completion (R60, R262) -/

theorem exec_is_next (i : Instr) (s : State) : ∃ t, exec i s = .next t := by
  rw [exec_eq_complete]
  exact s.complete_is_next _

theorem transact_is_next (e : HostEvent) (s : State) : ∃ t, transact e s = .next t := by
  cases e with
  | memRead8 | memRead32 | memWrite8 | reset => exact ⟨_, rfl⟩
  | memWrite32 addr v =>
    simp only [transact, State.memWrite32]
    split
    · obtain ⟨t, -, ht⟩ := answerCommand_runCommand v s
      exact ⟨_, ht⟩
    · exact ⟨_, rfl⟩
    · exact ⟨_, rfl⟩

/-- Settles O6: the wrapper ends every command, and a transaction is a read, a write, a reset or a command. -/
theorem everyCommandAndStepCompletes : Obligations.EveryCommandAndStepCompletes := by
  refine ⟨exec_is_next, fun s => ?_, fun s => step_of_idle⟩
  cases hp : s.pending with
  | nil => exact ⟨s, step_of_idle hp⟩
  | cons e rest =>
    rw [step_of_pending hp]
    exact transact_is_next e _

/-! ### Reset (R41, R250 to R252) -/

theorem step_reset {s : State} {rest : List HostEvent} (hp : s.pending = .reset :: rest) :
    step s = .next { State.resetWith s.nblkMax with pending := rest } :=
  step_of_pending hp

/-- Settles O10: what the reset event leaves names nothing of the state before but NBLK_MAX and the queue. -/
theorem resetErasesEverything : Obligations.ResetErasesEverything := by
  intro s u rest hn hs hu
  rw [step_reset hs, step_reset hu, hn]

/-! ### The transactions -/

section
variable {s : State} {rest : List HostEvent} {addr : Nat}

theorem step_memRead8 (hp : s.pending = .memRead8 addr :: rest) {c : ByteCell}
    (hc : byteCellAt s.nblkMax (addr % 2 ^ 22) = some c) :
    step s = .next (answered s rest (.okByte (s.readCell c))) := by
  change byteCellAt s.nblkMax (offsetOf addr) = some c at hc
  rw [step_of_pending hp, transact, State.memRead8, hc]
  cases c <;> rfl

theorem step_memRead8_unmapped (hp : s.pending = .memRead8 addr :: rest)
    (hc : byteCellAt s.nblkMax (addr % 2 ^ 22) = none) : step s = .next (answered s rest .busError) := by
  change byteCellAt s.nblkMax (offsetOf addr) = none at hc
  rw [step_of_pending hp, transact, State.memRead8, hc]
  rfl

theorem step_memRead32 (hp : s.pending = .memRead32 addr :: rest) {r : Register}
    (hr : registerAt (addr % 2 ^ 22) = some r) :
    step s = .next (answered s rest (.okWord (s.readRegister r))) := by
  change registerAt (offsetOf addr) = some r at hr
  rw [step_of_pending hp, transact, State.memRead32, hr]
  cases r <;> rfl

theorem step_memRead32_unmapped (hp : s.pending = .memRead32 addr :: rest)
    (hr : registerAt (addr % 2 ^ 22) = none) : step s = .next (answered s rest .busError) := by
  change registerAt (offsetOf addr) = none at hr
  rw [step_of_pending hp, transact, State.memRead32, hr]
  rfl

/-- An 8-bit write of a cell answers what the write of the cell gives (R57). -/
theorem step_memWrite8 {v : Byte} (hp : s.pending = .memWrite8 addr v :: rest) {c : ByteCell}
    (hc : byteCellAt s.nblkMax (addr % 2 ^ 22) = some c) :
    step s = .next (State.answerWrite { s with pending := rest } (State.writeCell { s with pending := rest } c v)) := by
  change byteCellAt s.nblkMax (offsetOf addr) = some c at hc
  rw [step_of_pending hp, transact, State.memWrite8, hc]

theorem step_memWrite8_unmapped {v : Byte} (hp : s.pending = .memWrite8 addr v :: rest)
    (hc : byteCellAt s.nblkMax (addr % 2 ^ 22) = none) : step s = .next (answered s rest .busError) := by
  change byteCellAt s.nblkMax (offsetOf addr) = none at hc
  rw [step_of_pending hp, transact, State.memWrite8, hc]
  rfl

/-- A write of CMD runs the word (R33, R57). -/
theorem step_memWrite32_cmd {v : Word} (hp : s.pending = .memWrite32 addr v :: rest)
    (hr : registerAt (addr % 2 ^ 22) = some .cmd) :
    step s = answerCommand (runCommand v { s with pending := rest }) := by
  change registerAt (offsetOf addr) = some .cmd at hr
  rw [step_of_pending hp, transact, State.memWrite32, hr]

/-- A 32-bit write of another register answers what the write of the register gives (R57). -/
theorem step_memWrite32 {v : Word} (hp : s.pending = .memWrite32 addr v :: rest) {r : Register} (hcmd : r ≠ .cmd)
    (hr : registerAt (addr % 2 ^ 22) = some r) :
    step s = .next (State.answerWrite { s with pending := rest } (State.writeRegister { s with pending := rest } r v)) := by
  change registerAt (offsetOf addr) = some r at hr
  rw [step_of_pending hp, transact, State.memWrite32, hr]
  cases r with
  | cmd => exact absurd rfl hcmd
  | _ => rfl

theorem step_memWrite32_unmapped {v : Word} (hp : s.pending = .memWrite32 addr v :: rest)
    (hr : registerAt (addr % 2 ^ 22) = none) : step s = .next (answered s rest .busError) := by
  change registerAt (offsetOf addr) = none at hr
  rw [step_of_pending hp, transact, State.memWrite32, hr]
  rfl

end

/-! ### Command words (R33, R81, R84) -/

/-- Settles O5: offset 0 is CMD's, and an illegal word raises the decoder's error. -/
theorem stepRunsDecodedCommand : Obligations.StepRunsDecodedCommand := by
  intro s rest addr c hp haddr s'
  have hstep : step s = answerCommand (runCommand c s') := step_memWrite32_cmd hp (by rw [haddr]; rfl)
  refine ⟨fun t ht => ?_, fun i t hi ht => ?_, fun he => ?_, fun he => ?_⟩
  · rw [hstep, ht]
    rfl
  · rw [hstep, Encoding.runCommand_of_decode_ok hi, ht]
    rfl
  · rw [hstep, Encoding.runCommand_of_decode_error he]
    rfl
  · rw [hstep, Encoding.runCommand_of_decode_error he]
    rfl

/-! ### Registers (R42, R56, R57) -/

/-- ERRCODE, ERRINFO and KVALID in their places of STATUS (R34). -/
theorem statusWord_eq (s : State) : s.statusWord =
    BitVec.ofNat 32 (s.errCode.toNat + 16 * s.errInfo.toNat + 256 * (if s.kvalid then 1 else 0)) := by
  have key : ∀ (c i : BitVec 4) (k : Bool),
      (c.setWidth 32 ||| (i.setWidth 32 <<< 4) ||| ((bitOf k).setWidth 32 <<< 8) : Word)
        = BitVec.ofNat 32 (c.toNat + 16 * i.toNat + 256 * (if k then 1 else 0)) := by decide +kernel
  exact key s.errCode s.errInfo s.kvalid

theorem ctrlWord_eq (s : State) : s.ctrlWord = BitVec.ofNat 32 (if s.padchk then 1 else 0) := by
  unfold State.ctrlWord
  cases s.padchk <;> rfl

/-- A read of the register at its offset, for a value written as a number. -/
theorem step_memRead32_offset {s : State} {rest : List HostEvent} {addr : Nat} (hp : s.pending = .memRead32 addr :: rest)
    (r : Register) {n : Nat} (hn : s.readRegister r = BitVec.ofNat 32 n) (ho : addr % 2 ^ 22 = r.offset) :
    step s = .next (answered s rest (.okWord (BitVec.ofNat 32 n))) := by
  rw [step_memRead32 hp (ho ▸ registerAt_offset r), hn]

/-- Settles O11: each offset is its register's, and each value is read as a number. -/
theorem registerReads : Obligations.RegisterReads := by
  intro s rest addr hp o ok
  have num (w : Word) : w = BitVec.ofNat 32 w.toNat := by simp
  exact ⟨step_memRead32_offset hp .cmd rfl, step_memRead32_offset hp .status (statusWord_eq s),
    step_memRead32_offset hp .ctrl (ctrlWord_eq s), step_memRead32_offset hp .keyLen (num _),
    step_memRead32_offset hp .nk (num _), step_memRead32_offset hp .nr (num _),
    step_memRead32_offset hp .result (num _), step_memRead32_offset hp .msgLen (num _),
    step_memRead32_offset hp .rawLen (num _), step_memRead32_offset hp .frameLen (num _),
    step_memRead32_offset hp .nblkMax rfl⟩

theorem step_memWrite32_offset {s u : State} {rest : List HostEvent} {addr : Nat} {v : Word}
    (hp : s.pending = .memWrite32 addr v :: rest) {r : Register} (ho : addr % 2 ^ 22 = r.offset)
    (hu : State.writeRegister { s with pending := rest } r v = some u) : step s = .next (u.respond .okWrite) := by
  have hcmd : r ≠ .cmd := by
    rintro rfl
    cases hu
  rw [step_memWrite32 hp hcmd (ho ▸ registerAt_offset r), hu, State.answerWrite_some]

/-- Settles O13: each offset is its register's, and bit 0 of a number is its remainder modulo 2. -/
theorem registerWrites : Obligations.RegisterWrites := by
  intro s rest addr v hp o base
  refine ⟨fun ho => ?_, fun ho => ?_, fun ho => ?_, fun ho => ?_, fun ho => ?_⟩
  · have hbit : v.getLsbD 0 = decide (v.toNat % 2 = 1) := Nat.testBit_zero _
    rw [← hbit]
    exact step_memWrite32_offset hp (r := .ctrl) ho rfl
  · exact step_memWrite32_offset hp (r := .keyLen) ho rfl
  · exact step_memWrite32_offset hp (r := .msgLen) ho rfl
  · exact step_memWrite32_offset hp (r := .rawLen) ho rfl
  · exact step_memWrite32_offset hp (r := .frameLen) ho rfl

/-! ### The values after reset (R41) -/

/-- Settles O9: the values are those of `State.resetWith`. -/
theorem resetEventValues : Obligations.ResetEventValues := by
  intro s rest hp
  have hword (i : Fin 60) (j : Fin 4) : (Vector.replicate 60 Quad.zero)[i].get j = 0 := by simp
  have hblock (i : Fin 16) : Block.zero.get i = 0 := Block.at_zero _ _
  have hkey (i : Fin 32) : (Vector.replicate 32 (0 : Byte))[i] = 0 := by simp
  exact ⟨_, step_reset hp, hkey, rfl, hword, rfl, rfl, rfl, Block.at_zero, hblock, rfl, rfl, rfl, rfl, rfl, rfl, rfl,
    fun _ => ⟨rfl, rfl, rfl⟩, rfl, rfl, (statusWord_eq _).trans rfl, rfl⟩

/-! ### Byte ranges (R52, R56) -/

theorem step_memRead8_offset {s : State} {rest : List HostEvent} {addr : Nat} (hp : s.pending = .memRead8 addr :: rest)
    (hs : s.Inv) {c : ByteCell} (hc : c.exists s.nblkMax) {b : Byte} (hb : s.readCell c = b)
    (ho : addr % 2 ^ 22 = c.offset) : step s = .next (answered s rest (.okByte b)) := by
  rw [step_memRead8 hp (byteCellAt_offset hs.nblkMax_range.2 hc ho), hb]

/-- The byte of row `r` and column `c` is byte `r + 4c` of the block (R141). -/
theorem get_row_add_col (x : Block) (r c : Fin 4) : x.get ⟨r.val + 4 * c.val, by omega⟩ = x.at r c := by
  rw [get_eq_at]
  congr 1
  · exact Fin.ext (show (r.val + 4 * c.val) % 4 = r.val by omega)
  · exact Fin.ext (show (r.val + 4 * c.val) / 4 = c.val by omega)

/-- Settles O12: each range's offset is that of the cell the table names. -/
theorem byteReads : Obligations.ByteReads := by
  intro s rest addr hp hs o ok
  refine ⟨fun i => ?_, fun i => ?_, fun r c => ?_, fun i j => ?_, fun x => ?_, fun x => ?_, fun j hj => ?_, fun i hi => ?_,
    fun i hi => ?_, fun i hi => ?_⟩
  · exact step_memRead8_offset hp hs (c := .key i) trivial rfl
  · exact step_memRead8_offset hp hs (c := .blk i) trivial (Block.getD_toList_get _ _).symm
  · exact step_memRead8_offset hp hs (c := .cipherState ⟨r.val + 4 * c.val, by omega⟩) trivial (get_row_add_col _ r c)
  · exact step_memRead8_offset hp hs (c := .roundKey i j) trivial rfl
  · exact step_memRead8_offset hp hs (c := .sbox x) trivial rfl
  · exact step_memRead8_offset hp hs (c := .invSbox x) trivial rfl
  · exact step_memRead8_offset hp hs (c := .rcon ⟨j, hj⟩) trivial rfl
  · exact step_memRead8_offset hp hs (c := .msg i) hi rfl
  · exact step_memRead8_offset hp hs (c := .raw i) hi rfl
  · exact step_memRead8_offset hp hs (c := .frame i) hi rfl

/-! ### Writable bytes (R52, R57) -/

/-- The cell lies in a range that the host can write. -/
def Writable : ByteCell → Prop
  | .key _ | .blk _ | .cipherState _ | .msg _ | .raw _ | .frame _ => True
  | .roundKey _ _ | .sbox _ | .invSbox _ | .rcon _ => False

theorem writeCell_of_writable {c : ByteCell} (h : Writable c) (s : State) (v : Byte) : ∃ u, s.writeCell c v = some u := by
  cases c with
  | key | blk | cipherState | msg | raw | frame => exact ⟨_, rfl⟩
  | roundKey | sbox | invSbox | rcon => exact absurd h id

theorem writeCell_of_not_writable {c : ByteCell} (h : ¬ Writable c) (s : State) (v : Byte) : s.writeCell c v = none := by
  cases c with
  | key | blk | cipherState | msg | raw | frame => exact absurd trivial h
  | roundKey | sbox | invSbox | rcon => rfl

/-- The range of a cell, as an interval of offsets (R52). -/
def rangeOf (n : Nat) : ByteCell → Nat × Nat
  | .key _ => (0x100, 0x120)
  | .blk _ => (0x120, 0x130)
  | .cipherState _ => (0x130, 0x140)
  | .roundKey _ _ => (0x200, 0x2f0)
  | .sbox _ => (0x400, 0x500)
  | .invSbox _ => (0x500, 0x600)
  | .rcon _ => (0x600, 0x60a)
  | .msg _ => (0x100000, 0x100000 + msgCap n)
  | .raw _ => (0x200000, 0x200000 + rawCap n)
  | .frame _ => (0x300000, 0x300000 + frameCap n)

theorem offset_in_rangeOf {n : Nat} {c : ByteCell} (hc : c.exists n) :
    (rangeOf n c).1 ≤ c.offset ∧ c.offset < (rangeOf n c).2 := by
  cases c with
  | sbox x | invSbox x =>
    have := x.isLt
    simp only [rangeOf, ByteCell.offset]
    omega
  | _ =>
    simp only [ByteCell.exists] at hc
    simp only [rangeOf, ByteCell.offset]
    omega

theorem rangeOf_mem_readableRanges (n : Nat) (c : ByteCell) : rangeOf n c ∈ readableRanges n := by
  cases c <;> simp [rangeOf, readableRanges, msgCap, rawCap, frameCap]

theorem rangeOf_mem_writableRanges (n : Nat) {c : ByteCell} (h : Writable c) : rangeOf n c ∈ writableRanges n := by
  cases c with
  | key | blk | cipherState | msg | raw | frame => simp [rangeOf, writableRanges, msgCap, rawCap, frameCap]
  | roundKey | sbox | invSbox | rcon => exact absurd h id

theorem inRanges_readable {n o : Nat} {c : ByteCell} (h : byteCellAt n o = some c) : inRanges (readableRanges n) o := by
  obtain ⟨rfl, hc⟩ := offset_of_byteCellAt h
  exact ⟨_, rangeOf_mem_readableRanges n c, offset_in_rangeOf hc⟩

theorem inRanges_writable {n o : Nat} {c : ByteCell} (h : byteCellAt n o = some c) (hw : Writable c) :
    inRanges (writableRanges n) o := by
  obtain ⟨rfl, hc⟩ := offset_of_byteCellAt h
  exact ⟨_, rangeOf_mem_writableRanges n hw, offset_in_rangeOf hc⟩

/-- Every offset of a writable range is the offset of a writable cell (R52). -/
theorem exists_writable_cell {n o : Nat} (h : inRanges (writableRanges n) o) :
    ∃ c, Writable c ∧ c.exists n ∧ o = c.offset := by
  obtain ⟨r, hr, hlow, hhigh⟩ := h
  simp only [writableRanges, List.mem_cons, List.not_mem_nil, or_false] at hr
  rcases hr with rfl | rfl | rfl | rfl | rfl | rfl
  · exact ⟨.key ⟨o - 0x100, Nat.sub_lt_left_of_lt_add hlow hhigh⟩, trivial, trivial, (Nat.add_sub_of_le hlow).symm⟩
  · exact ⟨.blk ⟨o - 0x120, Nat.sub_lt_left_of_lt_add hlow hhigh⟩, trivial, trivial, (Nat.add_sub_of_le hlow).symm⟩
  · exact ⟨.cipherState ⟨o - 0x130, Nat.sub_lt_left_of_lt_add hlow hhigh⟩, trivial, trivial, (Nat.add_sub_of_le hlow).symm⟩
  · exact ⟨.msg (o - 0x100000), trivial, Nat.sub_lt_left_of_lt_add hlow hhigh, (Nat.add_sub_of_le hlow).symm⟩
  · exact ⟨.raw (o - 0x200000), trivial, Nat.sub_lt_left_of_lt_add hlow hhigh, (Nat.add_sub_of_le hlow).symm⟩
  · exact ⟨.frame (o - 0x300000), trivial, Nat.sub_lt_left_of_lt_add hlow hhigh, (Nat.add_sub_of_le hlow).symm⟩

/-! ### A write of a byte (R57) -/

/-- A write of a byte writes no register and, of the flags, KVALID alone, for a byte of KEY (R26, R57). -/
theorem registers_of_writeCell {s u : State} {c : ByteCell} {v : Byte} (h : s.writeCell c v = some u) :
    u.kvalid = (s.kvalid && !decide (0x100 ≤ c.offset ∧ c.offset < 0x120))
      ∧ u.keyLen = s.keyLen ∧ u.nk = s.nk ∧ u.nr = s.nr ∧ u.result = s.result ∧ u.msgLen = s.msgLen
      ∧ u.rawLen = s.rawLen ∧ u.frameLen = s.frameLen ∧ u.errCode = s.errCode ∧ u.errInfo = s.errInfo
      ∧ u.padchk = s.padchk ∧ u.nblkMax = s.nblkMax := by
  cases c with
  | key i =>
    cases h
    rw [decide_eq_true (by simp only [ByteCell.offset]; omega)]
    exact ⟨(Bool.and_false _).symm, rfl, rfl, rfl, rfl, rfl, rfl, rfl, rfl, rfl, rfl, rfl⟩
  | blk | cipherState | msg | raw | frame =>
    cases h
    rw [decide_eq_false (by simp only [ByteCell.offset]; omega)]
    exact ⟨(Bool.and_true _).symm, rfl, rfl, rfl, rfl, rfl, rfl, rfl, rfl, rfl, rfl, rfl⟩
  | roundKey | sbox | invSbox | rcon => cases h

theorem pending_of_writeCell {s u : State} {c : ByteCell} {v : Byte} (h : s.writeCell c v = some u) :
    u.pending = s.pending := by
  cases c with
  | key | blk | cipherState | msg | raw | frame => cases h; rfl
  | roundKey | sbox | invSbox | rcon => cases h

/-- What a host read of each offset gives after a write of one cell (R52, R57). -/
theorem byteAt_of_writeCell {s u : State} (hs : s.Inv) {o : Nat} {c : ByteCell} {v : Byte}
    (hc : byteCellAt s.nblkMax o = some c) (h : s.writeCell c v = some u) (hn : u.nblkMax = s.nblkMax) (p : Nat) :
    byteAt u p = if p = o then some v else byteAt s p := by
  have hread (d : ByteCell) : u.readCell d = if d = c then v else s.readCell d :=
    State.readCell_writeCell hs.msg_wf hs.raw_wf hs.frame_wf h d
  unfold byteAt
  rw [hn]
  by_cases hp : p = o
  · rw [if_pos hp, hp, hc, Option.map_some, hread, if_pos rfl]
  · rw [if_neg hp]
    cases hd : byteCellAt s.nblkMax p with
    | none => rfl
    | some d =>
      have hne : d ≠ c := by
        rintro rfl
        exact hp ((offset_of_byteCellAt hd).1.symm.trans (offset_of_byteCellAt hc).1)
      rw [Option.map_some, Option.map_some, hread, if_neg hne]

theorem byteAt_respond (s : State) (r : Response) (p : Nat) : byteAt (s.respond r) p = byteAt s p := by
  have hread : (s.respond r).readCell = s.readCell := by
    funext c
    cases c <;> rfl
  rw [byteAt, byteAt, hread, State.respond_nblkMax]

/-- Settles O14: the offset is that of a writable cell, and no other offset is. -/
theorem byteWriteThenRead : Obligations.ByteWriteThenRead := by
  intro s rest addr v hp hs o ho
  obtain ⟨c, hw, hexists, hoffset⟩ := exists_writable_cell ho
  have hc : byteCellAt s.nblkMax o = some c := byteCellAt_offset hs.nblkMax_range.2 hexists hoffset
  obtain ⟨u, hu⟩ := writeCell_of_writable hw { s with pending := rest } v
  have hqueue : State.Inv { s with pending := rest } := { hs with }
  obtain ⟨hk, hkeyLen, hnk, hnr, hresult, hmsgLen, hrawLen, hframeLen, hcode, hinfo, hpadchk, hn⟩ :=
    registers_of_writeCell hu
  refine ⟨u.respond .okWrite, ?_, rfl, pending_of_writeCell hu, fun p => ?_, hoffset ▸ hk, hkeyLen, hnk, hnr, hresult,
    hmsgLen, hrawLen, hframeLen, hcode, hinfo, hpadchk, hn⟩
  · rw [step_memWrite8 hp hc, hu, State.answerWrite_some]
  · rw [byteAt_respond]
    exact byteAt_of_writeCell hqueue hc hu hn p

/-! ### Bus errors (R53) -/

/-- A register at another offset than those of the writable registers is read-only (R42, R53). -/
theorem writeRegister_of_offset_not_writable {r : Register} (h : r.offset ∉ [0x00, 0x08, 0x0c, 0x1c, 0x20, 0x24])
    (s : State) (v : Word) : r ≠ .cmd ∧ s.writeRegister r v = none := by
  cases r with
  | status | nk | nr | result | nblkMax => exact ⟨nofun, rfl⟩
  | cmd | ctrl | keyLen | msgLen | rawLen | frameLen => exact absurd (by decide) h

/-- Settles O15: the offset is no cell's and no register's, or that of one the host cannot write. -/
theorem busErrorsChangeNothing : Obligations.BusErrorsChangeNothing := by
  refine fun s rest addr => ⟨fun hp ho => ?_, fun hp ho => ?_, fun v hp ho => ?_, fun v hp ho => ?_⟩
  · cases hc : byteCellAt s.nblkMax (addr % 2 ^ 22) with
    | none => exact step_memRead8_unmapped hp hc
    | some c => exact absurd (inRanges_readable hc) ho
  · exact step_memRead32_unmapped hp (registerAt_eq_none ho)
  · cases hc : byteCellAt s.nblkMax (addr % 2 ^ 22) with
    | none => exact step_memWrite8_unmapped hp hc
    | some c =>
      rw [step_memWrite8 hp hc, writeCell_of_not_writable fun hw => ho (inRanges_writable hc hw)]
      rfl
  · cases hr : registerAt (addr % 2 ^ 22) with
    | none => exact step_memWrite32_unmapped hp hr
    | some r =>
      rw [registerAt_eq_some hr] at ho
      obtain ⟨hcmd, hnone⟩ := writeRegister_of_offset_not_writable ho { s with pending := rest } v
      rw [step_memWrite32 hp hcmd hr, hnone]
      rfl

/-! ### Stale round keys (R26, R258) -/

theorem refused_of_invalid {t : State} (hk : t.kvalid = false) :
    (∀ i ∈ needsRoundKeys, exec i t = .next { t with errCode := 4, errInfo := 4 })
      ∧ ∀ r : Byte, exec (.addroundkey r) t = .next { t with errCode := 4, errInfo := 4 } :=
  ⟨fun _ hi => exec_of_error (commandResult_of_no_round_keys (.inl hi) hk),
    fun r => exec_of_error (commandResult_of_no_round_keys (.inr ⟨r, rfl⟩) hk)⟩

/-- Settles O16: either write clears KVALID, which is checked first. -/
theorem staleRoundKeysAreRefused : Obligations.StaleRoundKeysAreRefused := by
  rintro s rest addr b v (⟨hp, hlow, hhigh⟩ | ⟨hp, ho⟩)
  · have hc : byteCellAt s.nblkMax (addr % 2 ^ 22) = some (.key ⟨addr % 2 ^ 22 - 0x100, by omega⟩) :=
      dif_pos ⟨hlow, hhigh⟩
    exact ⟨_, step_memWrite8 hp hc, refused_of_invalid rfl⟩
  · exact ⟨_, step_memWrite32_offset hp (r := .keyLen) ho rfl, refused_of_invalid rfl⟩

end Sys2Proof.HostBus

/-! ## The laws of the field and of the tables (R102, R114) -/

namespace Sys2Proof.SubstitutionTables

open Sys2Proof Sys2Proof.Machine Sys2Proof.GaloisField

/-- Multiplying by `x` is the shift, reduced when bit 7 leaves the byte (R102). -/
theorem gmul_two (a : Byte) : gmul a 2 = if a.getLsbD 7 then (a <<< 1) ^^^ 0x1b else a <<< 1 := by
  revert a
  decide +kernel

theorem gmul_three (a : Byte) : gmul a 3 = gmul a 2 ^^^ a := by
  rw [show (3 : Byte) = 2 ^^^ 1 from rfl, gmul_xor_right, gmul_one_right]

/-- Settles O19: additivity and the checks on single bits give the laws, and SBOX names the inverse of each byte. -/
theorem gmulFieldLaws : Obligations.GmulFieldLaws :=
  ⟨gmul_comm, gmul_one_right, gmul_zero_right, gmul_xor_right, gmul_assoc, gmul_two, gmul_three, fun a ha =>
    ⟨affineUnmap (sbox a), gmul_affineUnmap_sbox a ha, fun _ hc => gmul_inverse_unique hc (gmul_affineUnmap_sbox a ha)⟩⟩

theorem sbox_invSbox : ∀ x, sbox (invSbox x) = x := by decide +kernel

/-- SBOX has no fixed point and no opposite fixed point (R114). -/
theorem sbox_not_fixed : ∀ x, sbox x ≠ x ∧ sbox x ≠ x ^^^ 0xff := by decide +kernel

/-- Settles O20: each clause goes through the 256 entries. -/
theorem sboxesAreInverse : Obligations.SboxesAreInverse :=
  fun x => ⟨invSbox_sbox x, sbox_invSbox x, sbox_not_fixed x⟩

end Sys2Proof.SubstitutionTables

/-! ## Key bytes beyond the key length (R22, R121) -/

namespace Sys2Proof.KeyExpansion

open Sys2Proof Sys2Proof.Machine Sys2Proof.Claims Sys2Proof.MessageBuffers

theorem keyBytes_congr {s u : State} {n : Nat} (h : ∀ i, i < n → keyAt u i = keyAt s i) :
    u.keyBytes n = s.keyBytes n := by
  have hlen (v : State) : (v.keyBytes n).length = min n 32 := by simp [State.keyBytes]
  refine List.ext_getElem (by rw [hlen, hlen]) fun i hu hs => ?_
  have hi : i < n := by rw [hlen] at hu; omega
  rw [← getD_eq_getElem_of_lt hu, ← getD_eq_getElem_of_lt hs, getD_keyBytes u hi, getD_keyBytes s hi, h i hi]

/-- The schedule is a function of KEYLEN and of the key bytes below it (R122). -/
theorem schedule_congr {s u : State} (hlen : u.keyLen = s.keyLen) (h : ∀ i, i < s.keyLen.toNat → keyAt u i = keyAt s i) :
    u.schedule = s.schedule := by
  rw [State.schedule, State.schedule, hlen, keyBytes_congr h]

/-- Settles O25: KEYEXP commits the schedule. -/
theorem keyBytesAboveLengthIgnored : Obligations.KeyBytesAboveLengthIgnored := by
  intro s u hs hlen hkey
  have hschedule := schedule_congr hlen hkey
  refine ⟨expanded s, expanded u, exec_keyexp_of_legal hs, exec_keyexp_of_legal (hlen ▸ hs), ?_, ?_, ?_⟩
  · exact congrArg (fun ks : KeySchedule => roundKeyMemory ks.words) hschedule
  · exact congrArg (fun ks : KeySchedule => BitVec.ofNat 32 ks.nk) hschedule
  · exact congrArg (fun ks : KeySchedule => BitVec.ofNat 32 ks.nr) hschedule

end Sys2Proof.KeyExpansion

/-! ## Sequences of block commands (R152, R155, R156)

A command that succeeds hands its state on to the next, so a sequence of primitives is the composition of what they do to S,
and the rounds of a block transform are such compositions. Each round is undone by the inverse round, from the outside in. -/

namespace Sys2Proof.BlockTransform

open Sys2Proof Sys2Proof.Machine Sys2Proof.Claims Sys2Proof.SubstitutionTables

/-! ### Commands one after another -/

theorem runCommands_cons {i : Instr} {s t : State} (h : exec i s = .next t) (is : List Instr) :
    runCommands (i :: is) s = runCommands is t := by
  rw [runCommands, h]

theorem runCommands_append (is js : List Instr) (s : State) :
    runCommands (is ++ js) s = (runCommands is s).bind (runCommands js) := by
  induction is generalizing s with
  | nil => rfl
  | cons i is ih =>
    rw [List.cons_append, runCommands, runCommands]
    cases exec i s with
    | next t => exact ih t
    | fault | refused => rfl

/-- No command reads STATUS, so a sequence of commands may start from a cleared one (R228). -/
theorem runCommands_cons_withStatus (i : Instr) (is : List Instr) (s : State) :
    runCommands (i :: is) (s.withStatus 0 0) = runCommands (i :: is) s := by
  have hexec : exec i (s.withStatus 0 0) = exec i s := by
    rw [exec_eq_complete, Exceptions.commandResult_withStatus, Exceptions.complete_withStatus, ← exec_eq_complete]
  rw [runCommands, runCommands, hexec]

/-- `s` with `x` in S and STATUS cleared: where a primitive leaves the core. -/
def withState (s : State) (x : Block) : State := { s with cipherState := x, errCode := 0, errInfo := 0 }

/-- The commands put the State through `f`, whatever it holds, and leave the rest of `s`. -/
def Transforms (s : State) (is : List Instr) (f : Block → Block) : Prop :=
  ∀ x, runCommands is (withState s x) = some (withState s (f x))

theorem Transforms.append {s : State} {is js : List Instr} {f g : Block → Block} (hf : Transforms s is f)
    (hg : Transforms s js g) : Transforms s (is ++ js) fun x => g (f x) := by
  intro x
  rw [runCommands_append, hf, Option.bind_some, hg]

theorem Transforms.cons {s : State} {i : Instr} {is : List Instr} {f g : Block → Block} (hf : Transforms s [i] f)
    (hg : Transforms s is g) : Transforms s (i :: is) fun x => g (f x) :=
  hf.append hg

/-- A sequence of primitives started in `s` itself. -/
theorem Transforms.run {s : State} {i : Instr} {is : List Instr} {f : Block → Block} (h : Transforms s (i :: is) f) :
    runCommands (i :: is) s = some (withState s (f s.cipherState)) := by
  rw [← runCommands_cons_withStatus]
  exact h s.cipherState

/-! ### The primitives (R144 to R150) -/

section
variable (s : State)

theorem transforms_of_ok {i : Instr} {f : Block → Block}
    (h : ∀ x, commandResult i (withState s x) = .ok { withState s x with cipherState := f x }) : Transforms s [i] f :=
  fun x => runCommands_cons (exec_of_ok (h x)) []

theorem transforms_subbytes : Transforms s [.subbytes] subBytes := transforms_of_ok s fun _ => rfl
theorem transforms_shiftrows : Transforms s [.shiftrows] shiftRows := transforms_of_ok s fun _ => rfl
theorem transforms_mixcolumns : Transforms s [.mixcolumns] mixColumns := transforms_of_ok s fun _ => rfl
theorem transforms_invsubbytes : Transforms s [.invsubbytes] invSubBytes := transforms_of_ok s fun _ => rfl
theorem transforms_invshiftrows : Transforms s [.invshiftrows] invShiftRows := transforms_of_ok s fun _ => rfl
theorem transforms_invmixcolumns : Transforms s [.invmixcolumns] invMixColumns := transforms_of_ok s fun _ => rfl

variable {s}

theorem transforms_addroundkey (hk : s.kvalid = true) {r : Byte} (hr : r.toNat ≤ s.nr.toNat) :
    Transforms s [.addroundkey r] (addRoundKey (roundKey s.w.toList r.toNat)) :=
  transforms_of_ok s fun x =>
    (commandResult_addroundkey_valid (s := withState s x) r hk).trans (if_neg (Nat.not_lt.mpr hr))

end

@[simp] theorem invSubBytes_subBytes (x : Block) : invSubBytes (subBytes x) = x :=
  Block.ext_at fun r c => by simp [invSubBytes, subBytes, invSbox_sbox]

@[simp] theorem subBytes_invSubBytes (x : Block) : subBytes (invSubBytes x) = x :=
  Block.ext_at fun r c => by simp [invSubBytes, subBytes, sbox_invSbox]

/-- Two primitives, the second of which undoes the first, restore the state but for STATUS. -/
theorem run_inverse_pair {s : State} {i j : Instr} {f g : Block → Block} (hf : Transforms s [i] f)
    (hg : Transforms s [j] g) (h : ∀ x, g (f x) = x) :
    runCommands [i, j] s = some { s with errCode := 0, errInfo := 0 } := by
  have hrun := (hf.append hg).run
  rwa [h] at hrun

/-- Two primitives that commute end in the same state in either order. -/
theorem run_commuting_pair {s : State} {i j : Instr} {f g : Block → Block} (hf : Transforms s [i] f)
    (hg : Transforms s [j] g) (h : ∀ x, g (f x) = f (g x)) : runCommands [i, j] s = runCommands [j, i] s := by
  have hfg := (hf.append hg).run
  have hgf := (hg.append hf).run
  rw [h] at hfg
  exact hfg.trans hgf.symm

/-- Settles O32: each pair of commands is a pair of inverse or of commuting functions of the State. -/
theorem primitivesAreInversePairs : Obligations.PrimitivesAreInversePairs := fun s =>
  ⟨run_inverse_pair (transforms_subbytes s) (transforms_invsubbytes s) invSubBytes_subBytes,
    run_inverse_pair (transforms_invsubbytes s) (transforms_subbytes s) subBytes_invSubBytes,
    run_inverse_pair (transforms_shiftrows s) (transforms_invshiftrows s) invShiftRows_shiftRows,
    run_inverse_pair (transforms_invshiftrows s) (transforms_shiftrows s) shiftRows_invShiftRows,
    run_inverse_pair (transforms_mixcolumns s) (transforms_invmixcolumns s) invMixColumns_mixColumns,
    run_inverse_pair (transforms_invmixcolumns s) (transforms_mixcolumns s) mixColumns_invMixColumns,
    fun _ hk hr => run_inverse_pair (transforms_addroundkey hk hr) (transforms_addroundkey hk hr)
      (addRoundKey_addRoundKey _),
    run_commuting_pair (transforms_subbytes s) (transforms_shiftrows s) shiftRows_subBytes,
    run_commuting_pair (transforms_invsubbytes s) (transforms_invshiftrows s) invShiftRows_invSubBytes⟩

/-! ### The rounds as sequences of primitives (R156) -/

theorem encryptRoundCommands_succ (n : Nat) : encryptRoundCommands (n + 1) = encryptRoundCommands n
    ++ [.subbytes, .shiftrows, .mixcolumns, .addroundkey (BitVec.ofNat 8 (n + 1))] := by
  simp [encryptRoundCommands, List.range_succ]

theorem decryptRoundCommands_succ (n : Nat) : decryptRoundCommands (n + 1)
    = [.invshiftrows, .invsubbytes, .addroundkey (BitVec.ofNat 8 (n + 1)), .invmixcolumns] ++ decryptRoundCommands n := by
  simp [decryptRoundCommands, List.range_succ]

section
variable {s : State} (hk : s.kvalid = true) (hnr : s.nr.toNat < 256)
include hk hnr

theorem transforms_addroundkey_round {r : Nat} (hr : r ≤ s.nr.toNat) :
    Transforms s [.addroundkey (BitVec.ofNat 8 r)] (addRoundKey (roundKey s.w.toList r)) := by
  have hround : (BitVec.ofNat 8 r).toNat = r := toNat_ofNat_round (Nat.lt_of_le_of_lt hr hnr)
  have h := transforms_addroundkey hk (r := BitVec.ofNat 8 r) (by rwa [hround])
  rwa [hround] at h

theorem transforms_encryptRound {r : Nat} (hr : r ≤ s.nr.toNat) :
    Transforms s [.subbytes, .shiftrows, .mixcolumns, .addroundkey (BitVec.ofNat 8 r)] (encryptRound s.w.toList r) :=
  (transforms_subbytes s).cons ((transforms_shiftrows s).cons ((transforms_mixcolumns s).cons
    (transforms_addroundkey_round hk hnr hr)))

theorem transforms_decryptRound {r : Nat} (hr : r ≤ s.nr.toNat) :
    Transforms s [.invshiftrows, .invsubbytes, .addroundkey (BitVec.ofNat 8 r), .invmixcolumns]
      (decryptRound s.w.toList r) :=
  (transforms_invshiftrows s).cons ((transforms_invsubbytes s).cons
    ((transforms_addroundkey_round hk hnr hr).cons (transforms_invmixcolumns s)))

theorem transforms_encryptRounds {n : Nat} (hn : n ≤ s.nr.toNat) :
    Transforms s (encryptRoundCommands n) (encryptRounds s.w.toList n) := by
  induction n with
  | zero => exact fun _ => rfl
  | succ n ih =>
    rw [encryptRoundCommands_succ]
    exact (ih (Nat.le_of_succ_le hn)).append (transforms_encryptRound hk hnr hn)

theorem transforms_decryptRounds {n : Nat} (hn : n ≤ s.nr.toNat) :
    Transforms s (decryptRoundCommands n) (decryptRounds s.w.toList n) := by
  induction n with
  | zero => exact fun _ => rfl
  | succ n ih =>
    rw [decryptRoundCommands_succ]
    exact (transforms_decryptRound hk hnr hn).append (ih (Nat.le_of_succ_le hn))

/-- The primitives between LDSTATE and STSTATE are the encryption of a block (R151). -/
theorem transforms_encryptBlock : Transforms s
    (.addroundkey 0 :: (encryptRoundCommands (s.nr.toNat - 1)
      ++ [.subbytes, .shiftrows, .addroundkey (BitVec.ofNat 8 s.nr.toNat)]))
    (encryptBlock s.w.toList s.nr.toNat) :=
  (transforms_addroundkey_round hk hnr (Nat.zero_le _)).cons
    ((transforms_encryptRounds hk hnr (Nat.sub_le _ _)).append ((transforms_subbytes s).cons
      ((transforms_shiftrows s).cons (transforms_addroundkey_round hk hnr (Nat.le_refl _)))))

/-- The primitives between LDSTATE and STSTATE are the decryption of a block (R152). -/
theorem transforms_decryptBlock : Transforms s
    (.addroundkey (BitVec.ofNat 8 s.nr.toNat) :: (decryptRoundCommands (s.nr.toNat - 1)
      ++ [.invshiftrows, .invsubbytes, .addroundkey 0]))
    (decryptBlock s.w.toList s.nr.toNat) :=
  (transforms_addroundkey_round hk hnr (Nat.le_refl _)).cons
    ((transforms_decryptRounds hk hnr (Nat.sub_le _ _)).append ((transforms_invshiftrows s).cons
      ((transforms_invsubbytes s).cons (transforms_addroundkey_round hk hnr (Nat.zero_le _)))))

end

/-- LDSTATE, commands that transform the State, and STSTATE put BLK through the transform (R142, R143). -/
theorem run_load_transform_store {s : State} {is : List Instr} {f : Block → Block} (h : Transforms s is f) :
    runCommands (.ldstate :: (is ++ [.ststate])) s
      = some { s with blk := f s.blk, cipherState := f s.blk, errCode := 0, errInfo := 0 } := by
  have hload : exec .ldstate s = .next (withState s s.blk) := exec_of_ok rfl
  rw [runCommands_cons hload, runCommands_append, h, Option.bind_some]
  exact runCommands_cons (exec_of_ok rfl) []

theorem nr_lt_of_valid {s : State} (hs : s.Inv) (hk : s.kvalid = true) : s.nr.toNat < 256 := by
  obtain ⟨hlegal, -, -, hnr⟩ := hs.round_keys_current hk
  rw [hnr, State.schedule, expandKey_nr]
  have := legalKeyLength_iff.mp hlegal
  omega

/-- Settles O35: the sequences are the block transforms between LDSTATE and STSTATE. -/
theorem primitiveSequencesEqualBlockCommands : Obligations.PrimitiveSequencesEqualBlockCommands := by
  intro s hs hk
  have hnr := nr_lt_of_valid hs hk
  obtain ⟨henc, hdec⟩ := (blockCommands s).2 hk
  refine ⟨⟨_, henc, ?_⟩, ⟨_, hdec, ?_⟩⟩
  · have h := run_load_transform_store (transforms_encryptBlock hk hnr)
    simpa only [encryptCommands, List.append_assoc, List.cons_append, List.nil_append] using h
  · have h := run_load_transform_store (transforms_decryptBlock hk hnr)
    simpa only [decryptCommands, List.append_assoc, List.cons_append, List.nil_append] using h

/-! ### Encryption and decryption are inverse (R152) -/

section
variable (w : List Quad)

/-- A middle round of decryption undoes the middle round of encryption of the same key, seen after its substitution. -/
theorem decryptRound_encryptRound (r : Nat) (x : Block) :
    decryptRound w r (shiftRows (subBytes (encryptRound w r x))) = shiftRows (subBytes x) := by
  simp [decryptRound, encryptRound]

theorem decryptRounds_encryptRounds (n : Nat) (x : Block) :
    decryptRounds w n (shiftRows (subBytes (encryptRounds w n x))) = shiftRows (subBytes x) := by
  induction n with
  | zero => rfl
  | succ n ih => rw [encryptRounds, decryptRounds, decryptRound_encryptRound, ih]

theorem decryptBlock_encryptBlock (nr : Nat) (b : Block) : decryptBlock w nr (encryptBlock w nr b) = b := by
  rw [decryptBlock, encryptBlock, addRoundKey_addRoundKey, decryptRounds_encryptRounds]
  simp

/-- In the other order, the rounds of encryption undo the rounds of decryption, each the one of its key. -/
theorem encryptRounds_decryptRounds (n : Nat) (x : Block) :
    shiftRows (subBytes (encryptRounds w n (invSubBytes (invShiftRows (decryptRounds w n x))))) = x := by
  induction n generalizing x with
  | zero => simp [encryptRounds, decryptRounds]
  | succ n ih =>
    rw [encryptRounds, decryptRounds, encryptRound, ih]
    simp [decryptRound]

theorem encryptBlock_decryptBlock (nr : Nat) (b : Block) : encryptBlock w nr (decryptBlock w nr b) = b := by
  rw [encryptBlock, decryptBlock, addRoundKey_addRoundKey, encryptRounds_decryptRounds, addRoundKey_addRoundKey]

end

/-- `s` with `b` in BLK, S zeroised and STATUS cleared: where a block command leaves the core. -/
def withBlock (s : State) (b : Block) : State :=
  { s with blk := b, cipherState := Block.zero, errCode := 0, errInfo := 0 }

theorem exec_encblk {s : State} (hk : s.kvalid = true) :
    exec .encblk s = .next (withBlock s (encryptBlock s.w.toList s.nr.toNat s.blk)) := ((blockCommands s).2 hk).1

theorem exec_decblk {s : State} (hk : s.kvalid = true) :
    exec .decblk s = .next (withBlock s (decryptBlock s.w.toList s.nr.toNat s.blk)) := ((blockCommands s).2 hk).2

theorem run_encblk_decblk {s : State} (hk : s.kvalid = true) :
    runCommands [.encblk, .decblk] s = some (withBlock s s.blk) := by
  rw [runCommands_cons (exec_encblk hk), runCommands_cons (exec_decblk (s := withBlock s _) hk)]
  exact congrArg (fun b => some (withBlock s b)) (decryptBlock_encryptBlock _ _ _)

theorem run_decblk_encblk {s : State} (hk : s.kvalid = true) :
    runCommands [.decblk, .encblk] s = some (withBlock s s.blk) := by
  rw [runCommands_cons (exec_decblk hk), runCommands_cons (exec_encblk (s := withBlock s _) hk)]
  exact congrArg (fun b => some (withBlock s b)) (encryptBlock_decryptBlock _ _ _)

/-- Settles O36: the second command transforms the block that the first one left. -/
theorem decblkInvertsEncblk : Obligations.DecblkInvertsEncblk :=
  fun _ hk => ⟨run_encblk_decblk hk, run_decblk_encblk hk⟩

end Sys2Proof.BlockTransform

/-! ## The known-answer vector (95_test_vectors.md V1) -/

namespace Sys2Proof.KnownAnswer

open Sys2Proof Sys2Proof.Machine Sys2Proof.Claims Sys2Proof.KeyExpansion Sys2Proof.BlockTransform Sys2Proof.WholeMessage

/-- The key of V1. -/
def keyV1 : List Byte := [0x00, 0x01, 0x02, 0x03, 0x04, 0x05, 0x06, 0x07, 0x08, 0x09, 0x0a, 0x0b, 0x0c, 0x0d, 0x0e, 0x0f]

/-- The plaintext of V1. -/
def plainV1 : List Byte := [0x00, 0x11, 0x22, 0x33, 0x44, 0x55, 0x66, 0x77, 0x88, 0x99, 0xaa, 0xbb, 0xcc, 0xdd, 0xee, 0xff]

/-- The ciphertext of V1. -/
def cipherV1 : List Byte := [0x69, 0xc4, 0xe0, 0xd8, 0x6a, 0x7b, 0x04, 0x30, 0xd8, 0xcd, 0xb7, 0x80, 0x70, 0xb4, 0xc5, 0x5a]

/-- The block transform on the published values, evaluated. -/
theorem encryptBlock_V1 :
    (encryptBlock (expandKey keyV1 16).words 10 (Block.ofList plainV1)).toList = cipherV1 := by decide +kernel

/-- Settles O34: the commands on any state that holds the values are the block transform of the values and back. -/
theorem knownAnswerVector : Obligations.KnownAnswerVector := by
  intro s hlen hkey hplain
  have hlegal : s.keyLen.toNat ∈ [16, 24, 32] := by rw [hlen]; decide
  have hschedule : s.schedule = expandKey keyV1 16 := by
    rw [State.schedule, hlen]
    exact congrArg (expandKey · 16) hkey
  have hnr : (expanded s).nr.toNat = 10 := by rw [toNat_expanded_nr_eq_schedule, hschedule]; rfl
  have hblk : s.blk = Block.ofList plainV1 := by rw [← s.blk.ofList_toList, hplain]; rfl
  have hcipher : (encryptBlock (expanded s).w.toList (expanded s).nr.toNat (expanded s).blk).toList = cipherV1 := by
    rw [hnr, encryptBlock_congr (roundKey_expanded hlegal), hschedule, show (expanded s).blk = s.blk from rfl, hblk,
      encryptBlock_V1]
  have hexpand := exec_keyexp_of_legal hlegal
  constructor
  · refine ⟨withBlock (expanded s) _, ?_, hcipher, rfl⟩
    rw [runCommands_cons hexpand, runCommands_cons (exec_encblk rfl)]
    rfl
  · exact ⟨_, (runCommands_cons hexpand _).trans (run_encblk_decblk rfl), hplain, rfl⟩

end Sys2Proof.KnownAnswer

/-! ## Padding and ECB undone (R187, R190, R191) -/

namespace Sys2Proof.Padding

open Sys2Proof.Machine

/-- Settles O39: the last byte of a padded message is its padding's length, which passes every check of R187. -/
theorem unpadUndoesPad : Obligations.UnpadUndoesPad := by
  intro m strict
  have hpos := padLength_pos m.length
  have hle := padLength_le m.length
  have hbyte : (BitVec.ofNat 8 (padLength m.length)).toNat = padLength m.length := toNat_ofNat_round (by omega)
  have hlast : (pad m).getLast? = some (BitVec.ofNat 8 (padLength m.length)) := by
    rw [pad, List.getLast?_append, List.getLast?_replicate, if_neg (by omega), Option.some_or]
  have hstart : (pad m).length - padLength m.length = m.length := by simp [pad]
  rw [unpad_of_getLast? strict hlast, hbyte, hstart]
  have hrange : ¬ (strict && (padLength m.length == 0 || decide (16 < padLength m.length))) = true := by
    simp only [Bool.and_eq_true, Bool.or_eq_true, beq_iff_eq, decide_eq_true_eq]
    omega
  have hbytes : ¬ (strict && ((pad m).drop m.length).any (· != BitVec.ofNat 8 (padLength m.length))) = true := by
    simp [pad]
  have hlength : ¬ (pad m).length < padLength m.length := by simp [pad]
  rw [if_neg hrange, if_neg hlength, if_neg hbytes, pad, List.take_left]

end Sys2Proof.Padding

namespace Sys2Proof.Ecb

open Sys2Proof Sys2Proof.Machine Sys2Proof.Claims Sys2Proof.BlockTransform Sys2Proof.MessageBuffers

/-- An ECB command whose checks pass (R190, R191). -/
theorem exec_ecb_of_whole {p : Instr × (List Quad → Nat → Block → Block)} (hp : p ∈ ecbPairs) {s : State}
    (hk : s.kvalid = true) (hn : s.rawLen.toNat ≤ 16 * s.nblkMax) (h16 : s.rawLen.toNat % 16 = 0) :
    exec p.1 s = .next ((transformed p.2 s).withStatus 0 0) := by
  refine exec_of_computed ((commandResult_ecb hp s).trans ?_)
  rw [if_neg (by simp [hk]), if_neg (Nat.not_lt.mpr hn), if_neg (Decidable.not_not.mpr h16)]

theorem exec_ecbenc_of_whole {s : State} (hk : s.kvalid = true) (hn : s.rawLen.toNat ≤ 16 * s.nblkMax)
    (h16 : s.rawLen.toNat % 16 = 0) : exec .ecbenc s = .next ((transformed encryptBlock s).withStatus 0 0) :=
  exec_ecb_of_whole (p := (.ecbenc, encryptBlock)) (by simp [ecbPairs]) hk hn h16

theorem exec_ecbdec_of_whole {s : State} (hk : s.kvalid = true) (hn : s.rawLen.toNat ≤ 16 * s.nblkMax)
    (h16 : s.rawLen.toNat % 16 = 0) : exec .ecbdec s = .next ((transformed decryptBlock s).withStatus 0 0) :=
  exec_ecb_of_whole (p := (.ecbdec, decryptBlock)) (by simp [ecbPairs]) hk hn h16

theorem rawBytes_transformed (f : List Quad → Nat → Block → Block) {s : State} (hs : s.raw.wf = true)
    (h16 : s.rawLen.toNat % 16 = 0) : (transformed f s).rawBytes = ecbMap (f s.w.toList s.nr.toNat) s.rawBytes := by
  have hlen : (ecbMap (f s.w.toList s.nr.toNat) s.rawBytes).length = s.rawLen.toNat := by
    rw [length_ecbMap _ (by rwa [State.length_rawBytes]), State.length_rawBytes]
  show (s.raw.store 0 (ecbMap (f s.w.toList s.nr.toNat) s.rawBytes)).take s.rawLen.toNat = _
  rw [← hlen, Memory.take_store hs]

/-- A transform of whole blocks and then its inverse restore RAW (R190, R191). -/
theorem transformed_transformed {f g : List Quad → Nat → Block → Block} (hfg : ∀ w nr b, g w nr (f w nr b) = b)
    {s : State} (hs : s.raw.wf = true) (h16 : s.rawLen.toNat % 16 = 0) :
    transformed g (transformed f s) = s.zeroiseState := by
  have hwhole : s.rawBytes.length % 16 = 0 := by rwa [State.length_rawBytes]
  have hback : ecbMap (g (transformed f s).w.toList (transformed f s).nr.toNat) (transformed f s).rawBytes = s.rawBytes := by
    rw [rawBytes_transformed f hs h16]
    exact ecbMap_inverse (hfg s.w.toList s.nr.toNat) _ (Nat.le_refl _) hwhole
  have hraw : (s.raw.store 0 (ecbMap (f s.w.toList s.nr.toNat) s.rawBytes)).store 0 s.rawBytes = s.raw := by
    rw [Memory.store_store hs (length_ecbMap _ hwhole).symm]
    exact Memory.store_take hs _
  rw [transformed, hback]
  exact congrArg (fun m => State.zeroiseState { s with raw := m }) hraw

/-- Settles O44: the second command finds the blocks that the first one left, and transforms each back. -/
theorem ecbdecInvertsEcbenc : Obligations.EcbdecInvertsEcbenc := by
  intro s hs hk hn h16
  constructor
  · rw [runCommands_cons (exec_ecbenc_of_whole hk hn h16),
      runCommands_cons (exec_ecbdec_of_whole (s := (transformed encryptBlock s).withStatus 0 0) hk hn h16)]
    exact congrArg (fun t => some (State.withStatus t 0 0)) (transformed_transformed decryptBlock_encryptBlock hs.raw_wf h16)
  · rw [runCommands_cons (exec_ecbdec_of_whole hk hn h16),
      runCommands_cons (exec_ecbenc_of_whole (s := (transformed decryptBlock s).withStatus 0 0) hk hn h16)]
    exact congrArg (fun t => some (State.withStatus t 0 0)) (transformed_transformed encryptBlock_decryptBlock hs.raw_wf h16)

end Sys2Proof.Ecb

/-! ## Base64 undone (R199) -/

namespace Sys2Proof.Base64

open Sys2Proof Sys2Proof.Machine Sys2Proof.Claims Sys2Proof.BlockTransform Sys2Proof.MessageBuffers

/-- Where B64ENC leaves the core. -/
def framed (s : State) : State := (s.setFrame (b64enc s.rawBytes)).withStatus 0 0

theorem exec_b64enc_of_fits {s : State} (hn : s.rawLen.toNat ≤ 16 * s.nblkMax) : exec .b64enc s = .next (framed s) :=
  exec_of_computed ((commandResult_b64enc s).trans (if_neg (Nat.not_lt.mpr hn)))

/-- The text of a RAW within its capacity, and its length, are what FRAME holds after B64ENC. -/
theorem frameText_framed {s : State} (hs : s.Inv) (hn : s.rawLen.toNat ≤ 16 * s.nblkMax) :
    (framed s).frameText = b64enc s.rawBytes ∧ (framed s).frameLen.toNat ≤ 4 * ((16 * s.nblkMax + 2) / 3) := by
  have hcap := nblkMax_le hs
  have hlen : (b64enc s.rawBytes).length = 4 * ((s.rawLen.toNat + 2) / 3) := by
    rw [length_b64enc, State.length_rawBytes]
  have hreg : (framed s).frameLen.toNat = (b64enc s.rawBytes).length := toNat_ofNat_length (by omega)
  exact ⟨Memory.take_store_ofNat hs.frame_wf _ (by omega), by omega⟩

theorem exec_b64dec_of_ok {s : State} {x : List Byte} (hlen : s.frameLen.toNat ≤ 4 * ((16 * s.nblkMax + 2) / 3))
    (hx : b64dec s.frameText = .ok x) (hfits : x.length ≤ 16 * s.nblkMax) :
    exec .b64dec s = .next ((s.setRaw x).withStatus 0 0) :=
  exec_of_computed ((commandResult_b64dec_of_ok hlen hx).trans (if_neg (Nat.not_lt.mpr hfits)))

/-- A B64DEC that succeeds has decoded a frame within its buffer to bytes that fit RAW. -/
theorem b64dec_success {s t : State} (h : exec .b64dec s = .next t) (h0 : t.errCode = 0) :
    ∃ x, b64dec s.frameText = .ok x ∧ x.length ≤ 16 * s.nblkMax ∧ t = (s.setRaw x).withStatus 0 0 := by
  rw [exec_eq_complete] at h
  obtain ⟨u, hu, rfl⟩ := State.complete_success h h0
  by_cases hlen : 4 * ((16 * s.nblkMax + 2) / 3) < s.frameLen.toNat
  · rw [commandResult_b64dec_tooLong hlen] at hu
    cases hu
  · cases hx : b64dec s.frameText with
    | error e =>
      rw [commandResult_b64dec_of_error (Nat.not_lt.mp hlen) hx] at hu
      cases hu
    | ok x =>
      rw [commandResult_b64dec_of_ok (Nat.not_lt.mp hlen) hx] at hu
      split at hu
      · cases hu
      · next hfits => exact ⟨x, rfl, Nat.not_lt.mp hfits, by rw [Except.ok.inj hu]⟩

/-- Setting RAW to the bytes it holds changes nothing. -/
theorem setRaw_rawBytes {s : State} (hs : s.raw.wf = true) : s.setRaw s.rawBytes = s := by
  rw [State.setRaw, State.length_rawBytes, State.rawBytes, Memory.store_take hs, BitVec.ofNat_toNat, BitVec.setWidth_eq]

/-- Setting FRAME to the text it holds changes nothing. -/
theorem setFrame_frameText {s : State} (hs : s.frame.wf = true) : s.setFrame s.frameText = s := by
  rw [State.setFrame, State.length_frameText, State.frameText, Memory.store_take hs, BitVec.ofNat_toNat, BitVec.setWidth_eq]

/-- Settles O49: either command finds the text, or the bytes, that the other one made from what is in its buffer. -/
theorem base64CommandsRoundTrip : Obligations.Base64CommandsRoundTrip := by
  intro s hs
  have hcap := nblkMax_le hs
  refine ⟨fun hn => ?_, fun t ht h0 => ?_⟩
  · obtain ⟨htext, hlen⟩ := frameText_framed hs hn
    have hdecode : b64dec (framed s).frameText = .ok (framed s).rawBytes := b64dec_eq_ok_iff_eq_b64enc.mpr htext
    have hfits : (framed s).rawBytes.length ≤ 16 * s.nblkMax := by rwa [State.length_rawBytes]
    refine ⟨(framed s).withStatus 0 0, ?_, rfl, rfl, rfl⟩
    rw [runCommands_cons (exec_b64enc_of_fits hn), runCommands_cons (exec_b64dec_of_ok hlen hdecode hfits),
      setRaw_rawBytes (s := framed s) hs.raw_wf]
    rfl
  · obtain ⟨x, hx, hfits, rfl⟩ := b64dec_success ht h0
    have hbytes : ((s.setRaw x).withStatus 0 0).rawBytes = x := Memory.take_store_ofNat hs.raw_wf x (by omega)
    have hreg : ((s.setRaw x).withStatus 0 0).rawLen.toNat = x.length := toNat_ofNat_length (by omega)
    have hframe : s.setFrame (b64enc ((s.setRaw x).withStatus 0 0).rawBytes) = s := by
      rw [hbytes, ← b64dec_eq_ok_iff_eq_b64enc.mp hx, setFrame_frameText hs.frame_wf]
    exact ⟨_, exec_b64enc_of_fits (by rw [hreg]; exact hfits), (congrArg State.frame hframe :),
      (congrArg State.frameLen hframe :), rfl⟩

end Sys2Proof.Base64

/-! ## Whole messages: stages, round trip and independence (R180, R200 to R202)

A stage command works in place on what the stage before it left in RAW or FRAME, so the stages together store what the whole
command stores. What ENCRYPT computes depends on the schedule and the message, and DECRYPT computes its inverse. -/

namespace Sys2Proof.WholeMessage

open Sys2Proof Sys2Proof.Machine Sys2Proof.Claims Sys2Proof.KeyExpansion Sys2Proof.BlockTransform
  Sys2Proof.MessageBuffers Sys2Proof.Base64 Sys2Proof.Ecb Sys2Proof.CommandEffects

/-! ### ENCRYPT that succeeds -/

/-- An ENCRYPT that succeeds had a legal key length and room for the padding. -/
theorem encrypt_success {s t : State} (h : exec .encrypt s = .next t) (h0 : t.errCode = 0) :
    s.keyLen.toNat ∈ [16, 24, 32] ∧ s.msgLen.toNat < 16 * s.nblkMax ∧ t = (encrypted s).withStatus 0 0 := by
  rw [exec_eq_complete] at h
  obtain ⟨u, hu, rfl⟩ := State.complete_success h h0
  by_cases hkey : s.keyLen.toNat ∈ [16, 24, 32]
  · rw [commandResult_encrypt_of_legal hkey] at hu
    split at hu
    · cases hu
    · split at hu
      · cases hu
      · next hfits => exact ⟨hkey, by omega, by rw [Except.ok.inj hu]⟩
  · rw [commandResult_encrypt_of_illegal hkey] at hu
    cases hu

theorem exec_encrypt_of_fits {s : State} (hkey : s.keyLen.toNat ∈ [16, 24, 32]) (hfits : s.msgLen.toNat < 16 * s.nblkMax) :
    exec .encrypt s = .next ((encrypted s).withStatus 0 0) := by
  refine exec_of_computed ((commandResult_encrypt_of_legal hkey).trans ?_)
  rw [if_neg (by omega), if_neg (by omega)]

/-- With room for the padding, the ciphertext fits RAW and its text fits FRAME. -/
theorem lengths_of_fits {s : State} (hfits : s.msgLen.toNat < 16 * s.nblkMax) :
    (encryptedBytes s).length ≤ 16 * s.nblkMax
      ∧ (b64enc (encryptedBytes s)).length ≤ 4 * ((16 * s.nblkMax + 2) / 3) := by
  have hlen := length_encryptedBytes s
  rw [length_b64enc]
  omega

/-- What RAW and FRAME hold after an ENCRYPT that succeeds. -/
theorem buffers_encrypted {s : State} (hs : s.Inv) (hfits : s.msgLen.toNat < 16 * s.nblkMax) :
    ((encrypted s).withStatus 0 0).rawBytes = encryptedBytes s
      ∧ ((encrypted s).withStatus 0 0).frameText = b64enc (encryptedBytes s)
      ∧ ((encrypted s).withStatus 0 0).frameLen.toNat = (b64enc (encryptedBytes s)).length := by
  have hcap := nblkMax_le hs
  obtain ⟨hraw, hframe⟩ := lengths_of_fits hfits
  exact ⟨Memory.take_store_ofNat hs.raw_wf _ (by omega), Memory.take_store_ofNat hs.frame_wf _ (by omega),
    toNat_ofNat_length (by omega)⟩

/-! ### The stages of ENCRYPT (R180) -/

/-- Bytes stored over as many bytes that were stored before are all that is left of both stores. -/
theorem setRaw_in_place {s : State} (hs : s.raw.wf = true) {x y : List Byte} (hl : y.length = x.length) :
    { s.setRaw x with raw := (s.setRaw x).raw.store 0 y } = s.setRaw y := by
  simp only [State.setRaw, Memory.store_store hs hl, hl]

/-- Where PAD leaves the core. -/
def padded (s : State) : State := (s.setRaw (pad s.message)).withStatus 0 0

theorem exec_pad_of_fits {s : State} (hfits : s.msgLen.toNat < 16 * s.nblkMax) : exec .pad s = .next (padded s) := by
  refine exec_of_computed ((Padding.commandResult_pad s).trans ?_)
  rw [if_neg (by omega), if_neg (by omega)]

/-- Encrypting in place the padded message under the expanded key (R189, R190). -/
theorem transformed_expanded_padded {s : State} (hs : s.Inv) (hkey : s.keyLen.toNat ∈ [16, 24, 32])
    (hfits : s.msgLen.toNat < 16 * s.nblkMax) :
    transformed encryptBlock (expanded (padded s))
      = (expanded (s.setRaw (encryptedBytes s))).zeroiseState := by
  have hcap := nblkMax_le hs
  have hpad := Padding.length_pad_message s
  have hbytes : (expanded (padded s)).rawBytes = pad s.message := Memory.take_store_ofNat hs.raw_wf _ (by omega)
  have hecb : ecbMap (encryptBlock (expanded (padded s)).w.toList (expanded (padded s)).nr.toNat)
      (expanded (padded s)).rawBytes = encryptedBytes s := by
    rw [hbytes]
    exact ecbEncrypt_expanded (s := padded s) hkey (pad s.message)
  rw [transformed, hecb]
  exact congrArg (fun v : State => ((v.commitSchedule s.schedule).withStatus 0 0).zeroiseState)
    (setRaw_in_place hs.raw_wf ((length_encryptedBytes s).trans hpad.symm))

/-- Settles O52: each stage stores what the next one reads, and the last store of RAW and that of FRAME are ENCRYPT's. -/
theorem encryptEqualsItsStages : Obligations.EncryptEqualsItsStages := by
  intro s t hs h h0
  obtain ⟨hkey, hfits, rfl⟩ := encrypt_success h h0
  have hcap := nblkMax_le hs
  have hpad := Padding.length_pad_message s
  have hlen := length_encryptedBytes s
  have hrawLen : (expanded (padded s)).rawLen.toNat = 16 * (s.msgLen.toNat / 16 + 1) :=
    (toNat_ofNat_length (by omega)).trans hpad
  have hecb := transformed_expanded_padded hs hkey hfits
  have hstage : exec .ecbenc (expanded (padded s))
      = .next (((expanded (s.setRaw (encryptedBytes s))).zeroiseState).withStatus 0 0) := by
    rw [← hecb]
    exact exec_ecbenc_of_whole rfl (show _ ≤ 16 * s.nblkMax by omega) (by omega)
  rw [runCommands_cons (exec_pad_of_fits hfits), runCommands_cons (exec_keyexp_of_legal (s := padded s) hkey),
    runCommands_cons hstage, runCommands_cons (exec_b64enc_of_fits ?_)]
  · have hbytes : (((expanded (s.setRaw (encryptedBytes s))).zeroiseState).withStatus 0 0).rawBytes = encryptedBytes s :=
      Memory.take_store_ofNat hs.raw_wf _ (by omega)
    rw [runCommands, framed, hbytes]
    rfl
  · show (BitVec.ofNat 32 (encryptedBytes s).length).toNat ≤ 16 * s.nblkMax
    rw [toNat_ofNat_length (by omega)]
    omega

/-! ### DECRYPT that succeeds -/

/-- A DECRYPT that succeeds decoded its frame to whole blocks and unpadded their decryption. -/
theorem decrypt_success {s t : State} (h : exec .decrypt s = .next t) (h0 : t.errCode = 0) :
    ∃ y m, Decrypts s y m ∧ t = (decrypted s (decryptedBlocks s y) m).withStatus 0 0 := by
  rw [exec_eq_complete] at h
  obtain ⟨u, hu, rfl⟩ := State.complete_success h h0
  rcases commandResult_decrypt_cases s with ⟨e, -, hresult⟩ | ⟨y, m, hd, hresult⟩
  · rw [hresult] at hu
    cases hu
  · rw [hresult] at hu
    exact ⟨y, m, hd, by rw [Except.ok.inj hu]⟩

/-! ### The stages of DECRYPT (R180) -/

theorem exec_unpad_of_ok {s : State} {m : List Byte} (hn : s.rawLen.toNat ≤ 16 * s.nblkMax)
    (hm : unpad s.rawBytes s.padchk = .ok m) : exec .unpad s = .next ((s.setMessage m).withStatus 0 0) :=
  exec_of_computed (Padding.commandResult_unpad_of_ok hn hm)

/-- Decrypting in place the decoded bytes under the expanded key (R189, R191). -/
theorem transformed_setRaw_expanded {s : State} (hs : s.Inv) (hkey : s.keyLen.toNat ∈ [16, 24, 32]) {y : List Byte}
    (hy : y.length < 2 ^ 32) (h16 : y.length % 16 = 0) :
    transformed decryptBlock (((expanded s).setRaw y).withStatus 0 0)
      = (expanded (s.setRaw (decryptedBlocks s y))).zeroiseState := by
  have hbytes : (((expanded s).setRaw y).withStatus 0 0).rawBytes = y := Memory.take_store_ofNat hs.raw_wf _ hy
  have hecb : ecbMap (decryptBlock (((expanded s).setRaw y).withStatus 0 0).w.toList
      (((expanded s).setRaw y).withStatus 0 0).nr.toNat) (((expanded s).setRaw y).withStatus 0 0).rawBytes
        = decryptedBlocks s y := by
    rw [hbytes]
    exact ecbDecrypt_expanded hkey y
  rw [transformed, hecb]
  exact congrArg (fun v : State => ((v.commitSchedule s.schedule).withStatus 0 0).zeroiseState)
    (setRaw_in_place hs.raw_wf (length_decryptedBlocks s h16))

/-- Settles O53: each stage stores what the next one reads, and the last store of RAW and that of MSG are DECRYPT's. -/
theorem decryptEqualsItsStages : Obligations.DecryptEqualsItsStages := by
  intro s t hs h h0
  obtain ⟨y, m, ⟨hkey, hlen, hy, h16, hm⟩, rfl⟩ := decrypt_success h h0
  have hcap := nblkMax_le hs
  have hfits := length_le_of_whole_blocks hlen hy h16
  have hx := length_decryptedBlocks s h16
  have hreg : (((expanded s).setRaw y).withStatus 0 0).rawLen.toNat = y.length := toNat_ofNat_length (by omega)
  have hecb := transformed_setRaw_expanded hs hkey (by omega) h16
  have hstage : exec .ecbdec (((expanded s).setRaw y).withStatus 0 0)
      = .next (((expanded (s.setRaw (decryptedBlocks s y))).zeroiseState).withStatus 0 0) := by
    rw [← hecb]
    exact exec_ecbdec_of_whole rfl (show _ ≤ 16 * s.nblkMax by omega) (by omega)
  have hbytes : (s.setRaw (decryptedBlocks s y)).rawBytes = decryptedBlocks s y :=
    Memory.take_store_ofNat hs.raw_wf _ (by omega)
  rw [runCommands_cons (exec_keyexp_of_legal hkey), runCommands_cons (exec_b64dec_of_ok (s := expanded s) hlen hy hfits),
    runCommands_cons hstage, runCommands_cons (exec_unpad_of_ok (m := m) ?_ ?_)]
  · rfl
  · show (BitVec.ofNat 32 (decryptedBlocks s y).length).toNat ≤ 16 * s.nblkMax
    rw [toNat_ofNat_length (by omega)]
    omega
  · show unpad (s.setRaw (decryptedBlocks s y)).rawBytes s.padchk = .ok m
    rw [hbytes, hm]

/-! ### The round trip (R202) -/

/-- What ENCRYPT computes depends on the schedule and the message only (R200). -/
theorem encryptedBytes_congr {s u : State} (hschedule : u.schedule = s.schedule) (hmessage : u.message = s.message) :
    encryptedBytes u = encryptedBytes s := by
  rw [encryptedBytes, encryptedBytes, hschedule, hmessage]

/-- Decrypting what ENCRYPT computed, under the same schedule, gives the padded message (R152, R189). -/
theorem decryptedBlocks_encryptedBytes {s u : State} (hschedule : u.schedule = s.schedule) :
    decryptedBlocks u (encryptedBytes s) = pad s.message := by
  have hpad := Padding.length_pad_message s
  rw [decryptedBlocks, encryptedBytes, hschedule]
  exact ecbMap_inverse (decryptBlock_encryptBlock _ _) _ (Nat.le_refl _) (by omega)

/-- Settles O54: the frame decodes to the ciphertext, which decrypts to the padded message, whatever the padding mode. -/
theorem decryptUndoesEncrypt : Obligations.DecryptUndoesEncrypt := by
  intro s t u hs hu h h0 hn hkeyLen hkeys hframeLen hframeText
  obtain ⟨hkey, hfits, rfl⟩ := encrypt_success h h0
  obtain ⟨-, htext, htextLen⟩ := buffers_encrypted hs hfits
  have hcap := nblkMax_le hs
  have hschedule := schedule_congr hkeyLen hkeys
  have hlen : u.frameLen.toNat ≤ 4 * ((16 * u.nblkMax + 2) / 3) := by
    rw [hframeLen, htextLen, hn]
    exact (lengths_of_fits hfits).2
  have hdecode : b64dec u.frameText = .ok (encryptedBytes s) :=
    b64dec_eq_ok_iff_eq_b64enc.mpr (hframeText.trans htext)
  have h16 : (encryptedBytes s).length % 16 = 0 := by
    rw [length_encryptedBytes]
    omega
  have hresult : commandResult .decrypt u = .ok (decrypted u (pad s.message) s.message) := by
    rw [commandResult_decrypt_of_whole_blocks (hkeyLen ▸ hkey) hlen hdecode h16, decryptedBlocks_encryptedBytes hschedule,
      Padding.unpadUndoesPad]
    rfl
  have hmsgLen : BitVec.ofNat 32 s.message.length = s.msgLen := by
    rw [State.length_message, BitVec.ofNat_toNat, BitVec.setWidth_eq]
  have hmessage : (u.msg.store 0 s.message).take (BitVec.ofNat 32 s.message.length).toNat = s.message := by
    rw [hmsgLen, ← State.length_message, Memory.take_store hu.msg_wf]
  exact ⟨(decrypted u (pad s.message) s.message).withStatus 0 0, exec_of_computed hresult, rfl, hmsgLen, hmessage⟩

/-! ### Independence of everything else (R200) -/

/-- ENCRYPT sets KVALID whatever the state. -/
theorem kvalid_encrypted (s : State) : ((encrypted s).withStatus 0 0).kvalid = true := rfl

/-- Settles O55: the schedule and the message fix what ENCRYPT computes, and so what it stores. -/
theorem encryptDependsOnKeyAndMessageOnly : Obligations.EncryptDependsOnKeyAndMessageOnly := by
  intro s u t hs hu hn hkeyLen hkeys hmsgLen hmessage h h0
  obtain ⟨hkey, hfits, rfl⟩ := encrypt_success h h0
  have hschedule := schedule_congr hkeyLen hkeys
  have hbytes := encryptedBytes_congr hschedule hmessage
  have hfits' : u.msgLen.toNat < 16 * u.nblkMax := by rwa [hmsgLen, hn]
  obtain ⟨hraw, htext, -⟩ := buffers_encrypted hs hfits
  obtain ⟨hraw', htext', -⟩ := buffers_encrypted hu hfits'
  refine ⟨_, exec_encrypt_of_fits (hkeyLen ▸ hkey) hfits', rfl, ?_, ?_, ?_, ?_, ?_, ?_,
    ?_, ?_⟩
  · exact congrArg (fun ks : KeySchedule => roundKeyMemory ks.words) hschedule
  · exact congrArg (fun ks : KeySchedule => BitVec.ofNat 32 ks.nk) hschedule
  · exact congrArg (fun ks : KeySchedule => BitVec.ofNat 32 ks.nr) hschedule
  · rw [kvalid_encrypted, kvalid_encrypted]
  · exact congrArg (fun x : List Byte => BitVec.ofNat 32 x.length) hbytes
  · rw [hraw, hraw', hbytes]
  · exact congrArg (fun x : List Byte => BitVec.ofNat 32 (b64enc x).length) hbytes
  · rw [htext, htext', hbytes]

/-! ### Corrupt frames (R202) -/

/-- Settles O56: past the two checks of lengths, decoding fails with an EncodingError and unpadding with a PaddingError. -/
theorem corruptFramesFailAsInput : Obligations.CorruptFramesFailAsInput := by
  intro s hkey hlen
  cases hy : b64dec s.frameText with
  | error e =>
    refine ⟨_, exec_of_error (commandResult_decrypt_of_b64dec_error hkey hlen hy), .inr (.inl ?_)⟩
    rcases b64dec_error_cases hy with rfl | rfl | rfl <;> rfl
  | ok y =>
    by_cases h16 : y.length % 16 = 0
    · have hresult := commandResult_decrypt_of_whole_blocks hkey hlen hy h16
      cases hm : unpad (decryptedBlocks s y) s.padchk with
      | error e =>
        rw [hm] at hresult
        exact ⟨_, exec_of_error hresult, .inr (.inr (unpad_error_code hm))⟩
      | ok m =>
        rw [hm] at hresult
        exact ⟨_, exec_of_computed hresult, .inl rfl⟩
    · exact ⟨_, exec_of_error (commandResult_decrypt_of_partial_block hkey hlen hy h16), .inr (.inl rfl)⟩

end Sys2Proof.WholeMessage
